-- ==== Sys2Proof/Word.lean ====
section
/-! DEFINITION. The fixed widths of T1C (00_scope.md R6, R7): bytes, 16-bit fields and 32-bit registers, all unsigned. -/

namespace Sys2Proof

/-- A byte: 8 bits (R7). -/
abbrev Byte := BitVec 8

/-- A 16-bit field: FIFO indexes and levels, timer counts, checksum accumulators (R6). -/
abbrev Half := BitVec 16

/-- A register or a command word: 32 bits (R6, R100). -/
abbrev Word := BitVec 32

end Sys2Proof
end

