-- ==== Sys2Proof/Syntax.lean ====
section
/-! DEFINITION. The commands of T1C as syntax: one constructor per row of spec/opcode_table.json (30_encoding.md R102),
with the row's named sub-fields of A and B as its arguments. -/

namespace Sys2Proof

/-- A command of T1C.  A field is the bits the opcode map gives it; one-bit fields are `Bool`. -/
inductive Instr where
  /-- 0x00 NOP (R290). -/
  | nop
  /-- 0x01 SOFT_RESET (R291). -/
  | softReset
  /-- 0x02 CFG_DEFAULTS (R292). -/
  | cfgDefaults
  /-- 0x10 FIFO_PUSH, A = byte (R132). -/
  | fifoPush (byte : Byte)
  /-- 0x11 FIFO_POP (R133). -/
  | fifoPop
  /-- 0x12 FIFO_PEEK, B = offset (R134). -/
  | fifoPeek (offset : Half)
  /-- 0x13 FIFO_REMOVE, B = n (R135). -/
  | fifoRemove (n : Half)
  /-- 0x14 FIFO_FLUSH (R136). -/
  | fifoFlush
  /-- 0x20 EDC_INIT (R154). -/
  | edcInit
  /-- 0x21 EDC_FEED, A = byte (R155). -/
  | edcFeed (byte : Byte)
  /-- 0x22 EDC_EMIT (R156). -/
  | edcEmit
  /-- 0x30 ENC_I, A[0] = M, A[1] = NS, B[7:0] = LEN (R172). -/
  | encI (m : Bool) (ns : Bool) (len : Byte)
  /-- 0x31 ENC_R, A[3:0] = CODE, A[4] = NR (R173). -/
  | encR (code : BitVec 4) (nr : Bool)
  /-- 0x32 ENC_S, A[4:0] = SCMD, A[5] = RESP, B[7:0] = LEN (R174). -/
  | encS (scmd : BitVec 5) (resp : Bool) (len : Byte)
  /-- 0x33 ENC_DATA, A = byte (R175). -/
  | encData (byte : Byte)
  /-- 0x34 ENC_ABORT (R176). -/
  | encAbort
  /-- 0x40 RX_RESTART (R205). -/
  | rxRestart
  /-- 0x41 RX_RELEASE (R206). -/
  | rxRelease
  /-- 0x42 RX_PUSH, A = byte (R207). -/
  | rxPush (byte : Byte)
  /-- 0x50 TMR_START, A[1:0] = TID, B = ms (R225). -/
  | tmrStart (tid : BitVec 2) (ms : Half)
  /-- 0x51 TMR_STOP, A[1:0] = TID (R226). -/
  | tmrStop (tid : BitVec 2)
  /-- 0x52 TICK, B = elapsed ms (R222). -/
  | tick (ms : Half)
  /-- 0x60 TX_SEND, B = n (R245). -/
  | txSend (n : Half)
  /-- 0x61 TX_STOP (R247). -/
  | txStop
  /-- 0x70 CCID_POWER_ON, A[1:0] = PSEL (R268). -/
  | ccidPowerOn (psel : BitVec 2)
  /-- 0x71 CCID_POWER_OFF (R269). -/
  | ccidPowerOff
  /-- 0x72 CCID_GET_PARAMS (R270). -/
  | ccidGetParams
  /-- 0x73 CCID_SET_PARAMS, A[0] = PROTO, B = n (R271). -/
  | ccidSetParams (proto : Bool) (n : Half)
  deriving DecidableEq, Repr

end Sys2Proof
end

