-- ==== Sys2Proof/WellFormed.lean ====
section
/-! DEFINITION. Which commands are well formed: every sub-field in the range the opcode map states.
The types of `Instr`'s fields already bound every field but TID, whose range is 0 to 2 (30_encoding.md R102). -/

namespace Sys2Proof

/-- The range check on TID: "TID = 3 is out of range" (30_encoding.md R102). -/
def tidInRange (tid : BitVec 2) : Bool := decide (tid ≠ 3#2)

/-- The well-formedness check.  TMR_START and TMR_STOP are the only commands with a sub-field whose stated range is
smaller than its width (30_encoding.md R102). -/
def Instr.wellFormed : Instr → Bool
  | .tmrStart tid _ => tidInRange tid
  | .tmrStop tid => tidInRange tid
  | .nop | .softReset | .cfgDefaults => true
  | .fifoPush _ | .fifoPop | .fifoPeek _ | .fifoRemove _ | .fifoFlush => true
  | .edcInit | .edcFeed _ | .edcEmit => true
  | .encI _ _ _ | .encR _ _ | .encS _ _ _ | .encData _ | .encAbort => true
  | .rxRestart | .rxRelease | .rxPush _ => true
  | .tick _ => true
  | .txSend _ | .txStop => true
  | .ccidPowerOn _ | .ccidPowerOff | .ccidGetParams | .ccidSetParams _ _ => true

end Sys2Proof
end

