-- ==== Sys2Proof/Decode.lean ====
section
/-! DEFINITION. The decoder of the command word (30_encoding.md R100 to R103), total on every word and rejecting by
name, and after it the encoder, written from the same opcode map. -/

namespace Sys2Proof

/-- Why a word is no command.  `reservedBits` names the opcode, because R101 checks CTRL.EN (step 2) before the
reserved bits (step 3), and only for opcodes other than NOP, SOFT_RESET and CFG_DEFAULTS. -/
inductive DecodeError where
  /-- OP is not in the opcode map: E_OPCODE (R101 step 1, R103). -/
  | unknownOpcode
  /-- OP is in the map and a bit its row marks reserved is 1: E_ARG (R101 step 3, R103). -/
  | reservedBits (op : Byte)
  deriving DecidableEq, Repr

/-- The field OP, bits [7:0] (R100). -/
def fieldOp (w : Word) : Byte := w.extractLsb' 0 8

/-- The field A, bits [15:8] (R100). -/
def fieldA (w : Word) : Byte := w.extractLsb' 8 8

/-- The field B, bits [31:16] (R100). -/
def fieldB (w : Word) : Half := w.extractLsb' 16 16

/-- R100: CMD_WORD(op, a, b) = op | (a << 8) | (b << 16). -/
def cmdWord (op a : Byte) (b : Half) : Word := b ++ a ++ op

/-- The three commands that R101 step 2 accepts while CTRL.EN = 0. -/
def allowedWhileDisabled (op : Byte) : Bool := op == 0x00#8 || op == 0x01#8 || op == 0x02#8

/-- R101 step 3: the command `i` when the row's reserved bits are 0, else the rejection. -/
def whenZero (op : Byte) (reservedAreZero : Bool) (i : Instr) : Except DecodeError Instr :=
  if reservedAreZero then .ok i else .error (.reservedBits op)

/-- The opcode map of R102.  Each arm lists the row's reserved bits and reads the row's sub-fields.
TID = 3 matches its row (spec/opcode_table.json's note) and fails with E_ARG in the command's own rule (log 14). -/
def decodeFields (op a : Byte) (b : Half) : Except DecodeError Instr :=
  match op with
  | 0x00#8 => whenZero op (a == 0 && b == 0) .nop
  | 0x01#8 => whenZero op (a == 0 && b == 0) .softReset
  | 0x02#8 => whenZero op (a == 0 && b == 0) .cfgDefaults
  | 0x10#8 => whenZero op (b == 0) (.fifoPush a)
  | 0x11#8 => whenZero op (a == 0 && b == 0) .fifoPop
  | 0x12#8 => whenZero op (a == 0) (.fifoPeek b)
  | 0x13#8 => whenZero op (a == 0) (.fifoRemove b)
  | 0x14#8 => whenZero op (a == 0 && b == 0) .fifoFlush
  | 0x20#8 => whenZero op (a == 0 && b == 0) .edcInit
  | 0x21#8 => whenZero op (b == 0) (.edcFeed a)
  | 0x22#8 => whenZero op (a == 0 && b == 0) .edcEmit
  | 0x30#8 => whenZero op (a.extractLsb' 2 6 == 0 && b.extractLsb' 8 8 == 0)
      (.encI (a.getLsbD 0) (a.getLsbD 1) (b.extractLsb' 0 8))
  | 0x31#8 => whenZero op (a.extractLsb' 5 3 == 0 && b == 0) (.encR (a.extractLsb' 0 4) (a.getLsbD 4))
  | 0x32#8 => whenZero op (a.extractLsb' 6 2 == 0 && b.extractLsb' 8 8 == 0)
      (.encS (a.extractLsb' 0 5) (a.getLsbD 5) (b.extractLsb' 0 8))
  | 0x33#8 => whenZero op (b == 0) (.encData a)
  | 0x34#8 => whenZero op (a == 0 && b == 0) .encAbort
  | 0x40#8 => whenZero op (a == 0 && b == 0) .rxRestart
  | 0x41#8 => whenZero op (a == 0 && b == 0) .rxRelease
  | 0x42#8 => whenZero op (b == 0) (.rxPush a)
  | 0x50#8 => whenZero op (a.extractLsb' 2 6 == 0) (.tmrStart (a.extractLsb' 0 2) b)
  | 0x51#8 => whenZero op (a.extractLsb' 2 6 == 0 && b == 0) (.tmrStop (a.extractLsb' 0 2))
  | 0x52#8 => whenZero op (a == 0) (.tick b)
  | 0x60#8 => whenZero op (a == 0) (.txSend b)
  | 0x61#8 => whenZero op (a == 0 && b == 0) .txStop
  | 0x70#8 => whenZero op (a.extractLsb' 2 6 == 0 && b == 0) (.ccidPowerOn (a.extractLsb' 0 2))
  | 0x71#8 => whenZero op (a == 0 && b == 0) .ccidPowerOff
  | 0x72#8 => whenZero op (a == 0 && b == 0) .ccidGetParams
  | 0x73#8 => whenZero op (a.extractLsb' 1 7 == 0) (.ccidSetParams (a.getLsbD 0) b)
  | _ => .error .unknownOpcode

/-- The decoder of a command word (R101 steps 1 and 3). -/
def decode (w : Word) : Except DecodeError Instr := decodeFields (fieldOp w) (fieldA w) (fieldB w)

/-- The word of the four byte lanes of one 32-bit write, lane 0 first (20_memory.md R83: little-endian); none for any
other number of bytes ("All commands are one word long", R100). -/
def wordOfLanes : List Byte → Option Word
  | [b0, b1, b2, b3] => some (b3 ++ b2 ++ b1 ++ b0)
  | _ => none

/-- The byte lanes of a 32-bit value, lane 0 first (20_memory.md R83). -/
def byteLanes (w : Word) : List Byte :=
  [w.extractLsb' 0 8, w.extractLsb' 8 8, w.extractLsb' 16 8, w.extractLsb' 24 8]

/-- The 32-bit word of a table row's bits: every bit above `nbits` is 0. -/
def tableWord (nbits w : Nat) : Word := BitVec.ofNat 32 (w % 2 ^ nbits)

/-- The instruction the decoder reads from a table row's word, numbered as spec/opcode_table.json numbers it. -/
def decodeTableWord (nbits w : Nat) : Option Instr :=
  match wordOfLanes (byteLanes (tableWord nbits w)) with
  | some v => (decode v).toOption
  | none => none

/-- A one-bit sub-field. -/
def bit1 (x : Bool) : BitVec 1 := BitVec.ofBool x

/-- The encoder: the word HOST writes to CMD for a command (R100, R102). -/
def encode : Instr → Word
  | .nop => cmdWord 0x00 0 0
  | .softReset => cmdWord 0x01 0 0
  | .cfgDefaults => cmdWord 0x02 0 0
  | .fifoPush byte => cmdWord 0x10 byte 0
  | .fifoPop => cmdWord 0x11 0 0
  | .fifoPeek offset => cmdWord 0x12 0 offset
  | .fifoRemove n => cmdWord 0x13 0 n
  | .fifoFlush => cmdWord 0x14 0 0
  | .edcInit => cmdWord 0x20 0 0
  | .edcFeed byte => cmdWord 0x21 byte 0
  | .edcEmit => cmdWord 0x22 0 0
  | .encI m ns len => cmdWord 0x30 (0#6 ++ bit1 ns ++ bit1 m) (0#8 ++ len)
  | .encR code nr => cmdWord 0x31 (0#3 ++ bit1 nr ++ code) 0
  | .encS scmd resp len => cmdWord 0x32 (0#2 ++ bit1 resp ++ scmd) (0#8 ++ len)
  | .encData byte => cmdWord 0x33 byte 0
  | .encAbort => cmdWord 0x34 0 0
  | .rxRestart => cmdWord 0x40 0 0
  | .rxRelease => cmdWord 0x41 0 0
  | .rxPush byte => cmdWord 0x42 byte 0
  | .tmrStart tid ms => cmdWord 0x50 (0#6 ++ tid) ms
  | .tmrStop tid => cmdWord 0x51 (0#6 ++ tid) 0
  | .tick ms => cmdWord 0x52 0 ms
  | .txSend n => cmdWord 0x60 0 n
  | .txStop => cmdWord 0x61 0 0
  | .ccidPowerOn psel => cmdWord 0x70 (0#6 ++ psel) 0
  | .ccidPowerOff => cmdWord 0x71 0 0
  | .ccidGetParams => cmdWord 0x72 0 0
  | .ccidSetParams proto n => cmdWord 0x73 (0#7 ++ bit1 proto) n

end Sys2Proof
end

