-- ==== Sys2Proof/Config.lean ====
section
/-! DEFINITION. What an implementation of T1C fixes: the parameters of 00_scope.md R6, as plain data that
State carries (log 1), and the free values of the storage bytes the spec leaves unspecified (log 5). -/

namespace Sys2Proof.Config

/-- The implementation parameters the model takes (R6).  RXBUF_SIZE is no parameter: see `rxbufSize`. -/
structure Params where
  /-- T1C_BASE: the bus address of register offset 0x000. -/
  base : Nat
  /-- TXFIFO_DEPTH: the storage bytes of the transmit FIFO. -/
  txFifoDepth : Nat
  /-- IBT_DEFAULT_MS: the reset value of TMO_IBT. -/
  ibtDefaultMs : Half
  /-- IFS_DEFAULT: the reset value of IFSC and IFSD. -/
  ifsDefault : Byte
  /-- PRES_N_DEFAULT: the reset value of PRES_CFG.N. -/
  presNDefault : Byte
  /-- ETU_DEFAULT: the reset value of UART_CFG.ETU. -/
  etuDefault : Half
  /-- CLKDIV_DEFAULT: the reset value of UART_CFG.CLKDIV. -/
  clkdivDefault : Byte
  deriving DecidableEq, Repr

/-- The ranges R6 gives the parameters. -/
def Params.legal (p : Params) : Bool :=
  decide (p.base % 4096 = 0) && decide (260 ≤ p.txFifoDepth) && decide (p.txFifoDepth ≤ 65536) &&
  decide (p.ibtDefaultMs ≠ 0) && decide (p.ifsDefault ≠ 0) && decide (p.ifsDefault ≠ 0xFF) &&
  decide (p.presNDefault ≠ 0) && decide (p.etuDefault ≠ 0) && decide (p.clkdivDefault ≠ 0)

/-- The reference values of R6, the ones the spec's worked examples use. -/
def Params.reference : Params where
  base := 0x40000000
  txFifoDepth := 1024
  ibtDefaultMs := 100
  ifsDefault := 32
  presNDefault := 4
  etuDefault := 372
  clkdivDefault := 1

/-- RXBUF_SIZE: the bytes of the receive buffer, fixed (R6). -/
def rxbufSize : Nat := 512

/-- The ID register's constant (R21). -/
def idWord : Word := 0x54314301

/-- FREE VALUE (log 5): what byte `k` of the fifo storage holds while nothing has written it since hardware reset
number `r`.  10_state.md R52: "unspecified (any value)".  No body: nothing can evaluate it. -/
opaque fifoUnwritten : (r : Nat) → (k : Nat) → Byte

/-- FREE VALUE (log 5): what byte `k` of the rxbuf storage holds while nothing has written it since hardware reset
number `r`.  10_state.md R52: "unspecified (any value)".  No body: nothing can evaluate it. -/
opaque rxbufUnwritten : (r : Nat) → (k : Nat) → Byte

end Sys2Proof.Config
end

