-- ==== Sys2Proof/Machine/State.lean ====
section
/-! DEFINITION. The state of T1C as plain data: every register field, storage byte and hidden item of 10_state.md,
grouped by register, and the few fields the model adds (params, pending, output, resets).  Registers that are functions
of other state (ID, STATUS, FIFO_LEVEL, FIFO_COMMIT, ENC_STATUS.LATCH, irq) are computed where they are read.
Reserved bits are not stored: they read 0 and ignore writes (R22, 93_implementation_defined.md U4). -/

namespace Sys2Proof.Machine

/-- The checksum kinds of CTRL.EDC_KIND and of the latches: 0 = LRC, 1 = CRC-16 (R23, R150). -/
inductive EdcKind where
  | lrc
  | crc
  deriving DecidableEq, Repr

/-- The transceiver ports of CTRL.PORT and TX_STATUS.PORT_LATCH: 0 NONE, 1 UART, 2 USB (R23, R44). -/
inductive Port where
  | none
  | uart
  | usb
  deriving DecidableEq, Repr

/-- The receive modes of CTRL.RX_MODE: 0 = RAW, 1 = T1 (R23). -/
inductive RxMode where
  | raw
  | t1
  deriving DecidableEq, Repr

/-- The coding conventions of CTRL.CONV: 0 = direct, 1 = inverse (R23, R241). -/
inductive Convention where
  | direct
  | inverse
  deriving DecidableEq, Repr

/-- The receive states of STATUS.RX_STATE (R38, R192). -/
inductive RxState where
  /-- 0: garbage is discarded until the line falls silent. -/
  | skip
  /-- 1: the next byte is taken as the NAD of a new frame. -/
  | addr
  /-- 2: the control byte. -/
  | pcb
  /-- 3: the length byte. -/
  | len
  /-- 4: the next payload byte. -/
  | inf
  /-- 5: the next checksum byte. -/
  | edc
  /-- 6: a complete frame is held for firmware. -/
  | done
  /-- 7: CTRL.RX_MODE is RAW. -/
  | raw
  deriving DecidableEq, Repr

/-- The outcomes in CMD_STATUS.CODE (R37, R300). -/
inductive CmdCode where
  | ok
  | eOpcode
  | eArg
  | eFull
  | eEmpty
  | eLen
  | eState
  | eBusy
  | ePort
  | eDisabled
  deriving DecidableEq, Repr

/-- The block kinds of RX_INFO.KIND: 0 I-block, 1 R-block, 2 S-block; 3 is never written (R45). -/
inductive BlockKind where
  | iBlock
  | rBlock
  | sBlock
  deriving DecidableEq, Repr

/-- The causes in RX_ERRCAUSE.CAUSE (R46). -/
inductive RxErrCause where
  | none
  | lenReserved
  | lenOverIfsd
  | ibtTimeout
  deriving DecidableEq, Repr

/-- The causes in USB_ERRCAUSE (R51). -/
inductive UsbErrCause where
  | none
  | short
  | length
  | slot
  | seq
  | type
  deriving DecidableEq, Repr

/-- The timer channels: 0 inter-byte, 1 ATR, 2 response (R220). -/
inductive Channel where
  | ibt
  | atr
  | rsp
  deriving DecidableEq, Repr

/-- CTRL (R23). -/
structure Ctrl where
  en : Bool
  edcKind : EdcKind
  port : Port
  rxMode : RxMode
  lbsEn : Bool
  conv : Convention
  deriving DecidableEq, Repr

/-- NAD (R25). -/
structure Nad where
  tx : Byte
  rx : Byte
  deriving DecidableEq, Repr

/-- IFS (R26). -/
structure Ifs where
  ifsc : Byte
  ifsd : Byte
  deriving DecidableEq, Repr

/-- PRES_CFG (R29). -/
structure PresCfg where
  n : Byte
  pol : Bool
  deriving DecidableEq, Repr

/-- PIN_CTRL (R30): the levels driven on the card's contacts. -/
structure PinCtrl where
  rst : Bool
  pwr : Bool
  clkEn : Bool
  deriving DecidableEq, Repr

/-- UART_CFG (R31). -/
structure UartCfg where
  etu : Half
  clkdiv : Byte
  deriving DecidableEq, Repr

/-- USB_CFG (R32). -/
structure UsbCfg where
  slot : Byte
  autoPps : Bool
  deriving DecidableEq, Repr

/-- USB_SEQ (R33). -/
structure UsbSeq where
  next : Byte
  last : Byte
  lastValid : Bool
  deriving DecidableEq, Repr

/-- EDC_ACC (R40): the transmit-side checksum accumulator and the kind latched for it. -/
structure EdcUnit where
  acc : Half
  latch : EdcKind
  deriving DecidableEq, Repr

/-- The transmit FIFO (R52, R130): the storage bytes written since the last hardware reset, and the three indexes. -/
structure Fifo where
  cells : List Host.Cell
  head : Half
  tail : Half
  blkStart : Half
  deriving DecidableEq, Repr

/-- The encoder: ENC_STATUS.OPEN and REMAIN (R43), and the hidden enc_len (R52). -/
structure Encoder where
  isOpen : Bool
  remain : Byte
  len : Byte
  deriving DecidableEq, Repr

/-- TX_STATUS (R44) and the hidden tx_cursor (R52). -/
structure Transmitter where
  busy : Bool
  portLatch : Port
  remain : Half
  cursor : Half
  deriving DecidableEq, Repr

/-- The receive path: STATUS.RX_STATE and RAW_PERR (R38), RX_COUNT (R47), and the hidden rx_perr, rx_acc, rx_latch
and rx_len (R52). -/
structure Receiver where
  state : RxState
  count : Half
  rawPerr : Bool
  perr : Bool
  acc : Half
  latch : EdcKind
  len : Byte
  deriving DecidableEq, Repr

/-- RX_INFO (R45): the decoding of the last completed frame. -/
structure RxInfo where
  pcb : Byte
  len : Byte
  kind : BlockKind
  edcOk : Bool
  pcbRsvd : Bool
  lenMismatch : Bool
  parityErr : Bool
  seq : Bool
  more : Bool
  code : BitVec 5
  valid : Bool
  deriving DecidableEq, Repr

/-- One timer channel (R220): the field TMR_REMc.REM, tmr_run[c] and tmr_first[c]. -/
structure Countdown where
  rem : Half
  run : Bool
  first : Bool
  deriving DecidableEq, Repr

/-- The three timer channels (R220). -/
structure Timers where
  ibt : Countdown
  atr : Countdown
  rsp : Countdown
  deriving DecidableEq, Repr

/-- CCID_RSP0 to CCID_RSP2 (R50): the header of the last bulk-in message of 10 or more bytes. -/
structure CcidRsp where
  rsp0 : Word
  rsp1 : Word
  rsp2 : Half
  deriving DecidableEq, Repr

/-- One step of an agent (R90), as data: what the environment and HOST do next.  `ok` is the environment's choice of
outcome (93_implementation_defined.md U11, U12). -/
inductive AgentStep where
  /-- HOST reads `size` bytes at a bus address (R82, R84). -/
  | busRead (addr : Nat) (size : Nat)
  /-- HOST writes `size` bytes at a bus address (R82, R86); a write of CMD is a command (R100). -/
  | busWrite (addr : Nat) (size : Nat) (value : Word)
  /-- LINE_RX: the card sends one character, its data levels `d8` and its parity level `p` (R240, R243). -/
  | lineRx (d8 : Byte) (p : Bool)
  /-- LINE_TAKE: the line takes the next byte of a UART send (R244). -/
  | lineTake (ok : Bool)
  /-- USB_ACCEPT: the port takes the pending bulk-out message (R263). -/
  | usbAccept (ok : Bool)
  /-- USB_IN: a bulk-in message arrives (R264). -/
  | usbIn (m : List Byte)
  /-- USB_INT: an interrupt-in message arrives (R267). -/
  | usbInt (m : List Byte)
  /-- PIN: the presence input changes to a level (R248). -/
  | pin (level : Bool)
  /-- The platform's hardware reset (R330). -/
  | hardwareReset
  deriving DecidableEq, Repr

/-- What a step gives the outside world. -/
inductive Output where
  /-- The data of a bus read of `size` bytes (R82, R84). -/
  | busData (size : Nat) (value : Word)
  /-- The character the line took (R244): data levels and parity level. -/
  | lineChar (d8 : Byte) (p : Bool)
  /-- The message the bulk-out pipe took (R263). -/
  | bulkOut (m : List Byte)
  deriving DecidableEq, Repr

/-- Why the machine stops with a fault. -/
inductive Fault where
  /-- Raised by a bus access that R85 lists (unmapped offset, wrong width, misaligned, 8 bytes or more).  It is "the only
  fault of the model" (R308).  Safe: the spec itself makes it the end of the HOST step that made the access. -/
  | busError
  deriving DecidableEq, Repr

/-- Why the model refuses a step. -/
inductive Refusal where
  /-- A command that has no meaning yet.  No arm raises it: every command is modelled.  Safe. -/
  | notModelled (mnemonic : String)
  /-- Raised by a scheduled LINE_TAKE while TX_STATUS does not show a UART send in progress: R244 does not enable the
  step, so no run of T1C takes it (log 10).  Safe. -/
  | lineTakeNotEnabled
  /-- Raised by a scheduled USB_ACCEPT while no bulk-out message is pending: R263 does not enable the step (log 10).
  Safe. -/
  | usbAcceptNotEnabled
  /-- Raised by a bus access outside T1C's 4 KiB window: it is no access of T1C (R80, log 11).  Safe. -/
  | outsideWindow
  deriving DecidableEq, Repr

/-- The state of T1C. -/
@[ext]
structure State where
  /-- The implementation parameters (R6, log 1). -/
  params : Config.Params
  ctrl : Ctrl
  nad : Nad
  ifs : Ifs
  /-- TMO_IBT.IBT_MS (R28). -/
  tmoIbt : Half
  presCfg : PresCfg
  pinCtrl : PinCtrl
  uartCfg : UartCfg
  usbCfg : UsbCfg
  usbSeq : UsbSeq
  /-- IRQ_EN bits [13:0] (R34). -/
  irqEn : BitVec 14
  /-- IRQ_PEND bits [13:0] (R39). -/
  irqPend : BitVec 14
  /-- CMD_RESULT.RESULT (R36). -/
  cmdResult : Half
  /-- CMD_STATUS.CODE (R37). -/
  cmdStatus : CmdCode
  edc : EdcUnit
  fifo : Fifo
  enc : Encoder
  tx : Transmitter
  /-- usb_out_pending (R52, R262): the bulk-out message not yet accepted. -/
  usbOut : Option (List Byte)
  rx : Receiver
  rxInfo : RxInfo
  rxErrCause : RxErrCause
  /-- The receive buffer's bytes written since the last hardware reset (R52). -/
  rxbuf : List Host.Cell
  tmr : Timers
  /-- STATUS.PRESENT (R38). -/
  present : Bool
  /-- STATUS.PRES_PIN (R38). -/
  presPin : Bool
  /-- deb_cnt (R52, R249). -/
  debCnt : Byte
  /-- pin_level (R52, R248): the environment's presence level. -/
  pinLevel : Bool
  /-- LBS_COUNT.COUNT (R49). -/
  lbsCount : Half
  ccidRsp : CcidRsp
  usbErrCause : UsbErrCause
  /-- The model's: how many hardware resets there were, the argument of the free storage bytes (log 6). -/
  resets : Nat
  /-- The model's: the agents' steps still to come (log 2). -/
  pending : List AgentStep
  /-- The model's: what the step just taken gave the outside (log 9). -/
  output : Option Output
  deriving DecidableEq, Repr

/-- The field values of RX_INFO = 0 (R45). -/
def RxInfo.zero : RxInfo :=
  ⟨0, 0, .iBlock, false, false, false, false, false, false, 0, false⟩

/-- A stopped channel (R221). -/
def Countdown.stopped : Countdown := ⟨0, false, false⟩

/-- The state right after a hardware reset of an implementation with parameters `p` (R331), with the presence input at
`pin`.  The storage bytes are unspecified: nothing is written (log 5). -/
def State.resetWith (p : Config.Params) (pin : Bool) : State where
  params := p
  ctrl := ⟨false, .lrc, .none, .raw, false, .direct⟩
  nad := ⟨0, 0⟩
  ifs := ⟨p.ifsDefault, p.ifsDefault⟩
  tmoIbt := p.ibtDefaultMs
  presCfg := ⟨p.presNDefault, true⟩
  pinCtrl := ⟨false, false, false⟩
  uartCfg := ⟨p.etuDefault, p.clkdivDefault⟩
  usbCfg := ⟨0, false⟩
  usbSeq := ⟨0, 0, false⟩
  irqEn := 0
  irqPend := 0
  cmdResult := 0
  cmdStatus := .ok
  edc := ⟨0, .lrc⟩
  fifo := ⟨[], 0, 0, 0⟩
  enc := ⟨false, 0, 0⟩
  tx := ⟨false, .none, 0, 0⟩
  usbOut := none
  rx := ⟨.raw, 0, false, false, 0, .lrc, 0⟩
  rxInfo := RxInfo.zero
  rxErrCause := .none
  rxbuf := []
  tmr := ⟨.stopped, .stopped, .stopped⟩
  present := false
  presPin := false
  debCnt := 0
  pinLevel := pin
  lbsCount := 0
  ccidRsp := ⟨0, 0, 0⟩
  usbErrCause := .none
  resets := 0
  pending := []
  output := none

/-- The machine right after reset (R331) at the reference parameters (R6).  pin_level is the environment's, any value
(R331): DESIGN CHOICE low (log 7). -/
def State.reset : State := State.resetWith Config.Params.reference false

end Sys2Proof.Machine
end

