-- ==== Sys2Proof/Machine/Flags.lean ====
section
/-! DEFINITION. Every flag T1C computes: the event bits of IRQ_PEND, the parity of a line character, the
classification flags of a received frame, and the check value of the error-detection codes. -/

namespace Sys2Proof.Machine

/-- The events, one per bit of IRQ_PEND (R39, R301). -/
inductive Event where
  | rxDone
  | rxErr
  | rxOvf
  | rawIdle
  | txDone
  | txFail
  | ibtExp
  | atrExp
  | rspExp
  | cardIn
  | cardOut
  | cmdErr
  | usbResp
  | usbErr
  deriving DecidableEq, Repr

/-- The bit of IRQ_PEND an event sets (R39, R301). -/
def Event.bit : Event → Nat
  | .rxDone => 0
  | .rxErr => 1
  | .rxOvf => 2
  | .rawIdle => 3
  | .txDone => 4
  | .txFail => 5
  | .ibtExp => 6
  | .atrExp => 7
  | .rspExp => 8
  | .cardIn => 9
  | .cardOut => 10
  | .cmdErr => 11
  | .usbResp => 12
  | .usbErr => 13

/-- The one-bit mask of an event in IRQ_PEND. -/
def Event.mask (e : Event) : BitVec 14 := 1#14 <<< e.bit

/-- R8: popcount(v), the number of 1 bits. -/
def popcount (b : Byte) : Nat := ((List.range 8).filter b.getLsbD).length

/-- R8: bitrev8(v), bit i moves to bit 7-i. -/
def bitrev8 (b : Byte) : Byte :=
  BitVec.ofBool (b.getLsbD 0) ++ BitVec.ofBool (b.getLsbD 1) ++ BitVec.ofBool (b.getLsbD 2) ++
  BitVec.ofBool (b.getLsbD 3) ++ BitVec.ofBool (b.getLsbD 4) ++ BitVec.ofBool (b.getLsbD 5) ++
  BitVec.ofBool (b.getLsbD 6) ++ BitVec.ofBool (b.getLsbD 7)

/-- The logical parity bit of a byte under even parity: popcount(b) mod 2 (R241). -/
def parityBit (b : Byte) : Bool := decide (popcount b % 2 = 1)

/-- R241: line_encode(b, conv), the character (d8, p) of a byte. -/
def lineEncode (b : Byte) : Convention → Byte × Bool
  | .direct => (b, parityBit b)
  | .inverse => (~~~(bitrev8 b), !parityBit b)

/-- R241: line_decode(d8, p, conv), the byte of a character and its parity-error mark. -/
def lineDecode (d8 : Byte) (p : Bool) : Convention → Byte × Bool
  | .direct => (d8, parityBit d8 != p)
  | .inverse => (bitrev8 (~~~d8), parityBit (bitrev8 (~~~d8)) != !p)

/-- The flags `classify` gives a control byte (R201). -/
structure PcbClass where
  kind : BlockKind
  seq : Bool
  more : Bool
  code : BitVec 5
  rsvd : Bool
  deriving DecidableEq, Repr

/-- R201: classifying a PCB. -/
def classify (p : Byte) : PcbClass :=
  if p.getLsbD 7 = false then
    ⟨.iBlock, p.getLsbD 6, p.getLsbD 5, 0, decide (p.extractLsb' 0 5 ≠ 0)⟩
  else if p.getLsbD 6 = false then
    ⟨.rBlock, p.getLsbD 4, false, 0#1 ++ p.extractLsb' 0 4, p.getLsbD 5 || decide (p.extractLsb' 0 4 > 2#4)⟩
  else
    ⟨.sBlock, false, p.getLsbD 5, p.extractLsb' 0 5,
      decide (p.extractLsb' 0 5 > 4#5) || (decide (p.extractLsb' 0 5 = 4#5) && !p.getLsbD 5)⟩

/-- R202: the length check of a completed frame. -/
def lenMismatch (p len : Byte) : Bool :=
  if p.getLsbD 7 = false then false
  else if p.getLsbD 6 = false then decide (len ≠ 0)
  else
    let s := p.extractLsb' 0 5
    if s = 1 ∨ s = 3 then decide (len ≠ 1)
    else if s = 0 ∨ s = 2 ∨ s = 4 then decide (len ≠ 0)
    else false

/-- R150: the initial value of a checksum kind. -/
def edcInit : EdcKind → Half
  | .lrc => 0x0000
  | .crc => 0xFFFF

/-- R150: the EDC bytes of a checksum kind on the wire. -/
def edcLen : EdcKind → Nat
  | .lrc => 1
  | .crc => 2

/-- One shift of R152's definition of CRCTAB. -/
def crcShift (c : Half) : Half := if c.getLsbD 0 then (c >>> 1) ^^^ 0x8408 else c >>> 1

/-- `n` shifts of R152's definition. -/
def crcShifts : Nat → Half → Half
  | 0, c => c
  | n + 1, c => crcShifts n (crcShift c)

/-- R152: the table CRCTAB, by its definition. -/
def crcTab (i : Byte) : Half := crcShifts 8 (i.setWidth 16)

/-- R151: fold one byte into a checksum accumulator. -/
def edcFeed (k : EdcKind) (acc : Half) (b : Byte) : Half :=
  match k with
  | .lrc => acc ^^^ b.setWidth 16
  | .crc => (acc >>> 8) ^^^ crcTab ((acc ^^^ b.setWidth 16).setWidth 8)

/-- Fold a sequence of bytes into a checksum accumulator, first byte first (R157). -/
def edcFeedAll (k : EdcKind) (acc : Half) (bs : List Byte) : Half := bs.foldl (edcFeed k) acc

/-- R153: the EDC bytes of an accumulator value, in wire order. -/
def edcBytes (k : EdcKind) (acc : Half) : List Byte :=
  match k with
  | .lrc => [acc.extractLsb' 0 8]
  | .crc => [acc.extractLsb' 0 8, acc.extractLsb' 8 8]

end Sys2Proof.Machine
end

