-- ==== Sys2Proof/Machine/Memory.lean ====
section
/-! DEFINITION. The byte stores (fifo and rxbuf storage) as lists of (index, byte) cells in one canonical form: indexes
strictly rising.  An index that is not listed holds no value of its own: nothing has written it since the last hardware
reset, and what a read of it gives is a free value, drawn where the read is made (Ops.lean, log 5). -/

namespace Sys2Proof.Machine

/-- The byte the store holds at index `k`, or none where nothing has written it. -/
def Memory.find : List Host.Cell → Nat → Option Byte
  | [], _ => none
  | (j, c) :: rest, k => if j = k then some c else Memory.find rest k

/-- Write byte `b` at index `k`, keeping the indexes strictly rising. -/
def Memory.write : List Host.Cell → Nat → Byte → List Host.Cell
  | [], k, b => [(k, b)]
  | (j, c) :: rest, k, b =>
    if k < j then (k, b) :: (j, c) :: rest
    else if k = j then (k, b) :: rest
    else (j, c) :: Memory.write rest k b

/-- Every listed index is above `low` and the indexes rise strictly. -/
def Memory.risingFrom : Nat → List Host.Cell → Bool
  | _, [] => true
  | low, (j, _) :: rest => decide (low ≤ j) && Memory.risingFrom (j + 1) rest

/-- The canonical form: the listed indexes rise strictly.  No entry equals what an unlisted index holds, for an unlisted
index holds no value. -/
def Memory.wf (m : List Host.Cell) : Bool := Memory.risingFrom 0 m

/-- Every listed index is an index of a storage of `size` bytes (R9: `0 <= i < size`). -/
def Memory.within (size : Nat) (m : List Host.Cell) : Bool := m.all fun c => decide (c.1 < size)

end Sys2Proof.Machine
end

