-- ==== Sys2Proof/Machine/Operands.lean ====
section
/-! DEFINITION. What the command operands stand for: control bytes, timer channels, checksum kinds and ports by their
numbers, and the headers of the CCID messages. -/

namespace Sys2Proof.Machine

/-- One bit as a byte. -/
def bitByte (b : Bool) : Byte := (BitVec.ofBool b).setWidth 8

/-- R109: the control byte of an I-block, (NS << 6) | (M << 5). -/
def pcbI (m ns : Bool) : Byte := (bitByte ns <<< 6) ||| (bitByte m <<< 5)

/-- R109: the control byte of an R-block, 0x80 | (NR << 4) | CODE. -/
def pcbR (code : BitVec 4) (nr : Bool) : Byte := 0x80 ||| (bitByte nr <<< 4) ||| code.setWidth 8

/-- R109: the control byte of an S-block, 0xC0 | (RESP << 5) | SCMD. -/
def pcbS (scmd : BitVec 5) (resp : Bool) : Byte := 0xC0 ||| (bitByte resp <<< 5) ||| scmd.setWidth 8

/-- The channel of a TID: 0 inter-byte, 1 ATR, 2 response (R220); 3 is out of range (R102). -/
def channelOf (tid : BitVec 2) : Option Channel :=
  if tid = 0 then some .ibt
  else if tid = 1 then some .atr
  else if tid = 2 then some .rsp
  else none

/-- R23: CTRL.EDC_KIND of a bit. -/
def EdcKind.ofBit (b : Bool) : EdcKind := if b then .crc else .lrc

/-- R23: the bit of a checksum kind. -/
def EdcKind.toBit : EdcKind → Bool
  | .lrc => false
  | .crc => true

/-- R23: the number of a port. -/
def Port.code : Port → BitVec 2
  | .none => 0
  | .uart => 1
  | .usb => 2

/-- R23: the port of a number; 3 is out of range. -/
def Port.ofCode (c : BitVec 2) : Option Port :=
  if c = 0 then some .none
  else if c = 1 then some .uart
  else if c = 2 then some .usb
  else Option.none

/-- R23: CTRL.RX_MODE of a bit. -/
def RxMode.ofBit (b : Bool) : RxMode := if b then .t1 else .raw

/-- R23: the bit of a receive mode. -/
def RxMode.toBit : RxMode → Bool
  | .raw => false
  | .t1 => true

/-- R23: CTRL.CONV of a bit. -/
def Convention.ofBit (b : Bool) : Convention := if b then .inverse else .direct

/-- R23: the bit of a convention. -/
def Convention.toBit : Convention → Bool
  | .direct => false
  | .inverse => true

/-- R38, R192: the code of a receive state. -/
def RxState.code : RxState → BitVec 3
  | .skip => 0
  | .addr => 1
  | .pcb => 2
  | .len => 3
  | .inf => 4
  | .edc => 5
  | .done => 6
  | .raw => 7

/-- R300: the code of a command outcome. -/
def CmdCode.code : CmdCode → Byte
  | .ok => 0x00
  | .eOpcode => 0x01
  | .eArg => 0x02
  | .eFull => 0x03
  | .eEmpty => 0x04
  | .eLen => 0x05
  | .eState => 0x06
  | .eBusy => 0x07
  | .ePort => 0x08
  | .eDisabled => 0x09

/-- R45: the number of a block kind. -/
def BlockKind.code : BlockKind → BitVec 2
  | .iBlock => 0
  | .rBlock => 1
  | .sBlock => 2

/-- R46: the number of a frame-abort cause. -/
def RxErrCause.code : RxErrCause → Byte
  | .none => 0
  | .lenReserved => 1
  | .lenOverIfsd => 2
  | .ibtTimeout => 3

/-- R51: the number of a USB_ERR cause. -/
def UsbErrCause.code : UsbErrCause → Byte
  | .none => 0
  | .short => 1
  | .length => 2
  | .slot => 3
  | .seq => 4
  | .type => 5

/-- The bulk-out messages T1C builds (R261), with the operand their byte 7 carries. -/
inductive BulkOutKind where
  | powerOn (psel : BitVec 2)
  | powerOff
  | getParams
  | setParams (proto : Bool)
  | xfrBlock
  deriving DecidableEq, Repr

/-- R261: bMessageType. -/
def BulkOutKind.msgType : BulkOutKind → Byte
  | .powerOn _ => 0x62
  | .powerOff => 0x63
  | .getParams => 0x6C
  | .setParams _ => 0x61
  | .xfrBlock => 0x6F

/-- R261: byte 7 of the header. -/
def BulkOutKind.byte7 : BulkOutKind → Byte
  | .powerOn psel => psel.setWidth 8
  | .powerOff => 0x00
  | .getParams => 0x00
  | .setParams proto => bitByte proto
  | .xfrBlock => 0x00

/-- R261: the header [type, n[7:0], n[15:8], 0x00, 0x00, s, q, byte7, byte8, byte9]. -/
def bulkOutHeader (kind : BulkOutKind) (n : Half) (slot seq : Byte) : List Byte :=
  [kind.msgType, n.extractLsb' 0 8, n.extractLsb' 8 8, 0x00, 0x00, slot, seq, kind.byte7, 0x00, 0x00]

/-- Byte `k` of a message. -/
def msgByte (m : List Byte) (k : Nat) : Byte := m.getD k 0

/-- R266: dwLength of a message, bytes 1 to 4, low byte first. -/
def dwLength (m : List Byte) : Word := msgByte m 4 ++ msgByte m 3 ++ msgByte m 2 ++ msgByte m 1

end Sys2Proof.Machine
end

