-- ==== Sys2Proof/Machine/Ops.lean ====
section
/-! DEFINITION. The named operations every command and agent step is written with: storage bytes, the FIFO primitives,
the transmit-side accumulator, the timer primitives, raising an event, and the outcome of a command. -/

namespace Sys2Proof.Machine

/-- What a command or a step answers. -/
abbrev Result := Host.Outcome State Fault Refusal

/-! ### Storage bytes -/

/-- `fifo[k]` (R9).  A byte nothing has written since the hardware reset is the free value (R52, log 5). -/
def State.fifoByte (s : State) (k : Nat) : Byte :=
  (Memory.find s.fifo.cells k).getD (Config.fifoUnwritten s.resets k)

/-- `rxbuf[k]` (R9).  A byte nothing has written since the hardware reset is the free value (R52, log 5). -/
def State.rxByte (s : State) (k : Nat) : Byte :=
  (Memory.find s.rxbuf k).getD (Config.rxbufUnwritten s.resets k)

/-- `rxbuf[k] <- b` (R9). -/
def State.writeRx (s : State) (k : Nat) (b : Byte) : State := { s with rxbuf := Memory.write s.rxbuf k b }

/-! ### The transmit FIFO (40_fifo.md R130, R131) -/

/-- TXFIFO_DEPTH. -/
def State.depth (s : State) : Nat := s.params.txFifoDepth

/-- (a - b) mod D for indexes of the FIFO (R130). -/
def indexDistance (d : Nat) (a b : Half) : Nat := (a.toNat + d - b.toNat) % d

/-- The index `k` places after index `a`: (a + k) mod D (R131). -/
def indexAfter (d : Nat) (a : Half) (k : Nat) : Half := BitVec.ofNat 16 ((a.toNat + k) % d)

/-- USED = (head - tail) mod D (R130). -/
def State.used (s : State) : Nat := indexDistance s.depth s.fifo.head s.fifo.tail

/-- FREE = D - 1 - USED (R130). -/
def State.free (s : State) : Nat := s.depth - 1 - s.used

/-- COMMITTED = if ENC_STATUS.OPEN = 1 then (blk_start - tail) mod D else USED (R130). -/
def State.committed (s : State) : Nat :=
  if s.enc.isOpen then indexDistance s.depth s.fifo.blkStart s.fifo.tail else s.used

/-- at(k) = fifo[(tail + k) mod D] (R131). -/
def State.at (s : State) (k : Nat) : Byte := s.fifoByte ((s.fifo.tail.toNat + k) % s.depth)

/-- The first `n` bytes from the tail, oldest first. -/
def State.oldest (s : State) (n : Nat) : List Byte := (List.range n).map s.at

/-- push(b): fifo[head] <- b ; head <- (head + 1) mod D (R131). -/
def State.push (s : State) (b : Byte) : State :=
  { s with fifo := { s.fifo with
      cells := Memory.write s.fifo.cells s.fifo.head.toNat b
      head := indexAfter s.depth s.fifo.head 1 } }

/-- push every byte of a list, in order. -/
def State.pushAll (s : State) (bs : List Byte) : State := bs.foldl State.push s

/-- tail <- (tail + n) mod D (R133, R135). -/
def State.dropOldest (s : State) (n : Nat) : State :=
  { s with fifo := { s.fifo with tail := indexAfter s.depth s.fifo.tail n } }

/-! ### The transmit-side accumulator (41_edc.md R150, R151) -/

/-- EDC_ACC.LATCH <- CTRL.EDC_KIND ; EDC_ACC.ACC <- edc_init(EDC_ACC.LATCH) (R154, R170). -/
def State.startEdc (s : State) : State := { s with edc := ⟨edcInit s.ctrl.edcKind, s.ctrl.edcKind⟩ }

/-- feed(b) (R151). -/
def State.feed (s : State) (b : Byte) : State :=
  { s with edc := { s.edc with acc := edcFeed s.edc.latch s.edc.acc b } }

/-! ### Timers (44_timers.md R220, R221) -/

/-- The channel `c` of the three. -/
def Timers.get (t : Timers) : Channel → Countdown
  | .ibt => t.ibt
  | .atr => t.atr
  | .rsp => t.rsp

/-- The three channels with channel `c` replaced. -/
def Timers.set (t : Timers) (c : Channel) (v : Countdown) : Timers :=
  match c with
  | .ibt => { t with ibt := v }
  | .atr => { t with atr := v }
  | .rsp => { t with rsp := v }

/-- stop(c): REM[c] <- 0 ; tmr_run[c] <- 0 ; tmr_first[c] <- 0 (R221). -/
def State.stopTimer (s : State) (c : Channel) : State := { s with tmr := s.tmr.set c .stopped }

/-- start(c, v): a start at 0 stops the channel (R220). -/
def State.startTimer (s : State) (c : Channel) (v : Half) : State :=
  if v = 0 then s.stopTimer c else { s with tmr := s.tmr.set c ⟨v, true, true⟩ }

/-- start(0, TMO_IBT.IBT_MS): the receive path restarts the inter-byte timer (R227). -/
def State.restartIbt (s : State) : State := s.startTimer .ibt s.tmoIbt

/-! ### Events and the interrupt output (60_exceptions.md R301, R302) -/

/-- raise E: sets bit E of IRQ_PEND (R301). -/
def State.raise (s : State) (e : Event) : State := { s with irqPend := s.irqPend ||| e.mask }

/-- irq = ((IRQ_PEND & IRQ_EN) & 0x3FFF) != 0 (R302). -/
def State.irq (s : State) : Bool := decide (s.irqPend &&& s.irqEn ≠ 0)

/-! ### The outcome of a command (60_exceptions.md R303, R304)

T1C takes no trap (R305): the failing command's outcome and the raised event are all there is of taking an exception,
and the acknowledging write of IRQ_PEND (Registers.lean) is all there is of returning from one (R306). -/

/-- CMD_RESULT <- v. -/
def State.setResult (s : State) (v : Half) : State := { s with cmdResult := v }

/-- fail(code): CMD_STATUS.CODE <- code ; CMD_RESULT <- 0 ; raise CMD_ERR ; nothing else changes (R304). -/
def State.fail (s : State) (code : CmdCode) : State :=
  ({ s with cmdStatus := code, cmdResult := 0 } : State).raise .cmdErr

/-- pass: CMD_STATUS.CODE <- 0x00 after the rule's effect (R304). -/
def State.pass (s : State) : State := { s with cmdStatus := .ok }

/-- The code of the first check that fails, each check written as the condition under which it fails (R303). -/
def firstFailing : List (Bool × CmdCode) → Option CmdCode
  | [] => none
  | (bad, code) :: rest => if bad then some code else firstFailing rest

/-- A command: its checks in order, then its effect; every check runs before any of the effect (R304). -/
def command (s : State) (checks : List (Bool × CmdCode)) (effect : State) : Result :=
  match firstFailing checks with
  | some code => .next (s.fail code)
  | none => .next effect.pass

/-- A command that R101 step 2 refuses while CTRL.EN = 0, before its own checks. -/
def commandEnabled (s : State) (checks : List (Bool × CmdCode)) (effect : State) : Result :=
  command s ((!s.ctrl.en, .eDisabled) :: checks) effect

end Sys2Proof.Machine
end

