-- ==== Sys2Proof/Machine/Transmit.lean ====
section
/-! DEFINITION. The transmit commands of 45_uart_tx.md and the building of CCID messages of 46_ccid.md. -/

namespace Sys2Proof.Machine

/-- R262: emit_out(msg), the hand-over to the bulk-out pipe. -/
def emitOut (msg : List Byte) (s : State) : State :=
  { s with
    usbOut := some msg
    tx := { s.tx with busy := true, portLatch := .usb, remain := BitVec.ofNat 16 (msg.length - 10) } }

/-- R261: the message of `kind` with the `n` oldest FIFO bytes as its payload. -/
def bulkOutMessage (kind : BulkOutKind) (n : Half) (s : State) : List Byte :=
  bulkOutHeader kind n s.usbCfg.slot s.usbSeq.next ++ s.oldest n.toNat

/-- R265: usb_send(kind, n). -/
def usbSend (kind : BulkOutKind) (n : Half) (s : State) : State :=
  emitOut (bulkOutMessage kind n s)
    { s with usbSeq := ⟨s.usbSeq.next + 1, s.usbSeq.next, true⟩ }

/-- R245: the start of a UART send of `n` bytes. -/
def uartSend (n : Half) (s : State) : State := { s with tx := ⟨true, .uart, n, 0⟩ }

/-- R245: the effect of TX_SEND on the selected port. -/
def startSend (n : Half) (s : State) : State :=
  if s.ctrl.port = .uart then uartSend n s else usbSend .xfrBlock n s

/-- R245: TX_SEND. -/
def execTxSend (n : Half) (s : State) : Result :=
  commandEnabled s
    [(decide (s.ctrl.port = .none), .ePort), (s.tx.busy, .eBusy), (decide (n = 0), .eArg),
      (decide (n.toNat > s.committed), .eEmpty)]
    ((startSend n s).setResult 0)

/-- R247: a pending bulk-out message is withdrawn when the send in progress is the USB port's. -/
def withdrawMessage (s : State) : State := if s.tx.portLatch = .usb then { s with usbOut := none } else s

/-- R247: TX_STOP. -/
def execTxStop (s : State) : Result :=
  commandEnabled s
    [(!s.tx.busy, .eState)]
    (({ withdrawMessage s with tx := { s.tx with busy := false, remain := 0 } } : State).setResult 0)

end Sys2Proof.Machine
end

