-- ==== Sys2Proof/Machine/Ccid.lean ====
section
/-! DEFINITION. The CCID commands of 46_ccid.md. -/

namespace Sys2Proof.Machine

/-- R268: CCID_POWER_ON. -/
def execCcidPowerOn (psel : BitVec 2) (s : State) : Result :=
  commandEnabled s
    [(decide (s.ctrl.port ≠ .usb), .ePort), (s.tx.busy, .eBusy)]
    ((usbSend (.powerOn psel) 0 s).setResult 0)

/-- R269: CCID_POWER_OFF. -/
def execCcidPowerOff (s : State) : Result :=
  commandEnabled s
    [(decide (s.ctrl.port ≠ .usb), .ePort), (s.tx.busy, .eBusy)]
    ((usbSend .powerOff 0 s).setResult 0)

/-- R270: CCID_GET_PARAMS. -/
def execCcidGetParams (s : State) : Result :=
  commandEnabled s
    [(decide (s.ctrl.port ≠ .usb), .ePort), (s.tx.busy, .eBusy)]
    ((usbSend .getParams 0 s).setResult 0)

/-- R271: CCID_SET_PARAMS. -/
def execCcidSetParams (proto : Bool) (n : Half) (s : State) : Result :=
  commandEnabled s
    [(decide (s.ctrl.port ≠ .usb), .ePort), (s.tx.busy, .eBusy), (decide (n.toNat > s.committed), .eEmpty)]
    ((usbSend (.setParams proto) n s).setResult 0)

end Sys2Proof.Machine
end

