-- ==== Sys2Proof/Machine/Edc.lean ====
section
/-! DEFINITION. The error-detection code commands of 41_edc.md. -/

namespace Sys2Proof.Machine

/-- R154: EDC_INIT. -/
def execEdcInit (s : State) : Result :=
  commandEnabled s [(s.enc.isOpen, .eState)] (s.startEdc.setResult s.startEdc.edc.acc)

/-- R155: EDC_FEED. -/
def execEdcFeed (byte : Byte) (s : State) : Result :=
  commandEnabled s [(s.enc.isOpen, .eState)] ((s.feed byte).setResult (s.feed byte).edc.acc)

/-- R156: EDC_EMIT. -/
def execEdcEmit (s : State) : Result :=
  commandEnabled s
    [(s.enc.isOpen, .eState), (decide (s.free < edcLen s.edc.latch), .eFull)]
    ((s.pushAll (edcBytes s.edc.latch s.edc.acc)).setResult (BitVec.ofNat 16 (edcLen s.edc.latch)))

end Sys2Proof.Machine
end

