-- ==== Sys2Proof/Machine/Encoder.lean ====
section
/-! DEFINITION. The block encoder commands of 42_encoder.md. -/

namespace Sys2Proof.Machine

/-- push(b) ; feed(b) (R170, R175). -/
def pushFeed (s : State) (b : Byte) : State := (s.push b).feed b

/-- R171: close_block(). -/
def closeBlock (s : State) : State :=
  ({ s.pushAll (edcBytes s.edc.latch s.edc.acc) with enc := { s.enc with isOpen := false, remain := 0 } } :
    State).setResult (BitVec.ofNat 16 (3 + s.enc.len.toNat + edcLen s.edc.latch))

/-- R170: open_block(pcb, len). -/
def openBlock (pcb len : Byte) (s : State) : State :=
  let s := s.startEdc
  let s : State := { s with
    fifo := { s.fifo with blkStart := s.fifo.head }
    enc := { s.enc with len := len } }
  let s := pushFeed (pushFeed (pushFeed s s.nad.tx) pcb) len
  if len = 0 then closeBlock s
  else ({ s with enc := { s.enc with isOpen := true, remain := len } } : State).setResult 0

/-- The space a block of LEN `len` needs: 3 + LEN + edc_len(CTRL.EDC_KIND) (R172 to R174). -/
def State.blockSize (s : State) (len : Byte) : Nat := 3 + len.toNat + edcLen s.ctrl.edcKind

/-- R172: ENC_I. -/
def execEncI (m ns : Bool) (len : Byte) (s : State) : Result :=
  commandEnabled s
    [(s.enc.isOpen, .eState), (decide (len = 0xFF), .eLen), (decide (len > s.ifs.ifsc), .eLen),
      (decide (s.free < s.blockSize len), .eFull)]
    (openBlock (pcbI m ns) len s)

/-- R173: ENC_R. -/
def execEncR (code : BitVec 4) (nr : Bool) (s : State) : Result :=
  commandEnabled s
    [(s.enc.isOpen, .eState), (decide (s.free < s.blockSize 0), .eFull)]
    (openBlock (pcbR code nr) 0 s)

/-- R174: ENC_S. -/
def execEncS (scmd : BitVec 5) (resp : Bool) (len : Byte) (s : State) : Result :=
  commandEnabled s
    [(s.enc.isOpen, .eState), (decide (len > 1), .eLen), (decide (s.free < s.blockSize len), .eFull)]
    (openBlock (pcbS scmd resp) len s)

/-- R175: the effect of ENC_DATA. -/
def encodeData (byte : Byte) (s : State) : State :=
  let s := pushFeed s byte
  let s : State := { s with enc := { s.enc with remain := s.enc.remain - 1 } }
  if s.enc.remain = 0 then closeBlock s else s.setResult 0

/-- R175: ENC_DATA. -/
def execEncData (byte : Byte) (s : State) : Result :=
  commandEnabled s [(!s.enc.isOpen, .eState)] (encodeData byte s)

/-- R176: ENC_ABORT. -/
def execEncAbort (s : State) : Result :=
  commandEnabled s
    [(!s.enc.isOpen, .eState)]
    (({ s with
        fifo := { s.fifo with head := s.fifo.blkStart }
        enc := { s.enc with isOpen := false, remain := 0 } } : State).setResult 0)

end Sys2Proof.Machine
end

