-- ==== Sys2Proof/Machine/Fifo.lean ====
section
/-! DEFINITION. The transmit FIFO commands of 40_fifo.md. -/

namespace Sys2Proof.Machine

/-- R132: FIFO_PUSH. -/
def execFifoPush (byte : Byte) (s : State) : Result :=
  commandEnabled s
    [(s.enc.isOpen, .eState), (decide (s.free = 0), .eFull)]
    ((s.push byte).setResult 0)

/-- R133: FIFO_POP. -/
def execFifoPop (s : State) : Result :=
  commandEnabled s
    [(s.tx.busy, .eBusy), (decide (s.committed = 0), .eEmpty)]
    ((s.dropOldest 1).setResult ((s.fifoByte s.fifo.tail.toNat).setWidth 16))

/-- R134: FIFO_PEEK. -/
def execFifoPeek (offset : Half) (s : State) : Result :=
  commandEnabled s
    [(decide (offset.toNat ≥ s.used), .eEmpty)]
    (s.setResult ((s.at offset.toNat).setWidth 16))

/-- R135: FIFO_REMOVE. -/
def execFifoRemove (n : Half) (s : State) : Result :=
  commandEnabled s
    [(s.tx.busy, .eBusy), (decide (n.toNat > s.committed), .eEmpty)]
    ((s.dropOldest n.toNat).setResult 0)

/-- R136: FIFO_FLUSH. -/
def execFifoFlush (s : State) : Result :=
  commandEnabled s
    [(s.enc.isOpen, .eState), (s.tx.busy, .eBusy)]
    (({ s with fifo := { s.fifo with head := 0, tail := 0, blkStart := 0 } } : State).setResult 0)

end Sys2Proof.Machine
end

