-- ==== Sys2Proof/Machine/Parser.lean ====
section
/-! DEFINITION. The received-byte path of 43_decoder.md: RAW capture, the T1 block parser, the restart of the receive
path and the expiry of the inter-byte timer. -/

namespace Sys2Proof.Machine

/-- Where a received byte comes from (R190). -/
inductive Source where
  | uart
  | usb
  | sw
  deriving DecidableEq, Repr

/-- RX_STATE <- x. -/
def State.setRxState (s : State) (x : RxState) : State := { s with rx := { s.rx with state := x } }

/-- RX_COUNT <- n. -/
def State.setRxCount (s : State) (n : Half) : State := { s with rx := { s.rx with count := n } }

/-- rxbuf[RX_COUNT] <- b ; RX_COUNT <- RX_COUNT + 1 (R191, R197, R198). -/
def State.storeRx (s : State) (b : Byte) : State :=
  (s.writeRx s.rx.count.toNat b).setRxCount (s.rx.count + 1)

/-- rx_perr <- rx_perr | perr. -/
def State.notePerr (s : State) (perr : Bool) : State := { s with rx := { s.rx with perr := s.rx.perr || perr } }

/-- rx_acc <- edc_feed(rx_latch, rx_acc, b). -/
def State.feedRx (s : State) (b : Byte) : State :=
  { s with rx := { s.rx with acc := edcFeed s.rx.latch s.rx.acc b } }

/-- R191: RAW capture. -/
def rawCapture (b : Byte) (perr : Bool) (s : State) : State :=
  let stored :=
    if s.rx.count.toNat < Config.rxbufSize then
      let t := s.storeRx b
      if perr then { t with rx := { t.rx with rawPerr := true } } else t
    else s.raise .rxOvf
  stored.restartIbt

/-- R199: aborting a frame for a bad length. -/
def abortFrame (c : RxErrCause) (s : State) : State :=
  (((({ s with rxErrCause := c } : State).raise .rxErr).setRxCount 0).setRxState .skip).restartIbt

/-- R200: the EDC bytes of the frame in `rxbuf` equal the computed ones. -/
def edcMatches (s : State) : Bool :=
  decide ((List.range (edcLen s.rx.latch)).map (fun j => s.rxByte (3 + s.rx.len.toNat + j))
    = edcBytes s.rx.latch s.rx.acc)

/-- R200: the RX_INFO of the frame in `rxbuf`. -/
def frameInfo (s : State) : RxInfo :=
  let p := s.rxByte 1
  let c := classify p
  { pcb := p, len := s.rx.len, kind := c.kind, edcOk := edcMatches s, pcbRsvd := c.rsvd,
    lenMismatch := lenMismatch p s.rx.len, parityErr := s.rx.perr, seq := c.seq, more := c.more,
    code := c.code, valid := true }

/-- R200: completing a frame. -/
def completeFrame (s : State) : State :=
  ((({ s with rxInfo := frameInfo s } : State).setRxState .done).stopTimer .ibt).raise .rxDone

/-- R193: state ADDR. -/
def parseAddr (b : Byte) (perr : Bool) (s : State) : State :=
  let t :=
    if b = s.nad.rx then
      ({ s with rx := { s.rx with
          latch := s.ctrl.edcKind
          acc := edcFeed s.ctrl.edcKind (edcInit s.ctrl.edcKind) b
          count := 1, perr := perr, state := .pcb } } : State).writeRx 0 b
    else s.setRxState .skip
  t.restartIbt

/-- R195: state PCB. -/
def parsePcb (b : Byte) (perr : Bool) (s : State) : State :=
  ((((((s.writeRx 1 b).setRxCount 2).feedRx b).notePerr perr).setRxState .len)).restartIbt

/-- R196: state LEN. -/
def parseLen (b : Byte) (perr : Bool) (s : State) : State :=
  let t := (((s.writeRx 2 b).setRxCount 3).feedRx b).notePerr perr
  let t := ({ t with rx := { t.rx with len := b } } : State)
  if b = 0xFF then abortFrame .lenReserved t
  else if b > s.ifs.ifsd then abortFrame .lenOverIfsd t
  else (t.setRxState (if b = 0 then .edc else .inf)).restartIbt

/-- R197: state INF. -/
def parseInf (b : Byte) (perr : Bool) (s : State) : State :=
  let t := ((s.storeRx b).feedRx b).notePerr perr
  (if t.rx.count.toNat = 3 + t.rx.len.toNat then t.setRxState .edc else t).restartIbt

/-- R198: state EDC. -/
def parseEdc (b : Byte) (perr : Bool) (s : State) : State :=
  let t := (s.storeRx b).notePerr perr
  if t.rx.count.toNat = 3 + t.rx.len.toNat + edcLen t.rx.latch then completeFrame t else t.restartIbt

/-- The T1 parser on one byte (R193 to R198, R203).  RX_STATE = RAW while CTRL.RX_MODE = T1 is a state no step
reaches (R192: code 7 is reported whenever CTRL.RX_MODE = 0); the byte then changes nothing (log 15). -/
def parse (b : Byte) (perr : Bool) (s : State) : State :=
  match s.rx.state with
  | .addr => parseAddr b perr s
  | .skip => s.restartIbt
  | .pcb => parsePcb b perr s
  | .len => parseLen b perr s
  | .inf => parseInf b perr s
  | .edc => parseEdc b perr s
  | .done => s.raise .rxOvf
  | .raw => s

/-- The receive mode takes the byte (R190, last two lines). -/
def receiveByte (b : Byte) (perr : Bool) (s : State) : State :=
  match s.ctrl.rxMode with
  | .raw => rawCapture b perr s
  | .t1 => parse b perr s

/-- R190: every received byte enters here. -/
def deliver (b : Byte) (perr : Bool) (src : Source) (s : State) : State :=
  if s.ctrl.en = false then s
  else
    match src with
    | .uart =>
      if s.ctrl.port ≠ .uart then s
      else if s.ctrl.lbsEn = true ∧ s.lbsCount ≠ 0 then { s with lbsCount := s.lbsCount - 1 }
      else receiveByte b perr s
    | .usb => if s.ctrl.port ≠ .usb then s else receiveByte b perr s
    | .sw => receiveByte b perr s

/-- R204: the effect of the expiry of timer channel 0 on the receive path. -/
def onIbtExpiry (s : State) : State :=
  match s.rx.state with
  | .raw => if s.rx.count ≠ 0 then s.raise .rawIdle else s
  | .skip => s.setRxState .addr
  | .pcb | .len | .inf | .edc =>
    ((({ s with rxErrCause := .ibtTimeout } : State).raise .rxErr).setRxCount 0).setRxState .addr
  | .addr | .done => s

/-- R205: restart_rx(), also run by a CTRL write that changes RX_MODE (R24) and by a soft reset (R291). -/
def restartRx (s : State) : State :=
  ({ s with
      rx := { s.rx with
        state := match s.ctrl.rxMode with
          | .raw => .raw
          | .t1 => .addr
        count := 0, rawPerr := false, perr := false, len := 0 }
      rxInfo := RxInfo.zero
      rxErrCause := .none } : State).stopTimer .ibt

end Sys2Proof.Machine
end

