-- ==== Sys2Proof/Machine/Receive.lean ====
section
/-! DEFINITION. The receive commands of 43_decoder.md. -/

namespace Sys2Proof.Machine

/-- R205: RX_RESTART. -/
def execRxRestart (s : State) : Result := commandEnabled s [] ((restartRx s).setResult 0)

/-- R206: RX_RELEASE. -/
def execRxRelease (s : State) : Result :=
  commandEnabled s
    [(decide (s.rx.state ≠ .done), .eState)]
    (((s.setRxState .addr).setRxCount 0).setResult 0)

/-- R207: RX_PUSH. -/
def execRxPush (byte : Byte) (s : State) : Result :=
  commandEnabled s [] ((deliver byte false .sw s).setResult 0)

end Sys2Proof.Machine
end

