-- ==== Sys2Proof/Machine/System.lean ====
section
/-! DEFINITION. The system commands of 47_system.md: NOP, SOFT_RESET, CFG_DEFAULTS.  They are the only commands R101
step 2 accepts while CTRL.EN = 0, so they have no checks of their own. -/

namespace Sys2Proof.Machine

/-- R290: NOP. -/
def execNop (s : State) : Result := command s [] (s.setResult 0)

/-- R291: the procedure soft_reset(), also run by a CTRL write that changes EN from 1 to 0 (R24). -/
def softReset (s : State) : State :=
  let s : State := { s with
    fifo := { s.fifo with head := 0, tail := 0, blkStart := 0 }
    enc := ⟨false, 0, 0⟩
    edc := ⟨0, .lrc⟩
    tx := ⟨false, .none, 0, 0⟩
    usbOut := none
    lbsCount := 0 }
  let s := restartRx s
  let s : State := { s with rx := { s.rx with acc := 0, latch := .lrc } }
  let s := ((s.stopTimer .ibt).stopTimer .atr).stopTimer .rsp
  { s with
    usbSeq := { s.usbSeq with last := 0, lastValid := false }
    ccidRsp := ⟨0, 0, 0⟩
    usbErrCause := .none
    irqPend := 0
    cmdResult := 0
    cmdStatus := .ok }

/-- R291: SOFT_RESET. -/
def execSoftReset (s : State) : Result := command s [] (softReset s)

/-- R292: the configuration fields at their hardware reset values. -/
def cfgDefaults (s : State) : State :=
  { s with
    nad := ⟨0, 0⟩
    ifs := ⟨s.params.ifsDefault, s.params.ifsDefault⟩
    tmoIbt := s.params.ibtDefaultMs
    presCfg := ⟨s.params.presNDefault, true⟩
    uartCfg := ⟨s.params.etuDefault, s.params.clkdivDefault⟩
    usbCfg := ⟨0, false⟩
    ctrl := { s.ctrl with edcKind := .lrc } }

/-- R292: CFG_DEFAULTS. -/
def execCfgDefaults (s : State) : Result := command s [] ((cfgDefaults s).setResult 0)

end Sys2Proof.Machine
end

