-- ==== Sys2Proof/Machine/Presence.lean ====
section
/-! DEFINITION. The card-presence detector of the UART port (45_uart_tx.md R249, R250). -/

namespace Sys2Proof.Machine

/-- R250: the part of a removal that a UART send in progress sees: it is abandoned without TX_FAIL. -/
def abandonUartSend (s : State) : State :=
  if s.tx.busy = true ∧ s.tx.portLatch = .uart then { s with tx := { s.tx with busy := false, remain := 0 } } else s

/-- R250: the part of a removal that a frame in progress sees: it is dropped without RX_ERR. -/
def dropFrameInProgress (s : State) : State :=
  if s.ctrl.rxMode = .t1 then
    match s.rx.state with
    | .skip | .pcb | .len | .inf | .edc => { s with rx := { s.rx with state := .addr, count := 0 } }
    | .addr | .done | .raw => s
  else s

/-- R250: a debounced removal. -/
def removal (s : State) : State :=
  let s := s.raise .cardOut
  if s.ctrl.port = .uart then
    (dropFrameInProgress
      ({ abandonUartSend { s with pinCtrl := ⟨false, false, false⟩ } with lbsCount := 0 } : State)).stopTimer .ibt
  else s

/-- The presence sample after polarity: 1 = a card is present (R249). -/
def State.presenceLevel (s : State) : Bool := s.pinLevel == s.presCfg.pol

/-- R249: the presence sample. -/
def presenceSample (s : State) : State :=
  let p := s.presenceLevel
  let s := { s with presPin := p }
  if p = s.present then { s with debCnt := 0 }
  else
    let s := { s with debCnt := s.debCnt + 1 }
    if s.debCnt ≥ s.presCfg.n then
      let s := { s with present := p, debCnt := 0 }
      if p then s.raise .cardIn else removal s
    else s

end Sys2Proof.Machine
end

