-- ==== Sys2Proof/Machine/Timer.lean ====
section
/-! DEFINITION. The timer commands of 44_timers.md. -/

namespace Sys2Proof.Machine

/-- R8: sat_sub(a, b). -/
def satSub (a b : Half) : Half := if b ≤ a then a - b else 0

/-- One channel's countdown in a TICK of `e` milliseconds, and whether the channel expired (R222). -/
def countdown (c : Countdown) (e : Half) : Countdown × Bool :=
  if c.run then
    let r := satSub c.rem e
    if c.first then (⟨r, true, false⟩, false)
    else if r = 0 then (⟨r, false, false⟩, true)
    else (⟨r, true, false⟩, false)
  else (c, false)

/-- R224: the expiry of channel `c`. -/
def onExpiry (c : Channel) (s : State) : State :=
  match c with
  | .ibt => onIbtExpiry (s.raise .ibtExp)
  | .atr => s.raise .atrExp
  | .rsp => s.raise .rspExp

/-- R224, for a channel that may have expired in this TICK. -/
def expireIf (expired : Bool) (c : Channel) (s : State) : State := if expired then onExpiry c s else s

/-- R222, R223: the presence sample of a TICK. -/
def sampleIfUart (s : State) : State := if s.ctrl.port = .uart then presenceSample s else s

/-- R222: the effect of TICK, in the order of R223. -/
def tick (e : Half) (s : State) : State :=
  if e = 0 then s.setResult 0
  else
    let s := sampleIfUart s
    let ibt := countdown s.tmr.ibt e
    let atr := countdown s.tmr.atr e
    let rsp := countdown s.tmr.rsp e
    let s : State := { s with tmr := ⟨ibt.1, atr.1, rsp.1⟩ }
    let s := expireIf rsp.2 .rsp (expireIf atr.2 .atr (expireIf ibt.2 .ibt s))
    s.setResult (0#13 ++ BitVec.ofBool rsp.2 ++ BitVec.ofBool atr.2 ++ BitVec.ofBool ibt.2)

/-- R222: TICK. -/
def execTick (ms : Half) (s : State) : Result := commandEnabled s [] (tick ms s)

/-- The channel a TID that passed its range check names (R225, R226). -/
def startTid (tid : BitVec 2) (ms : Half) (s : State) : State :=
  match channelOf tid with
  | some c => s.startTimer c ms
  | none => s

/-- The channel a TID that passed its range check names (R226). -/
def stopTid (tid : BitVec 2) (s : State) : State :=
  match channelOf tid with
  | some c => s.stopTimer c
  | none => s

/-- R225: TMR_START. -/
def execTmrStart (tid : BitVec 2) (ms : Half) (s : State) : Result :=
  commandEnabled s [(!tidInRange tid, .eArg)] ((startTid tid ms s).setResult 0)

/-- R226: TMR_STOP. -/
def execTmrStop (tid : BitVec 2) (s : State) : Result :=
  commandEnabled s [(!tidInRange tid, .eArg)] ((stopTid tid s).setResult 0)

end Sys2Proof.Machine
end

