-- ==== Sys2Proof/Machine/Dispatch.lean ====
section
/-! DEFINITION. The dispatch of a decoded command to its meaning, one arm per constructor of Instr (R101 steps 2 to 4). -/

namespace Sys2Proof.Machine

def exec (i : Instr) (s : State) : Host.Outcome State Fault Refusal :=
  match i with
  | .nop => Sys2Proof.Machine.execNop s
  | .softReset => Sys2Proof.Machine.execSoftReset s
  | .cfgDefaults => Sys2Proof.Machine.execCfgDefaults s
  | .fifoPush byte => Sys2Proof.Machine.execFifoPush byte s
  | .fifoPop => Sys2Proof.Machine.execFifoPop s
  | .fifoPeek offset => Sys2Proof.Machine.execFifoPeek offset s
  | .fifoRemove n => Sys2Proof.Machine.execFifoRemove n s
  | .fifoFlush => Sys2Proof.Machine.execFifoFlush s
  | .edcInit => Sys2Proof.Machine.execEdcInit s
  | .edcFeed byte => Sys2Proof.Machine.execEdcFeed byte s
  | .edcEmit => Sys2Proof.Machine.execEdcEmit s
  | .encI m ns len => Sys2Proof.Machine.execEncI m ns len s
  | .encR code nr => Sys2Proof.Machine.execEncR code nr s
  | .encS scmd resp len => Sys2Proof.Machine.execEncS scmd resp len s
  | .encData byte => Sys2Proof.Machine.execEncData byte s
  | .encAbort => Sys2Proof.Machine.execEncAbort s
  | .rxRestart => Sys2Proof.Machine.execRxRestart s
  | .rxRelease => Sys2Proof.Machine.execRxRelease s
  | .rxPush byte => Sys2Proof.Machine.execRxPush byte s
  | .tmrStart tid ms => Sys2Proof.Machine.execTmrStart tid ms s
  | .tmrStop tid => Sys2Proof.Machine.execTmrStop tid s
  | .tick ms => Sys2Proof.Machine.execTick ms s
  | .txSend n => Sys2Proof.Machine.execTxSend n s
  | .txStop => Sys2Proof.Machine.execTxStop s
  | .ccidPowerOn psel => Sys2Proof.Machine.execCcidPowerOn psel s
  | .ccidPowerOff => Sys2Proof.Machine.execCcidPowerOff s
  | .ccidGetParams => Sys2Proof.Machine.execCcidGetParams s
  | .ccidSetParams proto n => Sys2Proof.Machine.execCcidSetParams proto n s

end Sys2Proof.Machine
end

