-- ==== Sys2Proof/Machine/Registers.lean ====
section
/-! DEFINITION. The register map of 20_memory.md R81: each register's offset, what a read of it returns (10_state.md) and
what a 32-bit write of it does, a write of CMD running one command (30_encoding.md R101). -/

namespace Sys2Proof.Machine

/-- The registers of R81, in the order of their offsets. -/
inductive Reg where
  | id | ctrl | nad | ifs | tmoIbt | status | irqPend | irqEn
  | cmd | cmdResult | cmdStatus | edcAcc | fifoLevel | fifoCommit | encStatus | txStatus
  | rxInfo | rxErrCause | rxCount | tmrRem0 | tmrRem1 | tmrRem2 | presCfg | pinCtrl
  | uartCfg | lbsCount | usbCfg | usbSeq | ccidRsp0 | ccidRsp1 | ccidRsp2 | usbErrCause
  deriving DecidableEq, Repr

/-- R81: the offset of a register. -/
def Reg.offset : Reg → Nat
  | .id => 0x000
  | .ctrl => 0x004
  | .nad => 0x008
  | .ifs => 0x00C
  | .tmoIbt => 0x010
  | .status => 0x014
  | .irqPend => 0x018
  | .irqEn => 0x01C
  | .cmd => 0x020
  | .cmdResult => 0x024
  | .cmdStatus => 0x028
  | .edcAcc => 0x02C
  | .fifoLevel => 0x030
  | .fifoCommit => 0x034
  | .encStatus => 0x038
  | .txStatus => 0x03C
  | .rxInfo => 0x040
  | .rxErrCause => 0x044
  | .rxCount => 0x048
  | .tmrRem0 => 0x04C
  | .tmrRem1 => 0x050
  | .tmrRem2 => 0x054
  | .presCfg => 0x058
  | .pinCtrl => 0x05C
  | .uartCfg => 0x060
  | .lbsCount => 0x064
  | .usbCfg => 0x068
  | .usbSeq => 0x06C
  | .ccidRsp0 => 0x070
  | .ccidRsp1 => 0x074
  | .ccidRsp2 => 0x078
  | .usbErrCause => 0x07C

/-- Every register of R81. -/
def Reg.all : List Reg :=
  [.id, .ctrl, .nad, .ifs, .tmoIbt, .status, .irqPend, .irqEn,
   .cmd, .cmdResult, .cmdStatus, .edcAcc, .fifoLevel, .fifoCommit, .encStatus, .txStatus,
   .rxInfo, .rxErrCause, .rxCount, .tmrRem0, .tmrRem1, .tmrRem2, .presCfg, .pinCtrl,
   .uartCfg, .lbsCount, .usbCfg, .usbSeq, .ccidRsp0, .ccidRsp1, .ccidRsp2, .usbErrCause]

/-- R81: the register at an offset, if one is mapped there. -/
def Reg.ofOffset (off : Nat) : Option Reg := Reg.all.find? fun r => r.offset == off

/-- One bit. -/
def bit (b : Bool) : BitVec 1 := BitVec.ofBool b

/-! ### Reading (10_state.md; reserved bits read 0, R22) -/

/-- R23: CTRL. -/
def Ctrl.word (c : Ctrl) : Word :=
  0#25 ++ bit c.conv.toBit ++ bit c.lbsEn ++ bit c.rxMode.toBit ++ c.port.code ++ bit c.edcKind.toBit ++ bit c.en

/-- R38: STATUS. -/
def State.statusWord (s : State) : Word :=
  0#21 ++ bit s.presPin ++ bit s.rx.rawPerr ++ bit s.tmr.rsp.run ++ bit s.tmr.atr.run ++ bit s.tmr.ibt.run ++
  bit s.present ++ bit s.enc.isOpen ++ bit s.tx.busy ++ s.rx.state.code

/-- R45: RX_INFO. -/
def RxInfo.word (i : RxInfo) : Word :=
  0#2 ++ bit i.valid ++ i.code ++ bit i.more ++ bit i.seq ++ bit i.parityErr ++ bit i.lenMismatch ++
  bit i.pcbRsvd ++ bit i.edcOk ++ i.kind.code ++ i.len ++ i.pcb

/-- What a 32-bit read of a register returns. -/
def Reg.read (r : Reg) (s : State) : Word :=
  match r with
  | .id => Config.idWord
  | .ctrl => s.ctrl.word
  | .nad => 0#16 ++ s.nad.rx ++ s.nad.tx
  | .ifs => 0#16 ++ s.ifs.ifsd ++ s.ifs.ifsc
  | .tmoIbt => 0#16 ++ s.tmoIbt
  | .status => s.statusWord
  | .irqPend => 0#18 ++ s.irqPend
  | .irqEn => 0#18 ++ s.irqEn
  | .cmd => 0
  | .cmdResult => 0#16 ++ s.cmdResult
  | .cmdStatus => 0#24 ++ s.cmdStatus.code
  | .edcAcc => 0#15 ++ bit s.edc.latch.toBit ++ s.edc.acc
  | .fifoLevel => BitVec.ofNat 16 s.free ++ BitVec.ofNat 16 s.used
  | .fifoCommit => 0#16 ++ BitVec.ofNat 16 s.committed
  | .encStatus => 0#16 ++ s.enc.remain ++ 0#6 ++ bit s.edc.latch.toBit ++ bit s.enc.isOpen
  | .txStatus => s.tx.remain ++ 0#13 ++ s.tx.portLatch.code ++ bit s.tx.busy
  | .rxInfo => s.rxInfo.word
  | .rxErrCause => 0#24 ++ s.rxErrCause.code
  | .rxCount => 0#16 ++ s.rx.count
  | .tmrRem0 => 0#16 ++ s.tmr.ibt.rem
  | .tmrRem1 => 0#16 ++ s.tmr.atr.rem
  | .tmrRem2 => 0#16 ++ s.tmr.rsp.rem
  | .presCfg => 0#23 ++ bit s.presCfg.pol ++ s.presCfg.n
  | .pinCtrl => 0#29 ++ bit s.pinCtrl.clkEn ++ bit s.pinCtrl.pwr ++ bit s.pinCtrl.rst
  | .uartCfg => 0#8 ++ s.uartCfg.clkdiv ++ s.uartCfg.etu
  | .lbsCount => 0#16 ++ s.lbsCount
  | .usbCfg => 0#23 ++ bit s.usbCfg.autoPps ++ s.usbCfg.slot
  | .usbSeq => 0#15 ++ bit s.usbSeq.lastValid ++ s.usbSeq.last ++ s.usbSeq.next
  | .ccidRsp0 => s.ccidRsp.rsp0
  | .ccidRsp1 => s.ccidRsp.rsp1
  | .ccidRsp2 => 0#16 ++ s.ccidRsp.rsp2
  | .usbErrCause => 0#24 ++ s.usbErrCause.code

/-! ### Writing (R22: an out-of-range field keeps its old value, the other fields take effect) -/

/-- A field of legal range `legal`: the written value when it is in range, else the old value (R22). -/
def legalOr {n : Nat} (legal : BitVec n → Bool) (old new : BitVec n) : BitVec n := if legal new then new else old

/-- The legal range 1 to 254 of IFSC and IFSD (R26). -/
def ifsLegal (v : Byte) : Bool := decide (v ≠ 0) && decide (v ≠ 0xFF)

/-- A legal range that leaves out 0 only (R28, R29, R31). -/
def nonZero {n : Nat} (v : BitVec n) : Bool := decide (v ≠ 0)

/-- The CTRL fields a write asks for; PORT = 3 is out of range and leaves the old value (R23). -/
def Ctrl.written (old : Ctrl) (v : Word) : Ctrl where
  en := v.getLsbD 0
  edcKind := EdcKind.ofBit (v.getLsbD 1)
  port := (Port.ofCode (v.extractLsb' 2 2)).getD old.port
  rxMode := RxMode.ofBit (v.getLsbD 4)
  lbsEn := v.getLsbD 5
  conv := Convention.ofBit (v.getLsbD 6)

/-- R24 (1): EN from 1 to 0 runs soft_reset(). -/
def ctrlDisable (old new : Ctrl) (s : State) : State := if old.en = true ∧ new.en = false then softReset s else s

/-- R24 (2): a change of RX_MODE runs restart_rx(). -/
def ctrlModeChange (old new : Ctrl) (s : State) : State := if old.rxMode ≠ new.rxMode then restartRx s else s

/-- R24 (3): PORT does not change while TX_STATUS.BUSY = 1.  Applied after (1), so it sees BUSY = 0 when the same write
cleared EN (log 13). -/
def ctrlKeepPort (old : Ctrl) (s : State) : State :=
  if s.tx.busy = true then { s with ctrl := { s.ctrl with port := old.port } } else s

/-- R23, R24: a write of CTRL. -/
def writeCtrl (v : Word) (s : State) : State :=
  let old := s.ctrl
  let new := old.written v
  ctrlKeepPort old (ctrlModeChange old new (ctrlDisable old new { s with ctrl := new }))

/-- R101: a write of CMD runs one command: an unknown opcode fails with E_OPCODE (step 1), a disabled block refuses
every command but three (step 2), a reserved bit fails with E_ARG (step 3), else the command runs. -/
def writeCmd (v : Word) (s : State) : Result :=
  match decode v with
  | .ok i => exec i s
  | .error .unknownOpcode => .next (s.fail .eOpcode)
  | .error (.reservedBits op) =>
    if s.ctrl.en = false ∧ allowedWhileDisabled op = false then .next (s.fail .eDisabled) else .next (s.fail .eArg)

/-- What a 32-bit write of `v` to a register does; a write of a register without a writable field is ignored (R22, R86). -/
def Reg.write (r : Reg) (v : Word) (s : State) : Result :=
  match r with
  | .ctrl => .next (writeCtrl v s)
  | .nad => .next { s with nad := ⟨v.extractLsb' 0 8, v.extractLsb' 8 8⟩ }
  | .ifs => .next { s with ifs := ⟨legalOr ifsLegal s.ifs.ifsc (v.extractLsb' 0 8),
      legalOr ifsLegal s.ifs.ifsd (v.extractLsb' 8 8)⟩ }
  | .tmoIbt => .next { s with tmoIbt := legalOr nonZero s.tmoIbt (v.extractLsb' 0 16) }
  | .irqPend => .next { s with irqPend := s.irqPend &&& ~~~(v.extractLsb' 0 14) }
  | .irqEn => .next { s with irqEn := v.extractLsb' 0 14 }
  | .cmd => writeCmd v s
  | .presCfg => .next { s with presCfg := ⟨legalOr nonZero s.presCfg.n (v.extractLsb' 0 8), v.getLsbD 8⟩ }
  | .pinCtrl => .next { s with pinCtrl := ⟨v.getLsbD 0, v.getLsbD 1, v.getLsbD 2⟩ }
  | .uartCfg => .next { s with uartCfg := ⟨legalOr nonZero s.uartCfg.etu (v.extractLsb' 0 16),
      legalOr nonZero s.uartCfg.clkdiv (v.extractLsb' 16 8)⟩ }
  | .usbCfg => .next { s with usbCfg := ⟨v.extractLsb' 0 8, v.getLsbD 8⟩ }
  | .usbSeq => .next { s with usbSeq := { s.usbSeq with next := v.extractLsb' 0 8 } }
  | .id | .status | .cmdResult | .cmdStatus | .edcAcc | .fifoLevel | .fifoCommit | .encStatus | .txStatus
  | .rxInfo | .rxErrCause | .rxCount | .tmrRem0 | .tmrRem1 | .tmrRem2 | .lbsCount
  | .ccidRsp0 | .ccidRsp1 | .ccidRsp2 | .usbErrCause => .next s

end Sys2Proof.Machine
end

