-- ==== Sys2Proof/Machine/Bus.lean ====
section
/-! DEFINITION. HOST's bus accesses (20_memory.md R80 to R86): which are allowed, what they return and do, and which get
a bus error. -/

namespace Sys2Proof.Machine

/-- R80: the offset of a bus address inside the 4 KiB window at T1C_BASE. -/
def State.offsetOf (s : State) (addr : Nat) : Option Nat :=
  if s.params.base ≤ addr ∧ addr < s.params.base + 4096 then some (addr - s.params.base) else none

/-- What an access addresses. -/
inductive Target where
  /-- A register (R81). -/
  | reg (r : Reg)
  /-- Bytes of the RXBUF window, from index `k` (R84). -/
  | rxbuf (k : Nat)
  deriving DecidableEq, Repr

/-- R82, R84, R85: the target of an access of `size` bytes at an offset, or none where it gets a bus error.  A register
takes only aligned 32-bit accesses; the RXBUF window takes naturally aligned accesses of 1, 2 or 4 bytes (log 12). -/
def accessTarget (off size : Nat) : Option Target :=
  if off < 0x080 then
    if size = 4 ∧ off % 4 = 0 then (Reg.ofOffset off).map .reg else none
  else if 0x200 ≤ off ∧ off < 0x400 then
    if (size = 1 ∨ size = 2 ∨ size = 4) ∧ off % size = 0 then some (.rxbuf (off - 0x200)) else none
  else none

/-- R84: sum over j in 0..n-1 of zext_32(rxbuf[k + j]) << (8 * j). -/
def State.rxWord (s : State) (k : Nat) : (n : Nat) → Word
  | 0 => 0
  | n + 1 => s.rxWord k n ||| ((s.rxByte (k + n)).setWidth 32 <<< (8 * n))

/-- R82, R84, R86: a bus read.  It changes nothing but the data handed out. -/
def busRead (addr size : Nat) (s : State) : Result :=
  match s.offsetOf addr with
  | none => .refused .outsideWindow
  | some off =>
    match accessTarget off size with
    | none => .fault .busError
    | some (.reg r) => .next { s with output := some (.busData size (r.read s)) }
    | some (.rxbuf k) => .next { s with output := some (.busData size (s.rxWord k size)) }

/-- R82, R84, R86: a bus write.  A write to the RXBUF window is ignored. -/
def busWrite (addr size : Nat) (value : Word) (s : State) : Result :=
  match s.offsetOf addr with
  | none => .refused .outsideWindow
  | some off =>
    match accessTarget off size with
    | none => .fault .busError
    | some (.reg r) => r.write value s
    | some (.rxbuf _) => .next s

end Sys2Proof.Machine
end

