-- ==== Sys2Proof/Machine/Ports.lean ====
section
/-! DEFINITION. The steps of the environment's agents: LINE and PIN (45_uart_tx.md), USBPORT (46_ccid.md), and the
platform's hardware reset (70_reset_and_hazards.md R330). -/

namespace Sys2Proof.Machine

/-- R243: LINE_RX. -/
def lineRx (d8 : Byte) (p : Bool) (s : State) : State :=
  deliver (lineDecode d8 p s.ctrl.conv).1 (lineDecode d8 p s.ctrl.conv).2 .uart s

/-- R244: LINE_TAKE is enabled only while a UART send is in progress. -/
def lineTakeEnabled (s : State) : Bool := s.tx.busy && decide (s.tx.portLatch = .uart)

/-- R246: LBS_COUNT counts a byte the line took, saturating at 0xFFFF. -/
def countEcho (s : State) : State :=
  if s.ctrl.lbsEn = true ∧ s.lbsCount ≠ 0xFFFF then { s with lbsCount := s.lbsCount + 1 } else s

/-- R244: the character sent for the byte at the cursor. -/
def sentChar (s : State) : Byte × Bool := lineEncode (s.at s.tx.cursor.toNat) s.ctrl.conv

/-- R244: the line took a byte. -/
def lineTaken (s : State) : State :=
  let t := countEcho { s with
    tx := { s.tx with cursor := s.tx.cursor + 1, remain := s.tx.remain - 1 }
    output := some (.lineChar (sentChar s).1 (sentChar s).2) }
  if t.tx.remain = 0 then ({ t with tx := { t.tx with busy := false } } : State).raise .txDone else t

/-- R244: the line refused a byte, so it carries no character (95_test_vectors.md V-UART-4); REMAIN and tx_cursor keep the point of failure. -/
def lineRefused (s : State) : State := ({ s with tx := { s.tx with busy := false } } : State).raise .txFail

/-- R244: LINE_TAKE with outcome `ok` or fail. -/
def lineTake (ok : Bool) (s : State) : Result :=
  if lineTakeEnabled s then .next (if ok then lineTaken s else lineRefused s) else .refused .lineTakeNotEnabled

/-- R263: USB_ACCEPT with outcome `ok` or fail.  The message taken is the step's output, with either outcome. -/
def usbAccept (ok : Bool) (s : State) : Result :=
  match s.usbOut with
  | none => .refused .usbAcceptNotEnabled
  | some m =>
    .next (({ s with
      usbOut := none
      tx := { s.tx with busy := false, remain := 0 }
      output := some (.bulkOut m) } : State).raise (if ok then .txDone else .txFail))

/-- R50: the header bytes m[0..9] in CCID_RSP0 to CCID_RSP2. -/
def headerOf (m : List Byte) : CcidRsp where
  rsp0 := msgByte m 3 ++ msgByte m 2 ++ msgByte m 1 ++ msgByte m 0
  rsp1 := msgByte m 7 ++ msgByte m 6 ++ msgByte m 5 ++ msgByte m 4
  rsp2 := msgByte m 9 ++ msgByte m 8

/-- USB_ERRCAUSE <- c ; raise USB_ERR (R266). -/
def usbError (c : UsbErrCause) (s : State) : State := ({ s with usbErrCause := c } : State).raise .usbErr

/-- The payload bytes of a bulk-in message through `deliver`, in order (R266). -/
def deliverAll (bs : List Byte) (s : State) : State := bs.foldl (fun s b => deliver b false .usb s) s

/-- R266: the first check a bulk-in message of 10 or more bytes fails, in order, or none. -/
def bulkInError (m : List Byte) (s : State) : Option UsbErrCause :=
  if 10 + (dwLength m).toNat ≠ m.length then some .length
  else if msgByte m 5 ≠ s.usbCfg.slot then some .slot
  else if s.usbSeq.lastValid = false ∨ msgByte m 6 ≠ s.usbSeq.last then some .seq
  else if msgByte m 0 ≠ 0x80 ∧ msgByte m 0 ≠ 0x81 ∧ msgByte m 0 ≠ 0x82 then some .type
  else none

/-- R266: handling a bulk-in message (USB_IN, R264). -/
def bulkIn (m : List Byte) (s : State) : State :=
  if s.ctrl.en = false ∨ s.ctrl.port ≠ .usb then s
  else if m.length < 10 then usbError .short s
  else
    let s := { s with ccidRsp := headerOf m }
    match bulkInError m s with
    | some c => usbError c s
    | none =>
      (if msgByte m 0 = 0x80 ∨ msgByte m 0 = 0x82 then deliverAll (m.drop 10) s else s).raise .usbResp

/-- R267: the slot's "card present" bit of a NotifySlotChange message. -/
def slotPresent (m : List Byte) (slot : Byte) : Bool := (msgByte m (1 + slot.toNat / 4)).getLsbD (2 * (slot.toNat % 4))

/-- R267: handling an interrupt-in message (USB_INT). -/
def usbInt (m : List Byte) (s : State) : State :=
  if s.ctrl.en = false ∨ s.ctrl.port ≠ .usb then s
  else if m.length ≥ 2 + s.usbCfg.slot.toNat / 4 ∧ msgByte m 0 = 0x50 then
    let v := slotPresent m s.usbCfg.slot
    if v ≠ s.present then ({ s with present := v } : State).raise (if v then .cardIn else .cardOut) else s
  else s

/-- R330, R331: the hardware reset.  The parameters, the presence level and the steps to come are not T1C's to reset;
the storage bytes are unspecified again (log 6, log 8). -/
def hardwareReset (s : State) : State :=
  { State.resetWith s.params s.pinLevel with resets := s.resets + 1, pending := s.pending }

end Sys2Proof.Machine
end

