-- ==== Sys2Proof/Machine/Step.lean ====
section
/-! DEFINITION. One step: the next agent's step runs to completion, atomically (20_memory.md R90). -/

namespace Sys2Proof.Machine

/-- The effect of one agent's step. -/
def agentStep (a : AgentStep) (s : State) : Result :=
  match a with
  | .busRead addr size => busRead addr size s
  | .busWrite addr size value => busWrite addr size value s
  | .lineRx d8 p => .next (lineRx d8 p s)
  | .lineTake ok => lineTake ok s
  | .usbAccept ok => usbAccept ok s
  | .usbIn m => .next (bulkIn m s)
  | .usbInt m => .next (usbInt m s)
  | .pin level => .next { s with pinLevel := level }
  | .hardwareReset => .next (hardwareReset s)

/-- The state in which the next agent's step runs: it is taken off the list, and no output has been given yet. -/
def State.takeStep (s : State) (rest : List AgentStep) : State := { s with pending := rest, output := none }

/-- One step of the model.  With no agent's step to come, T1C does nothing (R10, R330; log 3). -/
def step (s : State) : Host.Outcome State Fault Refusal :=
  match s.pending with
  | [] => .next (s.takeStep [])
  | a :: rest => agentStep a (s.takeStep rest)

/-- `s` with HOST's write of a table row's word to CMD as the very next step (log 4). -/
def State.withFetchWord (s : State) (nbits w : Nat) : State :=
  { s with pending := .busWrite (s.params.base + 0x020) 4 (tableWord nbits w) :: s.pending }

end Sys2Proof.Machine
end

