-- ==== Sys2Proof/Safety.lean ====
section
/-! DEFINITION. The terms the claims use: what a well-kept state is (the invariants), the live bytes of the FIFO as a
list, the bytes of a T=1 block, the state after a failed command, and runs of several commands. -/

namespace Sys2Proof.Machine

/-! ### What claims say about one state -/

/-- The live bytes of the transmit FIFO, oldest first (R130). -/
def State.live (s : State) : List Byte := s.oldest s.used

/-- R304: the state after a command that failed with code `c`: CMD_STATUS, CMD_RESULT and IRQ_PEND.CMD_ERR (bit 11)
are written and nothing else. -/
def State.failedWith (s : State) (c : CmdCode) : State :=
  { s with cmdStatus := c, cmdResult := 0, irqPend := s.irqPend ||| 0x0800#14 }

/-- The bit of IRQ_PEND an event stands at, as software reads it (R39, R301). -/
def State.isPending (s : State) (e : Event) : Bool := s.irqPend.getLsbD e.bit

/-- Every byte of the fifo and rxbuf storage reads the same in both states. -/
def SameBytes (s t : State) : Prop := (∀ k, t.fifoByte k = s.fifoByte k) ∧ (∀ k, t.rxByte k = s.rxByte k)

/-- R303, R304: the command `i` at `s` runs its checks in the listed order.  The first condition that holds decides: the
command fails with its code and changes nothing else.  When none holds it ends with CMD_STATUS = OK in a state of which
`done` holds. -/
def ChecksThen (i : Instr) (s : State) : List (Prop × CmdCode) → (State → Prop) → Prop
  | [], done => ∃ t, exec i s = .next t ∧ t.cmdStatus = .ok ∧ done t
  | (bad, code) :: rest, done =>
    (bad → exec i s = .next (s.failedWith code)) ∧ (¬bad → ChecksThen i s rest done)

/-- R102: the bits of a command word that the opcode's row marks reserved, or none where the opcode has no row.  Written
as 32-bit masks from the map, apart from the decoder. -/
def reservedBits (op : Byte) : Option Word :=
  if op = 0x10 ∨ op = 0x21 ∨ op = 0x33 ∨ op = 0x42 then some 0xFFFF0000
  else if op = 0x12 ∨ op = 0x13 ∨ op = 0x52 ∨ op = 0x60 then some 0x0000FF00
  else if op = 0x30 then some 0xFF00FC00
  else if op = 0x31 then some 0xFFFFE000
  else if op = 0x32 then some 0xFF00C000
  else if op = 0x50 then some 0x0000FC00
  else if op = 0x51 ∨ op = 0x70 then some 0xFFFFFC00
  else if op = 0x73 then some 0x0000FE00
  else if op = 0x00 ∨ op = 0x01 ∨ op = 0x02 ∨ op = 0x11 ∨ op = 0x14 ∨ op = 0x20 ∨ op = 0x22 ∨ op = 0x34 ∨ op = 0x40 ∨
    op = 0x41 ∨ op = 0x61 ∨ op = 0x71 ∨ op = 0x72 then some 0xFFFFFF00
  else none

/-- R107: the bytes of a T=1 block on the wire, with checksum kind `k`: NAD, PCB, LEN, INF, EDC. -/
def blockBytes (k : EdcKind) (nad pcb : Byte) (inf : List Byte) : List Byte :=
  let body := nad :: pcb :: BitVec.ofNat 8 inf.length :: inf
  body ++ edcBytes k (edcFeedAll k (edcInit k) body)

/-- R170, R171: what opening a block with control byte `pcb` and length `len` makes of `s`.  The header bytes follow the
live bytes; a block without INF is closed at once, with its EDC bytes; nothing else changes. -/
def OpensBlock (s : State) (pcb len : Byte) (t : State) : Prop :=
  let k := s.ctrl.edcKind
  let header := [s.nad.tx, pcb, len]
  let acc := edcFeedAll k (edcInit k) header
  let written := if len = 0 then header ++ edcBytes k acc else header
  t = { s with
    fifo := t.fifo
    edc := ⟨acc, k⟩
    enc := ⟨decide (len ≠ 0), len, len⟩
    cmdResult := if len = 0 then BitVec.ofNat 16 (3 + edcLen k) else 0
    cmdStatus := .ok } ∧
  t.live = s.live ++ written ∧ t.fifo.tail = s.fifo.tail ∧ t.fifo.blkStart = s.fifo.head ∧
  t.fifo.head.toNat = (s.fifo.head.toNat + written.length) % s.depth ∧
  (∀ k, (∀ j < written.length, k ≠ (s.fifo.head.toNat + j) % s.depth) → t.fifoByte k = s.fifoByte k)

/-! ### Runs of commands -/

/-- Run commands one after another; none as soon as one does not end with CMD_STATUS = OK. -/
def runOk : List Instr → State → Option State
  | [], s => some s
  | i :: rest, s =>
    match exec i s with
    | .next t => if t.cmdStatus = .ok then runOk rest t else none
    | .fault _ => none
    | .refused _ => none

/-- Run commands one after another, collecting each CMD_RESULT; none as soon as one does not end with
CMD_STATUS = OK. -/
def runResults : List Instr → State → Option (List Half × State)
  | [], s => some ([], s)
  | i :: rest, s =>
    match exec i s with
    | .next t =>
      if t.cmdStatus = .ok then (runResults rest t).map fun r => (t.cmdResult :: r.1, r.2) else none
    | .fault _ => none
    | .refused _ => none

/-- The bytes a list of commands pushes with FIFO_PUSH. -/
def pushedBytes : List Instr → List Byte
  | [] => []
  | .fifoPush b :: rest => b :: pushedBytes rest
  | _ :: rest => pushedBytes rest

/-- The results of the FIFO_POP commands of a list, given every command's result. -/
def poppedResults : List Instr → List Half → List Half
  | .fifoPop :: rest, r :: rs => r :: poppedResults rest rs
  | _ :: rest, _ :: rs => poppedResults rest rs
  | _, _ => []

/-- Run agents' steps one after another, collecting each output; none as soon as one answers no next state. -/
def runSteps : List AgentStep → State → Option (List (Option Output) × State)
  | [], s => some ([], s)
  | a :: rest, s =>
    match agentStep a { s with output := none } with
    | .next t => (runSteps rest t).map fun r => (t.output :: r.1, r.2)
    | .fault _ => none
    | .refused _ => none

/-! ### The invariants -/

/-- Every configuration field holds a legal value (R22, R26, R28, R29, R31), and so do the parameters (R6). -/
abbrev State.ConfigOk (s : State) : Prop :=
  s.params.legal = true ∧ ifsLegal s.ifs.ifsc = true ∧ ifsLegal s.ifs.ifsd = true ∧ s.tmoIbt ≠ 0 ∧
  s.presCfg.n ≠ 0 ∧ s.uartCfg.etu ≠ 0 ∧ s.uartCfg.clkdiv ≠ 0

/-- The FIFO's parameters are legal (R6), its indexes are indexes of its storage (R52: `0 <= v < TXFIFO_DEPTH`), and
the storage is in canonical form. -/
abbrev State.FifoOk (s : State) : Prop :=
  s.params.legal = true ∧ s.fifo.head.toNat < s.depth ∧ s.fifo.tail.toNat < s.depth ∧
  s.fifo.blkStart.toNat < s.depth ∧ Memory.wf s.fifo.cells = true ∧ Memory.within s.depth s.fifo.cells = true

/-- While a block is open the FIFO holds its header and the INF bytes supplied so far above the committed bytes, and
has the space for the rest of it (R170, R171, R175); while none is open nothing is owed. -/
abbrev State.EncOk (s : State) : Prop :=
  (s.enc.isOpen = true →
    s.enc.remain ≠ 0 ∧ s.enc.remain.toNat ≤ s.enc.len.toNat ∧ s.enc.len ≠ 0xFF ∧
    s.committed + 3 + (s.enc.len.toNat - s.enc.remain.toNat) = s.used ∧
    s.enc.remain.toNat + edcLen s.edc.latch ≤ s.free) ∧
  (s.enc.isOpen = false → s.enc.remain = 0)

/-- A send in progress is on the selected port (R24, R338), what a UART send has still to take is committed (R245), and
a bulk-out message is pending exactly while a USB send is in progress (R262, R263). -/
abbrev State.TxOk (s : State) : Prop :=
  (s.tx.busy = true → s.ctrl.port = s.tx.portLatch ∧ s.tx.portLatch ≠ .none) ∧
  (s.tx.busy = true → s.tx.portLatch = .uart →
    s.tx.remain ≠ 0 ∧ s.tx.cursor.toNat + s.tx.remain.toNat ≤ s.committed) ∧
  (s.usbOut.isSome = true ↔ s.tx.busy = true ∧ s.tx.portLatch = .usb)

/-- RX_STATE is RAW exactly in RAW mode (R192), RX_COUNT is the number of bytes of the frame received so far (R191,
R193 to R200), and the receive buffer's storage is in canonical form. -/
abbrev State.RxOk (s : State) : Prop :=
  Memory.wf s.rxbuf = true ∧ Memory.within Config.rxbufSize s.rxbuf = true ∧
  (s.rx.state = .raw ↔ s.ctrl.rxMode = .raw) ∧
  (s.rx.state = .raw → s.rx.count.toNat ≤ Config.rxbufSize) ∧
  (s.rx.state = .skip → s.rx.count = 0) ∧
  (s.rx.state = .addr → s.rx.count = 0) ∧
  (s.rx.state = .pcb → s.rx.count = 1) ∧
  (s.rx.state = .len → s.rx.count = 2) ∧
  (s.rx.state = .inf →
    s.rx.len ≠ 0xFF ∧ 3 ≤ s.rx.count.toNat ∧ s.rx.count.toNat < 3 + s.rx.len.toNat) ∧
  (s.rx.state = .edc →
    s.rx.len ≠ 0xFF ∧ 3 + s.rx.len.toNat ≤ s.rx.count.toNat ∧
    s.rx.count.toNat < 3 + s.rx.len.toNat + edcLen s.rx.latch) ∧
  (s.rx.state = .done →
    s.rx.len ≠ 0xFF ∧ s.rx.count.toNat = 3 + s.rx.len.toNat + edcLen s.rx.latch)

/-- A stopped channel has nothing left to count (R221, R222). -/
abbrev Countdown.Ok (c : Countdown) : Prop := c.run = false → c.rem = 0 ∧ c.first = false

/-- Every timer channel that does not run is stopped (R221, R222). -/
abbrev State.TimersOk (s : State) : Prop := s.tmr.ibt.Ok ∧ s.tmr.atr.Ok ∧ s.tmr.rsp.Ok

/-- With the LRC kind latched, ACC[15:8] is 0 (R40), and so is the receive-side accumulator's high byte. -/
abbrev State.EdcOk (s : State) : Prop :=
  (s.edc.latch = .lrc → s.edc.acc.extractLsb' 8 8 = 0) ∧ (s.rx.latch = .lrc → s.rx.acc.extractLsb' 8 8 = 0)

/-- While CTRL.EN = 0 nothing is in progress: no live FIFO byte, no open block, no send, no frame, no running timer
(R330: T1C "does nothing until HOST writes to it"). -/
abbrev State.QuietOk (s : State) : Prop :=
  s.ctrl.en = false →
    s.fifo.head = s.fifo.tail ∧ s.enc.isOpen = false ∧ s.tx.busy = false ∧ s.usbOut = none ∧ s.rx.count = 0 ∧
    s.tmr.ibt.run = false ∧ s.tmr.atr.run = false ∧ s.tmr.rsp.run = false

/-- The invariant every step keeps. -/
structure State.Inv (s : State) : Prop where
  config : s.ConfigOk
  fifo : s.FifoOk
  enc : s.EncOk
  tx : s.TxOk
  rx : s.RxOk
  timers : s.TimersOk
  edc : s.EdcOk
  quiet : s.QuietOk

end Sys2Proof.Machine
end

