-- ==== Sys2Proof/Certificates/Slice0/Obligations.lean ====
section
/-! DEFINITION. The statements for the provers, in the order of OBLIGATIONS.json.  "Rn" is the numbered rule of spec/ a
statement formalises; "log n" is a row of notes/assumptions. -/

section

open Sys2Proof Sys2Proof.Machine

/-! ### Encoding (30_encoding.md) -/

/-- R100, R102: decoding the word of any command gives the command back, every operand at every value its field admits
(TID = 3 too, which fails later with E_ARG, log 14). -/
def Obligations.DecodeOfEncode : Prop := ∀ i : Instr, decode (encode i) = .ok i

/-- R100, R102: a word that decodes is the word of its command, so no accepted bit is dropped. -/
def Obligations.EncodeOfDecode : Prop := ∀ (w : Word) (i : Instr), decode w = .ok i → encode i = w

/-- R101, R103: the checks of a command word in order, for every word and state: an opcode outside the map, a disabled
block, a reserved bit, TID = 3, and else the command it encodes. -/
def Obligations.CommandWordChecks : Prop := ∀ (w : Word) (s : State),
  (reservedBits (fieldOp w) = none → writeCmd w s = .next (s.failedWith .eOpcode)) ∧
  ∀ m, reservedBits (fieldOp w) = some m →
    (s.ctrl.en = false → 3 ≤ (fieldOp w).toNat → writeCmd w s = .next (s.failedWith .eDisabled)) ∧
    (s.ctrl.en = true ∨ (fieldOp w).toNat < 3 →
      (w &&& m ≠ 0 → writeCmd w s = .next (s.failedWith .eArg)) ∧
      (w &&& m = 0 → fieldOp w = 0x50 ∨ fieldOp w = 0x51 → w.extractLsb' 8 2 = 3 →
        writeCmd w s = .next (s.failedWith .eArg)) ∧
      (w &&& m = 0 → ∃ i, decode w = .ok i ∧ encode i = w ∧ writeCmd w s = exec i s))

/-- Words of 95_test_vectors.md, written out there from the encoding, decode to the commands they stand for, and one
reserved bit, one unknown opcode are rejected by name. -/
def Obligations.SpecWordsDecode : Prop :=
  decode 0x00003B10 = .ok (.fifoPush 0x3B) ∧ decode 0x00020012 = .ok (.fifoPeek 2) ∧
  decode 0x00050230 = .ok (.encI false true 5) ∧ decode 0x00000131 = .ok (.encR 1 false) ∧
  decode 0x00012132 = .ok (.encS 1 true 1) ∧ decode 0x00008142 = .ok (.rxPush 0x81) ∧
  decode 0x00050150 = .ok (.tmrStart 1 5) ∧ decode 0xFFFF0052 = .ok (.tick 0xFFFF) ∧
  decode 0x00060060 = .ok (.txSend 6) ∧ decode 0x00070173 = .ok (.ccidSetParams true 7) ∧
  decode 0x00000100 = .error (.reservedBits 0x00) ∧ decode 0x00000003 = .error .unknownOpcode

/-- R89, R90, R100: when the next agent's step is HOST's 32-bit write to CMD of a word that decodes to `i`, the step is
`exec i` in the state with that step taken off the schedule and no output given yet; placing a word with
`withFetchWord` makes exactly that step the next one. -/
def Obligations.StepRunsDecodedCommand : Prop :=
  (∀ (s : State) (rest : List AgentStep) (w : Word) (i : Instr),
    s.pending = .busWrite (s.params.base + 0x020) 4 w :: rest → decode w = .ok i →
    step s = exec i { s with pending := rest, output := none }) ∧
  (∀ (s : State) (w : Nat) (i : Instr), decodeTableWord 32 w = some i →
    step (s.withFetchWord 32 w) = exec i { s with output := none })

/-! ### Steps and commands as a whole -/

/-- R303, R304: every command in every state is a completed step.  It ends either with CMD_STATUS = OK, or with exactly
one error code, CMD_RESULT 0 and CMD_ERR raised, and then nothing else changed.  No command but SOFT_RESET clears a
pending event, so CMD_ERR stays pending after later commands pass. -/
def Obligations.EveryCommandCompletes : Prop := ∀ (i : Instr) (s : State),
  ∃ t, exec i s = .next t ∧ (t.cmdStatus = .ok ∨ ∃ c, c ≠ .ok ∧ t = s.failedWith c) ∧
    (i ≠ .softReset → ∀ e, s.isPending e = true → t.isPending e = true)

/-- R304, R308: a step of an agent answers a next state, but for a bus access R85 refuses (the only fault), an access
outside T1C's window (log 11), and a LINE_TAKE or USB_ACCEPT that R244, R263 do not enable (log 10). -/
def Obligations.OnlyBusErrorsFault : Prop := ∀ (a : AgentStep) (s : State),
  (∃ t, agentStep a s = .next t) ∨
  (∃ addr size, (a = .busRead addr size ∨ ∃ v, a = .busWrite addr size v) ∧
    ((addr < s.params.base ∨ s.params.base + 4096 ≤ addr) ∧ agentStep a s = .refused .outsideWindow ∨
     (∃ off, off < 4096 ∧ addr = s.params.base + off ∧
       ¬ (off < 0x080 ∧ off % 4 = 0 ∧ size = 4) ∧
       ¬ (0x200 ≤ off ∧ off < 0x400 ∧ (size = 1 ∨ size = 2 ∨ size = 4) ∧ off % size = 0) ∧
       agentStep a s = .fault .busError))) ∨
  (∃ ok, a = .lineTake ok ∧ ¬ (s.tx.busy = true ∧ s.tx.portLatch = .uart) ∧
    agentStep a s = .refused .lineTakeNotEnabled) ∨
  (∃ ok, a = .usbAccept ok ∧ s.usbOut = none ∧ agentStep a s = .refused .usbAcceptNotEnabled)

/-- The state after reset is well kept. -/
def Obligations.ResetInv : Prop := State.reset.Inv

/-- Every step from a well-kept state leaves a well-kept state: legal configuration, FIFO indexes and storage in range,
the open block's space reserved, a send on its port over committed bytes, RX_COUNT the count of its state, stopped
channels at 0, LRC accumulators in 8 bits, and nothing in progress while CTRL.EN = 0. -/
def Obligations.StepKeepsInv : Prop := ∀ s t : State, s.Inv → step s = .next t → t.Inv

/-- R39, R301: a pending event stays pending across any step, but for a write of 1 to its bit, SOFT_RESET (as a command
or as CTRL.EN from 1 to 0) and a hardware reset. -/
def Obligations.EventsStayPending : Prop := ∀ (a : AgentStep) (s t : State) (e : Event),
  agentStep a s = .next t → s.isPending e = true → t.isPending e = false →
  a = .hardwareReset ∨
  (∃ v, a = .busWrite (s.params.base + 0x018) 4 v ∧ v.getLsbD e.bit = true) ∨
  a = .busWrite (s.params.base + 0x020) 4 (encode .softReset) ∨
  (∃ v, a = .busWrite (s.params.base + 0x004) 4 v ∧ s.ctrl.en = true ∧ v.getLsbD 0 = false)

/-- R302, R306: `irq` is high exactly while an enabled event is pending, and a write of IRQ_PEND clears the bits written
1, keeps the others, and changes nothing else. -/
def Obligations.InterruptOutput : Prop := ∀ s : State,
  (s.irq = true ↔ ∃ e : Event, s.isPending e = true ∧ s.irqEn.getLsbD e.bit = true) ∧
  (∀ v : Word, ∃ t, busWrite (s.params.base + 0x018) 4 v s = .next t ∧ t = { s with irqPend := t.irqPend } ∧
    ∀ e : Event, t.isPending e = (s.isPending e && !v.getLsbD e.bit))

/-- R330: with CTRL.EN = 0 every step of the environment is dropped: a received character or message changes nothing,
nothing is there to take, and a PIN step changes the presence level alone. -/
def Obligations.DisabledDropsEnvironment : Prop := ∀ (s : State) (a : AgentStep),
  s.Inv → s.ctrl.en = false → a ≠ .hardwareReset → (∀ addr size, a ≠ .busRead addr size) →
  (∀ addr size v, a ≠ .busWrite addr size v) →
  match a with
  | .pin level => agentStep a s = .next { s with pinLevel := level }
  | .lineTake _ => agentStep a s = .refused .lineTakeNotEnabled
  | .usbAccept _ => agentStep a s = .refused .usbAcceptNotEnabled
  | _ => agentStep a s = .next s

/-- R331: what every register reads, and the hidden state, after a hardware reset from any state, by the implementation
parameters; the presence level is the environment's.  Nothing is said of the storage bytes: they are unspecified. -/
def Obligations.HardwareResetState : Prop := ∀ s : State, s.params.legal = true →
  ∃ t, agentStep .hardwareReset s = .next t ∧
  Reg.id.read t = 0x54314301 ∧ Reg.ctrl.read t = 0 ∧ Reg.nad.read t = 0 ∧
  Reg.ifs.read t = 0#16 ++ s.params.ifsDefault ++ s.params.ifsDefault ∧
  Reg.tmoIbt.read t = 0#16 ++ s.params.ibtDefaultMs ∧ Reg.status.read t = 7 ∧
  Reg.presCfg.read t = 1#24 ++ s.params.presNDefault ∧
  Reg.uartCfg.read t = 0#8 ++ s.params.clkdivDefault ++ s.params.etuDefault ∧
  (Reg.fifoLevel.read t).toNat = (s.params.txFifoDepth - 1) * 65536 ∧
  (∀ r ∈ [Reg.irqPend, .irqEn, .cmd, .cmdResult, .cmdStatus, .edcAcc, .fifoCommit, .encStatus, .txStatus, .rxInfo,
    .rxErrCause, .rxCount, .tmrRem0, .tmrRem1, .tmrRem2, .pinCtrl, .lbsCount, .usbCfg, .usbSeq, .ccidRsp0, .ccidRsp1,
    .ccidRsp2, .usbErrCause], r.read t = 0) ∧
  t.fifo.head = 0 ∧ t.fifo.tail = 0 ∧ t.fifo.blkStart = 0 ∧ t.enc.len = 0 ∧ t.tx.cursor = 0 ∧ t.usbOut = none ∧
  t.rx.acc = 0 ∧ t.rx.latch = .lrc ∧ t.rx.len = 0 ∧ t.rx.perr = false ∧
  (∀ c, t.tmr.get c = ⟨0, false, false⟩) ∧ t.debCnt = 0 ∧ t.irq = false ∧
  t.pinLevel = s.pinLevel ∧ t.params = s.params

/-! ### The bus (20_memory.md, 10_state.md) -/

/-- R85: the accesses that get a bus error, reads and writes alike (for a misaligned write of the RXBUF window see
log 12).  A fault has no next state, so nothing is changed. -/
def Obligations.BusErrors : Prop := ∀ (s : State) (off size : Nat) (v : Word), off < 4096 →
  (0x080 ≤ off ∧ off < 0x200) ∨ 0x400 ≤ off ∨ (off < 0x080 ∧ size ≠ 4) ∨ off % size ≠ 0 ∨ 8 ≤ size →
  busRead (s.params.base + off) size s = .fault .busError ∧ busWrite (s.params.base + off) size v s = .fault .busError

/-- R84: a naturally aligned read of 1, 2 or 4 bytes of the RXBUF window returns rxbuf, low byte first, whatever the bytes
are (an unwritten one is a free value), and changes nothing; an aligned write of the window is ignored. -/
def Obligations.RxbufWindow : Prop := ∀ (s : State) (k n : Nat), k < 512 → n = 1 ∨ n = 2 ∨ n = 4 → k % n = 0 →
  (∃ v, busRead (s.params.base + 0x200 + k) n s = .next { s with output := some (.busData n v) } ∧
    (∀ j < n, v.extractLsb' (8 * j) 8 = s.rxByte (k + j)) ∧ v.toNat < 2 ^ (8 * n)) ∧
  ∀ w, busWrite (s.params.base + 0x200 + k) n w s = .next s

/-- R82, R86: what accesses do besides the access.  A read changes nothing but the data it hands out, and a second read
hands out the same; a write of a read-only register is ignored; a write of CMD runs its word as a command.  What writes of
the other registers change is said in InterruptOutput, ConfigurationWrites and CtrlWrite. -/
def Obligations.AccessSideEffects : Prop := ∀ s : State,
  (∀ addr size t, busRead addr size s = .next t →
    t = { s with output := t.output } ∧ busRead addr size t = .next t) ∧
  (∀ r ∈ [Reg.id, .status, .cmdResult, .cmdStatus, .edcAcc, .fifoLevel, .fifoCommit, .encStatus, .txStatus, .rxInfo,
    .rxErrCause, .rxCount, .tmrRem0, .tmrRem1, .tmrRem2, .lbsCount, .ccidRsp0, .ccidRsp1, .ccidRsp2, .usbErrCause],
    ∀ v, busWrite (s.params.base + r.offset) 4 v s = .next s) ∧
  (∀ v, busWrite (s.params.base + Reg.cmd.offset) 4 v s = writeCmd v s)

/-- R21 to R51, R81, R300: the offset of every register, the codes of the named field values, that a read at a register's
offset hands out its value, and the fields of that value, bit by bit, for every register; reserved bits read 0. -/
def Obligations.RegisterReads : Prop :=
  [Reg.id, .ctrl, .nad, .ifs, .tmoIbt, .status, .irqPend, .irqEn, .cmd, .cmdResult, .cmdStatus, .edcAcc, .fifoLevel,
    .fifoCommit, .encStatus, .txStatus, .rxInfo, .rxErrCause, .rxCount, .tmrRem0, .tmrRem1, .tmrRem2, .presCfg, .pinCtrl,
    .uartCfg, .lbsCount, .usbCfg, .usbSeq, .ccidRsp0, .ccidRsp1, .ccidRsp2, .usbErrCause].map Reg.offset =
    (List.range 32).map (4 * ·) ∧
  [RxState.skip, .addr, .pcb, .len, .inf, .edc, .done, .raw].map RxState.code = [0, 1, 2, 3, 4, 5, 6, 7] ∧
  [CmdCode.ok, .eOpcode, .eArg, .eFull, .eEmpty, .eLen, .eState, .eBusy, .ePort, .eDisabled].map CmdCode.code =
    [0, 1, 2, 3, 4, 5, 6, 7, 8, 9] ∧
  [Port.none, .uart, .usb].map Port.code = [0, 1, 2] ∧
  [BlockKind.iBlock, .rBlock, .sBlock].map BlockKind.code = [0, 1, 2] ∧
  [RxErrCause.none, .lenReserved, .lenOverIfsd, .ibtTimeout].map RxErrCause.code = [0, 1, 2, 3] ∧
  [UsbErrCause.none, .short, .length, .slot, .seq, .type].map UsbErrCause.code = [0, 1, 2, 3, 4, 5] ∧
  [Event.rxDone, .rxErr, .rxOvf, .rawIdle, .txDone, .txFail, .ibtExp, .atrExp, .rspExp, .cardIn, .cardOut, .cmdErr,
    .usbResp, .usbErr].map Event.bit = List.range 14 ∧
  ∀ s : State,
  (∀ r : Reg, busRead (s.params.base + r.offset) 4 s = .next { s with output := some (.busData 4 (r.read s)) }) ∧
  Reg.id.read s = 0x54314301 ∧ Reg.cmd.read s = 0 ∧
  (let w := Reg.ctrl.read s
   w.getLsbD 0 = s.ctrl.en ∧ (w.getLsbD 1 = true ↔ s.ctrl.edcKind = .crc) ∧ w.extractLsb' 2 2 = s.ctrl.port.code ∧
   (w.getLsbD 4 = true ↔ s.ctrl.rxMode = .t1) ∧ w.getLsbD 5 = s.ctrl.lbsEn ∧
   (w.getLsbD 6 = true ↔ s.ctrl.conv = .inverse) ∧ w.extractLsb' 7 25 = 0) ∧
  (let w := Reg.nad.read s
   w.extractLsb' 0 8 = s.nad.tx ∧ w.extractLsb' 8 8 = s.nad.rx ∧ w.extractLsb' 16 16 = 0) ∧
  (let w := Reg.ifs.read s
   w.extractLsb' 0 8 = s.ifs.ifsc ∧ w.extractLsb' 8 8 = s.ifs.ifsd ∧ w.extractLsb' 16 16 = 0) ∧
  (let w := Reg.tmoIbt.read s
   w.extractLsb' 0 16 = s.tmoIbt ∧ w.extractLsb' 16 16 = 0) ∧
  (let w := Reg.status.read s
   w.extractLsb' 0 3 = s.rx.state.code ∧ w.getLsbD 3 = s.tx.busy ∧ w.getLsbD 4 = s.enc.isOpen ∧
   w.getLsbD 5 = s.present ∧ w.getLsbD 6 = s.tmr.ibt.run ∧ w.getLsbD 7 = s.tmr.atr.run ∧
   w.getLsbD 8 = s.tmr.rsp.run ∧ w.getLsbD 9 = s.rx.rawPerr ∧ w.getLsbD 10 = s.presPin ∧ w.extractLsb' 11 21 = 0) ∧
  (let w := Reg.irqPend.read s
   (∀ e : Event, w.getLsbD e.bit = s.isPending e) ∧ w.extractLsb' 14 18 = 0) ∧
  (let w := Reg.irqEn.read s
   w.extractLsb' 0 14 = s.irqEn ∧ w.extractLsb' 14 18 = 0) ∧
  (let w := Reg.cmdResult.read s
   w.extractLsb' 0 16 = s.cmdResult ∧ w.extractLsb' 16 16 = 0) ∧
  (let w := Reg.cmdStatus.read s
   w.extractLsb' 0 8 = s.cmdStatus.code ∧ w.extractLsb' 8 24 = 0) ∧
  (let w := Reg.edcAcc.read s
   w.extractLsb' 0 16 = s.edc.acc ∧ (w.getLsbD 16 = true ↔ s.edc.latch = .crc) ∧ w.extractLsb' 17 15 = 0) ∧
  (s.FifoOk →
    ((Reg.fifoLevel.read s).extractLsb' 0 16).toNat = s.live.length ∧
    ((Reg.fifoLevel.read s).extractLsb' 16 16).toNat = s.depth - 1 - s.live.length ∧
    ((Reg.fifoCommit.read s).extractLsb' 0 16).toNat = s.committed) ∧
  (Reg.fifoCommit.read s).extractLsb' 16 16 = 0 ∧
  (let w := Reg.encStatus.read s
   w.getLsbD 0 = s.enc.isOpen ∧ (w.getLsbD 1 = true ↔ s.edc.latch = .crc) ∧ w.extractLsb' 2 6 = 0 ∧
   w.extractLsb' 8 8 = s.enc.remain ∧ w.extractLsb' 16 16 = 0) ∧
  (let w := Reg.txStatus.read s
   w.getLsbD 0 = s.tx.busy ∧ w.extractLsb' 1 2 = s.tx.portLatch.code ∧ w.extractLsb' 3 13 = 0 ∧
   w.extractLsb' 16 16 = s.tx.remain) ∧
  (let w := Reg.rxInfo.read s
   w.extractLsb' 0 8 = s.rxInfo.pcb ∧ w.extractLsb' 8 8 = s.rxInfo.len ∧ w.extractLsb' 16 2 = s.rxInfo.kind.code ∧
   w.getLsbD 18 = s.rxInfo.edcOk ∧ w.getLsbD 19 = s.rxInfo.pcbRsvd ∧ w.getLsbD 20 = s.rxInfo.lenMismatch ∧
   w.getLsbD 21 = s.rxInfo.parityErr ∧ w.getLsbD 22 = s.rxInfo.seq ∧ w.getLsbD 23 = s.rxInfo.more ∧
   w.extractLsb' 24 5 = s.rxInfo.code ∧ w.getLsbD 29 = s.rxInfo.valid ∧ w.extractLsb' 30 2 = 0) ∧
  (let w := Reg.rxErrCause.read s
   w.extractLsb' 0 8 = s.rxErrCause.code ∧ w.extractLsb' 8 24 = 0) ∧
  (let w := Reg.rxCount.read s
   w.extractLsb' 0 16 = s.rx.count ∧ w.extractLsb' 16 16 = 0) ∧
  (∀ p ∈ [(Reg.tmrRem0, Channel.ibt), (.tmrRem1, .atr), (.tmrRem2, .rsp)],
    (p.1.read s).extractLsb' 0 16 = (s.tmr.get p.2).rem ∧ (p.1.read s).extractLsb' 16 16 = 0) ∧
  (let w := Reg.presCfg.read s
   w.extractLsb' 0 8 = s.presCfg.n ∧ w.getLsbD 8 = s.presCfg.pol ∧ w.extractLsb' 9 23 = 0) ∧
  (let w := Reg.pinCtrl.read s
   w.getLsbD 0 = s.pinCtrl.rst ∧ w.getLsbD 1 = s.pinCtrl.pwr ∧ w.getLsbD 2 = s.pinCtrl.clkEn ∧
   w.extractLsb' 3 29 = 0) ∧
  (let w := Reg.uartCfg.read s
   w.extractLsb' 0 16 = s.uartCfg.etu ∧ w.extractLsb' 16 8 = s.uartCfg.clkdiv ∧ w.extractLsb' 24 8 = 0) ∧
  (let w := Reg.lbsCount.read s
   w.extractLsb' 0 16 = s.lbsCount ∧ w.extractLsb' 16 16 = 0) ∧
  (let w := Reg.usbCfg.read s
   w.extractLsb' 0 8 = s.usbCfg.slot ∧ w.getLsbD 8 = s.usbCfg.autoPps ∧ w.extractLsb' 9 23 = 0) ∧
  (let w := Reg.usbSeq.read s
   w.extractLsb' 0 8 = s.usbSeq.next ∧ w.extractLsb' 8 8 = s.usbSeq.last ∧ w.getLsbD 16 = s.usbSeq.lastValid ∧
   w.extractLsb' 17 15 = 0) ∧
  Reg.ccidRsp0.read s = s.ccidRsp.rsp0 ∧ Reg.ccidRsp1.read s = s.ccidRsp.rsp1 ∧
  (let w := Reg.ccidRsp2.read s
   w.extractLsb' 0 16 = s.ccidRsp.rsp2 ∧ w.extractLsb' 16 16 = 0) ∧
  (let w := Reg.usbErrCause.read s
   w.extractLsb' 0 8 = s.usbErrCause.code ∧ w.extractLsb' 8 24 = 0)

/-- R22, R25, R26, R28 to R34: a write of a configuration register sets each field whose value is in range, leaves an
out-of-range field at its old value, and changes no other state. -/
def Obligations.ConfigurationWrites : Prop := ∀ (s : State) (v : Word),
  (∃ t, busWrite (s.params.base + 0x008) 4 v s = .next t ∧ t = { s with nad := t.nad } ∧
    t.nad.tx = v.extractLsb' 0 8 ∧ t.nad.rx = v.extractLsb' 8 8) ∧
  (∃ t, busWrite (s.params.base + 0x00C) 4 v s = .next t ∧ t = { s with ifs := t.ifs } ∧
    (let c := v.extractLsb' 0 8
     t.ifs.ifsc = if 1 ≤ c.toNat ∧ c.toNat ≤ 254 then c else s.ifs.ifsc) ∧
    (let d := v.extractLsb' 8 8
     t.ifs.ifsd = if 1 ≤ d.toNat ∧ d.toNat ≤ 254 then d else s.ifs.ifsd)) ∧
  (∃ t, busWrite (s.params.base + 0x010) 4 v s = .next t ∧ t = { s with tmoIbt := t.tmoIbt } ∧
    t.tmoIbt = if v.extractLsb' 0 16 = 0 then s.tmoIbt else v.extractLsb' 0 16) ∧
  (∃ t, busWrite (s.params.base + 0x01C) 4 v s = .next t ∧ t = { s with irqEn := t.irqEn } ∧
    t.irqEn = v.extractLsb' 0 14) ∧
  (∃ t, busWrite (s.params.base + 0x058) 4 v s = .next t ∧ t = { s with presCfg := t.presCfg } ∧
    t.presCfg.n = (if v.extractLsb' 0 8 = 0 then s.presCfg.n else v.extractLsb' 0 8) ∧
    t.presCfg.pol = v.getLsbD 8) ∧
  (∃ t, busWrite (s.params.base + 0x05C) 4 v s = .next t ∧ t = { s with pinCtrl := t.pinCtrl } ∧
    t.pinCtrl.rst = v.getLsbD 0 ∧ t.pinCtrl.pwr = v.getLsbD 1 ∧ t.pinCtrl.clkEn = v.getLsbD 2) ∧
  (∃ t, busWrite (s.params.base + 0x060) 4 v s = .next t ∧ t = { s with uartCfg := t.uartCfg } ∧
    t.uartCfg.etu = (if v.extractLsb' 0 16 = 0 then s.uartCfg.etu else v.extractLsb' 0 16) ∧
    t.uartCfg.clkdiv = (if v.extractLsb' 16 8 = 0 then s.uartCfg.clkdiv else v.extractLsb' 16 8)) ∧
  (∃ t, busWrite (s.params.base + 0x068) 4 v s = .next t ∧ t = { s with usbCfg := t.usbCfg } ∧
    t.usbCfg.slot = v.extractLsb' 0 8 ∧ t.usbCfg.autoPps = v.getLsbD 8) ∧
  (∃ t, busWrite (s.params.base + 0x06C) 4 v s = .next t ∧
    t = { s with usbSeq := { s.usbSeq with next := v.extractLsb' 0 8 } })

/-- R23, R24: a write of CTRL sets the fields (PORT = 3 keeps the old port), then applies the three side effects in
order.  That the kept port is decided after the soft reset of the same write is the model's reading (log 13). -/
def Obligations.CtrlWrite : Prop := ∀ (s : State) (v : Word),
  ∃ t, busWrite (s.params.base + 0x004) 4 v s = .next t ∧
  t.ctrl.en = v.getLsbD 0 ∧ t.ctrl.edcKind = (if v.getLsbD 1 then .crc else .lrc) ∧
  t.ctrl.rxMode = (if v.getLsbD 4 then .t1 else .raw) ∧ t.ctrl.lbsEn = v.getLsbD 5 ∧
  t.ctrl.conv = (if v.getLsbD 6 then .inverse else .direct) ∧
  (let disabling : Prop := s.ctrl.en = true ∧ v.getLsbD 0 = false
   (disabling → t = softReset { s with ctrl := t.ctrl }) ∧
   (¬disabling → t.ctrl.rxMode ≠ s.ctrl.rxMode → t = restartRx { s with ctrl := t.ctrl }) ∧
   (¬disabling → t.ctrl.rxMode = s.ctrl.rxMode → t = { s with ctrl := t.ctrl }) ∧
   (s.tx.busy = true ∧ ¬disabling ∨ v.extractLsb' 2 2 = 3 → t.ctrl.port = s.ctrl.port) ∧
   (s.tx.busy = false ∨ disabling → v.extractLsb' 2 2 ≠ 3 → t.ctrl.port.code = v.extractLsb' 2 2))

/-! ### The transmit FIFO (40_fifo.md) -/

/-- R132: FIFO_PUSH appends its byte to the live bytes and writes one storage byte, at head. -/
def Obligations.FifoPushAppends : Prop := ∀ (s : State) (b : Byte), s.FifoOk →
  ChecksThen (.fifoPush b) s [(s.ctrl.en = false, .eDisabled), (s.enc.isOpen = true, .eState), (s.free = 0, .eFull)]
    fun t =>
      t = { s with fifo := t.fifo, cmdResult := 0, cmdStatus := .ok } ∧ t.live = s.live ++ [b] ∧
      t.fifo.tail = s.fifo.tail ∧ t.fifo.blkStart = s.fifo.blkStart ∧
      t.fifo.head.toNat = (s.fifo.head.toNat + 1) % s.depth ∧
      t.fifoByte s.fifo.head.toNat = b ∧ ∀ k, k ≠ s.fifo.head.toNat → t.fifoByte k = s.fifoByte k

/-- R133: FIFO_POP returns the oldest byte and moves tail past it; it removes committed bytes only. -/
def Obligations.FifoPopRemovesOldest : Prop := ∀ s : State, s.FifoOk → s.EncOk →
  ChecksThen .fifoPop s
    [(s.ctrl.en = false, .eDisabled), (s.tx.busy = true, .eBusy), (s.committed = 0, .eEmpty)]
    fun t => ∃ b, s.live = b :: t.live ∧ b = s.fifoByte s.fifo.tail.toNat ∧
      t = { s with fifo := { s.fifo with tail := t.fifo.tail }, cmdResult := b.setWidth 16, cmdStatus := .ok } ∧
      t.fifo.tail.toNat = (s.fifo.tail.toNat + 1) % s.depth ∧ t.committed + 1 = s.committed

/-- R134: FIFO_PEEK returns the live byte at its offset, of an open block too, and changes nothing. -/
def Obligations.FifoPeekReadsLiveByte : Prop := ∀ (s : State) (offset : Half),
  ChecksThen (.fifoPeek offset) s [(s.ctrl.en = false, .eDisabled), (s.live.length ≤ offset.toNat, .eEmpty)]
    fun t => ∃ b, s.live[offset.toNat]? = some b ∧ t = { s with cmdResult := b.setWidth 16, cmdStatus := .ok }

/-- R135, R136: FIFO_REMOVE drops the oldest `n` bytes, committed ones only; FIFO_FLUSH empties the FIFO.  Neither
changes a storage byte. -/
def Obligations.FifoRemoveAndFlush : Prop := ∀ (s : State) (n : Half), s.FifoOk → s.EncOk →
  ChecksThen (.fifoRemove n) s
    [(s.ctrl.en = false, .eDisabled), (s.tx.busy = true, .eBusy), (s.committed < n.toNat, .eEmpty)]
    (fun t => t.live = s.live.drop n.toNat ∧
      t = { s with fifo := { s.fifo with tail := t.fifo.tail }, cmdResult := 0, cmdStatus := .ok } ∧
      t.fifo.tail.toNat = (s.fifo.tail.toNat + n.toNat) % s.depth ∧ t.committed + n.toNat = s.committed) ∧
  ChecksThen .fifoFlush s
    [(s.ctrl.en = false, .eDisabled), (s.enc.isOpen = true, .eState), (s.tx.busy = true, .eBusy)]
    (fun t => t = { s with fifo := ⟨s.fifo.cells, 0, 0, 0⟩, cmdResult := 0, cmdStatus := .ok } ∧
      t.live = [] ∧ t.free = s.depth - 1)

/-- R137: from an empty FIFO exactly TXFIFO_DEPTH - 1 bytes can be pushed; then FREE is 0, the live bytes are the pushed
ones, and one more FIFO_PUSH fails with E_FULL. -/
def Obligations.FifoCapacity : Prop := ∀ (s : State) (bs : List Byte),
  s.FifoOk → s.ctrl.en = true → s.enc.isOpen = false → s.fifo.head = s.fifo.tail → bs.length = s.depth - 1 →
  ∃ t, runOk (bs.map .fifoPush) s = some t ∧ t.free = 0 ∧ t.live = bs ∧
    ∀ b, exec (.fifoPush b) t = .next (t.failedWith .eFull)

/-- R138: for any sequence of successful pushes and pops, the popped bytes followed by the bytes still in the FIFO are the
bytes it held followed by the pushed bytes: order is kept across wrap-around and nothing is lost or repeated.  No block is
open; single steps with a block open, and FIFO_REMOVE, are in FifoPopRemovesOldest and FifoRemoveAndFlush. -/
def Obligations.FifoKeepsOrder : Prop := ∀ (s t : State) (is : List Instr) (rs : List Half),
  s.FifoOk → s.enc.isOpen = false → (∀ i ∈ is, i = .fifoPop ∨ ∃ b, i = .fifoPush b) →
  runResults is s = some (rs, t) →
  poppedResults is rs ++ t.live.map (·.setWidth 16) = (s.live ++ pushedBytes is).map (·.setWidth 16)

/-! ### The error-detection codes (41_edc.md) -/

/-- R150, R151, R154, R155: EDC_INIT latches CTRL.EDC_KIND and starts at 0x0000 (LRC) or 0xFFFF (CRC-16); EDC_FEED folds
one byte in by the latched kind: XOR for LRC; for CRC-16 eight shifts of the reflected polynomial 0x8408 over the
accumulator XORed with the byte.  Both return the accumulator. -/
def Obligations.EdcInitAndFeed : Prop := ∀ (s : State) (b : Byte),
  ChecksThen .edcInit s [(s.ctrl.en = false, .eDisabled), (s.enc.isOpen = true, .eState)]
    (fun t => ∃ v : Half, (s.ctrl.edcKind = .lrc → v = 0x0000) ∧ (s.ctrl.edcKind = .crc → v = 0xFFFF) ∧
      t = { s with edc := ⟨v, s.ctrl.edcKind⟩, cmdResult := v, cmdStatus := .ok }) ∧
  ChecksThen (.edcFeed b) s [(s.ctrl.en = false, .eDisabled), (s.enc.isOpen = true, .eState)]
    (fun t => ∃ v : Half,
      (s.edc.latch = .lrc → v = s.edc.acc ^^^ (0#8 ++ b)) ∧
      (s.edc.latch = .crc → v = crcShifts 8 (s.edc.acc ^^^ (0#8 ++ b))) ∧
      t = { s with edc := ⟨v, s.edc.latch⟩, cmdResult := v, cmdStatus := .ok })

/-- R153, R156: EDC_EMIT appends the accumulator's EDC bytes, low byte first, one for LRC and two for CRC-16, or none at
all when they do not all fit; the accumulator stays. -/
def Obligations.EdcEmitAppends : Prop := ∀ (s : State) (bytes : List Byte), s.FifoOk →
  (s.edc.latch = .lrc → bytes = [s.edc.acc.extractLsb' 0 8]) →
  (s.edc.latch = .crc → bytes = [s.edc.acc.extractLsb' 0 8, s.edc.acc.extractLsb' 8 8]) →
  ChecksThen .edcEmit s
    [(s.ctrl.en = false, .eDisabled), (s.enc.isOpen = true, .eState), (s.free < bytes.length, .eFull)]
    fun t => t = { s with fifo := t.fifo, cmdResult := BitVec.ofNat 16 bytes.length, cmdStatus := .ok } ∧
      t.live = s.live ++ bytes ∧ t.fifo.tail = s.fifo.tail ∧ t.fifo.blkStart = s.fifo.blkStart ∧
      ∀ k, (∀ j < bytes.length, k ≠ (s.fifo.head.toNat + j) % s.depth) → t.fifoByte k = s.fifoByte k

/-- R157: feeding two segments one after the other gives the same accumulator as feeding their concatenation, for either
kind, from one EDC_INIT; the value is the fold of the update over the bytes. -/
def Obligations.EdcSegmentation : Prop := ∀ (s : State) (s1 s2 : List Byte),
  s.ctrl.en = true → s.enc.isOpen = false →
  ∃ t u, runOk (.edcInit :: s1.map .edcFeed) s = some t ∧ runOk (s2.map .edcFeed) t = some u ∧
    runOk (.edcInit :: (s1 ++ s2).map .edcFeed) s = some u ∧
    u.edc = ⟨edcFeedAll s.ctrl.edcKind (edcInit s.ctrl.edcKind) (s1 ++ s2), s.ctrl.edcKind⟩

/-! ### The block encoder (42_encoder.md) -/

/-- R172: ENC_I opens an I-block with PCB 0 N(S) M 00000 (the places of R109). -/
def Obligations.EncIOpensBlock : Prop := ∀ (s : State) (m ns : Bool) (len : Byte), s.FifoOk →
  ChecksThen (.encI m ns len) s
    [(s.ctrl.en = false, .eDisabled), (s.enc.isOpen = true, .eState), (len = 0xFF, .eLen),
      (s.ifs.ifsc < len, .eLen), (s.free < 3 + len.toNat + edcLen s.ctrl.edcKind, .eFull)]
    (OpensBlock s (0#1 ++ BitVec.ofBool ns ++ BitVec.ofBool m ++ 0#5) len)

/-- R173, R174: ENC_R writes a whole R-block with PCB 100 N(R) CODE; ENC_S opens an S-block with PCB 11 RESP SCMD
and at most one INF byte.  Every code and command is encoded as given. -/
def Obligations.EncRAndEncSOpenBlocks : Prop :=
  ∀ (s : State) (code : BitVec 4) (nr : Bool) (scmd : BitVec 5) (resp : Bool) (len : Byte), s.FifoOk →
  ChecksThen (.encR code nr) s
    [(s.ctrl.en = false, .eDisabled), (s.enc.isOpen = true, .eState), (s.free < 3 + edcLen s.ctrl.edcKind, .eFull)]
    (OpensBlock s (0b100#3 ++ BitVec.ofBool nr ++ code) 0) ∧
  ChecksThen (.encS scmd resp len) s
    [(s.ctrl.en = false, .eDisabled), (s.enc.isOpen = true, .eState), (1 < len, .eLen),
      (s.free < 3 + len.toNat + edcLen s.ctrl.edcKind, .eFull)]
    (OpensBlock s (0b11#2 ++ BitVec.ofBool resp ++ scmd) len)

/-- R171, R175: ENC_DATA appends and folds one INF byte; the last one appends the EDC bytes too, closes the block and
returns its length. -/
def Obligations.EncDataAppends : Prop := ∀ (s : State) (b : Byte), s.FifoOk → s.EncOk →
  ChecksThen (.encData b) s [(s.ctrl.en = false, .eDisabled), (s.enc.isOpen = false, .eState)]
    fun t =>
      let acc := edcFeed s.edc.latch s.edc.acc b
      let last := decide (s.enc.remain = 1)
      let written := if last then b :: edcBytes s.edc.latch acc else [b]
      t = { s with
        fifo := t.fifo
        edc := { s.edc with acc := acc }
        enc := ⟨!last, s.enc.remain - 1, s.enc.len⟩
        cmdResult := if last then BitVec.ofNat 16 (3 + s.enc.len.toNat + edcLen s.edc.latch) else 0
        cmdStatus := .ok } ∧
      t.live = s.live ++ written ∧ t.fifo.tail = s.fifo.tail ∧ t.fifo.blkStart = s.fifo.blkStart ∧
      ∀ k, (∀ j < written.length, k ≠ (s.fifo.head.toNat + j) % s.depth) → t.fifoByte k = s.fifoByte k

/-- R176: ENC_ABORT takes the open block back; the FIFO holds exactly the committed bytes, and the accumulator and the
storage bytes stay. -/
def Obligations.EncAbortDiscards : Prop := ∀ s : State, s.FifoOk → s.EncOk →
  ChecksThen .encAbort s [(s.ctrl.en = false, .eDisabled), (s.enc.isOpen = false, .eState)]
    fun t => t = { s with
        fifo := { s.fifo with head := s.fifo.blkStart }
        enc := ⟨false, 0, s.enc.len⟩
        cmdResult := 0
        cmdStatus := .ok } ∧
      t.live = s.live.take s.committed ∧ t.committed = s.committed

/-- R107, R171, R172, R175: ENC_I with LEN INF bytes supplied by ENC_DATA appends exactly the wire bytes of the I-block, with
its EDC, commits them and returns the block's length; no command of the sequence fails. -/
def Obligations.EncoderWritesBlock : Prop := ∀ (s : State) (m ns : Bool) (inf : List Byte),
  s.FifoOk → s.ConfigOk → s.ctrl.en = true → s.enc.isOpen = false → inf.length ≤ s.ifs.ifsc.toNat →
  3 + inf.length + edcLen s.ctrl.edcKind ≤ s.free →
  ∃ t, runOk (.encI m ns (BitVec.ofNat 8 inf.length) :: inf.map .encData) s = some t ∧
    t.live = s.live ++ blockBytes s.ctrl.edcKind s.nad.tx (pcbI m ns) inf ∧
    t.enc.isOpen = false ∧ t.committed = t.live.length ∧
    t.cmdResult.toNat = 3 + inf.length + edcLen s.ctrl.edcKind

/-- R177: the bytes the encoder writes for an I-, R- or S-block, delivered in order to the parser with the same kind and
node address, complete a frame with the same KIND, SEQ, MORE, CODE, LEN and INF, and EDC_OK = 1. -/
def Obligations.RoundTrip : Prop :=
  ∀ (s : State) (i : Instr) (inf : List Byte) (kind : BlockKind) (seq more : Bool) (code : BitVec 5),
  (∃ m ns, i = .encI m ns (BitVec.ofNat 8 inf.length) ∧ inf.length ≤ s.ifs.ifsc.toNat ∧
      kind = .iBlock ∧ seq = ns ∧ more = m ∧ code = 0) ∨
    (∃ c nr, i = .encR c nr ∧ inf = [] ∧ kind = .rBlock ∧ seq = nr ∧ more = false ∧ code = 0#1 ++ c) ∨
    (∃ c resp, i = .encS c resp (BitVec.ofNat 8 inf.length) ∧ inf.length ≤ 1 ∧
      kind = .sBlock ∧ seq = false ∧ more = resp ∧ code = c) →
  s.FifoOk → s.ConfigOk → s.ctrl.en = true → s.ctrl.rxMode = .t1 → s.rx.state = .addr → s.enc.isOpen = false →
  s.nad.rx = s.nad.tx → inf.length ≤ s.ifs.ifsd.toNat → 3 + inf.length + edcLen s.ctrl.edcKind ≤ s.free →
  ∃ t, runOk (i :: inf.map .encData) s = some t ∧
    ∃ u, runOk ((t.live.drop s.live.length).map .rxPush) t = some u ∧ u.rx.state = .done ∧
      u.rxInfo.kind = kind ∧ u.rxInfo.seq = seq ∧ u.rxInfo.more = more ∧ u.rxInfo.code = code ∧
      u.rxInfo.len.toNat = inf.length ∧ u.rxInfo.edcOk = true ∧
      (List.range inf.length).map (fun k => u.rxByte (3 + k)) = inf

/-! ### The receive path (43_decoder.md) -/

/-- R205, R206: RX_RESTART and RX_RELEASE; a CTRL write that changes RX_MODE (and does not disable the block) restarts the
receive path in the same way. -/
def Obligations.RxRestartAndRelease : Prop := ∀ s : State,
  let restarted (u : State) : State := { u with
    rx := { u.rx with
      state := if u.ctrl.rxMode = .raw then .raw else .addr
      count := 0, rawPerr := false, perr := false, len := 0 }
    rxInfo := RxInfo.zero
    rxErrCause := .none
    tmr := { u.tmr with ibt := ⟨0, false, false⟩ } }
  ChecksThen .rxRestart s [(s.ctrl.en = false, .eDisabled)]
    (fun t => t = { restarted s with cmdResult := 0, cmdStatus := .ok }) ∧
  (∀ v : Word, (s.ctrl.en = true → v.getLsbD 0 = true) → (v.getLsbD 4 = true ↔ s.ctrl.rxMode = .raw) →
    ∃ t, busWrite (s.params.base + 0x004) 4 v s = .next t ∧ t = restarted { s with ctrl := t.ctrl }) ∧
  ChecksThen .rxRelease s [(s.ctrl.en = false, .eDisabled), (s.rx.state ≠ .done, .eState)]
    (fun t => t = { s with rx := { s.rx with state := .addr, count := 0 }, cmdResult := 0, cmdStatus := .ok })

/-- R190, R207: a received byte and RX_PUSH.  With CTRL.EN = 1 the byte goes to the receive mode, unless it came from a
port that is not selected or is an echo still expected; a dropped byte changes nothing but the echo count.  RX_PUSH
works on any port and is never an echo. -/
def Obligations.ReceivedByteRouting : Prop := ∀ (s : State) (b : Byte) (perr : Bool),
  ChecksThen (.rxPush b) s [(s.ctrl.en = false, .eDisabled)]
    (fun t => t = { receiveByte b false s with cmdResult := 0, cmdStatus := .ok }) ∧
  (s.ctrl.en = false → ∀ src, deliver b perr src s = s) ∧
  (s.ctrl.en = true →
    (s.ctrl.port ≠ .uart → deliver b perr .uart s = s) ∧
    (s.ctrl.port ≠ .usb → deliver b perr .usb s = s) ∧
    (s.ctrl.port = .uart → s.ctrl.lbsEn = true → s.lbsCount ≠ 0 →
      deliver b perr .uart s = { s with lbsCount := s.lbsCount - 1 }) ∧
    (s.ctrl.port = .uart → s.ctrl.lbsEn = false ∨ s.lbsCount = 0 → deliver b perr .uart s = receiveByte b perr s) ∧
    (s.ctrl.port = .usb → deliver b perr .usb s = receiveByte b perr s))

/-- R191: RAW capture stores the byte at RX_COUNT while the buffer has room, else drops it with RX_OVF, and restarts the
inter-byte timer either way (TMO_IBT is never 0). -/
def Obligations.RawCapture : Prop := ∀ (s : State) (b : Byte) (perr : Bool), s.ctrl.rxMode = .raw → s.tmoIbt ≠ 0 →
  let t := receiveByte b perr s
  (s.rx.count.toNat < 512 →
    t = { s with
      rx := { s.rx with count := s.rx.count + 1, rawPerr := s.rx.rawPerr || perr }
      rxbuf := t.rxbuf
      tmr := { s.tmr with ibt := ⟨s.tmoIbt, true, true⟩ } } ∧
    t.rxByte s.rx.count.toNat = b ∧ ∀ k, k ≠ s.rx.count.toNat → t.rxByte k = s.rxByte k) ∧
  (512 ≤ s.rx.count.toNat →
    t = { s with irqPend := s.irqPend ||| 0x0004, tmr := { s.tmr with ibt := ⟨s.tmoIbt, true, true⟩ } })

/-- R193 to R196, R199, R203: one byte in the states ADDR, SKIP, PCB, LEN and DONE of the T1 parser. -/
def Obligations.ParserHeader : Prop := ∀ (s : State) (b : Byte) (perr : Bool), s.ctrl.rxMode = .t1 → s.tmoIbt ≠ 0 →
  let t := receiveByte b perr s
  let ibt : Timers := { s.tmr with ibt := ⟨s.tmoIbt, true, true⟩ }
  let k := s.ctrl.edcKind
  let stored (i : Nat) : Prop := t.rxByte i = b ∧ ∀ j, j ≠ i → t.rxByte j = s.rxByte j
  (s.rx.state = .addr → b = s.nad.rx →
    t = { s with
      rx := { s.rx with state := .pcb, count := 1, perr := perr, latch := k, acc := edcFeed k (edcInit k) b }
      rxbuf := t.rxbuf, tmr := ibt } ∧ stored 0) ∧
  (s.rx.state = .addr → b ≠ s.nad.rx → t = { s with rx := { s.rx with state := .skip }, tmr := ibt }) ∧
  (s.rx.state = .skip → t = { s with tmr := ibt }) ∧
  (s.rx.state = .pcb →
    t = { s with
      rx := { s.rx with state := .len, count := 2, perr := s.rx.perr || perr, acc := edcFeed s.rx.latch s.rx.acc b }
      rxbuf := t.rxbuf, tmr := ibt } ∧ stored 1) ∧
  (s.rx.state = .len →
    let refused := decide (b = 0xFF) || decide (s.ifs.ifsd < b)
    t = { s with
      rx := { s.rx with
        state := if refused then .skip else if b = 0 then .edc else .inf
        count := if refused then 0 else 3
        perr := s.rx.perr || perr, acc := edcFeed s.rx.latch s.rx.acc b, len := b }
      rxErrCause := if b = 0xFF then .lenReserved else if s.ifs.ifsd < b then .lenOverIfsd else s.rxErrCause
      irqPend := if refused then s.irqPend ||| 0x0002 else s.irqPend
      rxbuf := t.rxbuf, tmr := ibt } ∧ stored 2) ∧
  (s.rx.state = .done → t = { s with irqPend := s.irqPend ||| 0x0004 })

/-- R197, R198, R200 to R202: one byte in the states INF and EDC; the last EDC byte completes the frame, with RX_INFO from
the stored PCB, the length and the comparison of the received EDC bytes with the computed ones. -/
def Obligations.ParserPayload : Prop := ∀ (s : State) (b : Byte) (perr : Bool), s.ctrl.rxMode = .t1 → s.tmoIbt ≠ 0 →
  let t := receiveByte b perr s
  let ibt : Timers := { s.tmr with ibt := ⟨s.tmoIbt, true, true⟩ }
  let stored : Prop := t.rxByte s.rx.count.toNat = b ∧ ∀ j, j ≠ s.rx.count.toNat → t.rxByte j = s.rxByte j
  (s.rx.state = .inf →
    t = { s with
      rx := { s.rx with
        state := if (s.rx.count + 1).toNat = 3 + s.rx.len.toNat then .edc else .inf
        count := s.rx.count + 1, perr := s.rx.perr || perr, acc := edcFeed s.rx.latch s.rx.acc b }
      rxbuf := t.rxbuf, tmr := ibt } ∧ stored) ∧
  (s.rx.state = .edc → (s.rx.count + 1).toNat ≠ 3 + s.rx.len.toNat + edcLen s.rx.latch →
    t = { s with
      rx := { s.rx with count := s.rx.count + 1, perr := s.rx.perr || perr }
      rxbuf := t.rxbuf, tmr := ibt } ∧ stored) ∧
  (s.rx.state = .edc → (s.rx.count + 1).toNat = 3 + s.rx.len.toNat + edcLen s.rx.latch →
    let p := t.rxByte 1
    t = { s with
      rx := { s.rx with state := .done, count := s.rx.count + 1, perr := s.rx.perr || perr }
      rxInfo :=
        { pcb := p, len := s.rx.len, kind := (classify p).kind, seq := (classify p).seq, more := (classify p).more,
          code := (classify p).code, pcbRsvd := (classify p).rsvd, lenMismatch := lenMismatch p s.rx.len,
          edcOk := decide ((List.range (edcLen s.rx.latch)).map (fun j => t.rxByte (3 + s.rx.len.toNat + j)) =
            edcBytes s.rx.latch s.rx.acc),
          parityErr := s.rx.perr || perr, valid := true }
      irqPend := s.irqPend ||| 0x0001
      rxbuf := t.rxbuf, tmr := { s.tmr with ibt := ⟨0, false, false⟩ } } ∧ stored)

/-- R201, R202: what the parser says of a control byte, by kind, for every control byte and length. -/
def Obligations.ControlByteClasses : Prop :=
  (∀ (m ns : Bool) (low : BitVec 5) (len : Byte),
    let p : Byte := 0#1 ++ BitVec.ofBool ns ++ BitVec.ofBool m ++ low
    classify p = ⟨.iBlock, ns, m, 0, decide (low ≠ 0)⟩ ∧ lenMismatch p len = false) ∧
  (∀ (b5 nr : Bool) (code : BitVec 4) (len : Byte),
    let p : Byte := 0b10#2 ++ BitVec.ofBool b5 ++ BitVec.ofBool nr ++ code
    classify p = ⟨.rBlock, nr, false, 0#1 ++ code, b5 || decide (2 < code.toNat)⟩ ∧
    lenMismatch p len = decide (len ≠ 0)) ∧
  (∀ (resp : Bool) (scmd : BitVec 5) (len : Byte),
    let p : Byte := 0b11#2 ++ BitVec.ofBool resp ++ scmd
    classify p = ⟨.sBlock, false, resp, scmd, decide (4 < scmd.toNat) || (decide (scmd = 4) && !resp)⟩ ∧
    lenMismatch p len =
      if scmd = 1 ∨ scmd = 3 then decide (len ≠ 1) else if scmd.toNat ≤ 4 then decide (len ≠ 0) else false)

/-- R204: the expiry of the inter-byte timer on the receive path. -/
def Obligations.InterByteExpiry : Prop := ∀ s : State,
  (s.rx.state = .raw → onIbtExpiry s =
    { s with irqPend := if s.rx.count = 0 then s.irqPend else s.irqPend ||| 0x0008 }) ∧
  (s.rx.state = .skip → onIbtExpiry s = { s with rx := { s.rx with state := .addr } }) ∧
  (s.rx.state = .pcb ∨ s.rx.state = .len ∨ s.rx.state = .inf ∨ s.rx.state = .edc → onIbtExpiry s =
    { s with
      rx := { s.rx with state := .addr, count := 0 }
      rxErrCause := .ibtTimeout
      irqPend := s.irqPend ||| 0x0002 }) ∧
  (s.rx.state = .addr ∨ s.rx.state = .done → onIbtExpiry s = s)

/-- R209: from ADDR, the bytes of a frame complete exactly one frame, at the last byte and not before; the frame is in the
receive buffer and RX_INFO tells its fields and whether its EDC is right. -/
def Obligations.FrameCompletes : Prop := ∀ (s : State) (p : Byte) (inf edc : List Byte),
  s.ConfigOk → s.ctrl.en = true → s.ctrl.rxMode = .t1 → s.rx.state = .addr → inf.length ≤ s.ifs.ifsd.toNat →
  edc.length = edcLen s.ctrl.edcKind →
  let body := s.nad.rx :: p :: BitVec.ofNat 8 inf.length :: inf
  let bytes := body ++ edc
  (∀ j < bytes.length, ∃ u, runOk ((bytes.take j).map .rxPush) s = some u ∧ u.rx.state ≠ .done ∧
    u.irqPend = s.irqPend) ∧
  ∃ t, runOk (bytes.map .rxPush) s = some t ∧ t.rx.state = .done ∧ t.irqPend = s.irqPend ||| 0x0001 ∧
    t.rx.count.toNat = bytes.length ∧ (List.range bytes.length).map t.rxByte = bytes ∧
    t.rxInfo.pcb = p ∧ t.rxInfo.len.toNat = inf.length ∧
    (t.rxInfo.edcOk = true ↔
      edc = edcBytes s.ctrl.edcKind (edcFeedAll s.ctrl.edcKind (edcInit s.ctrl.edcKind) body)) ∧
    t.rxInfo.parityErr = false ∧ t.rxInfo.valid = true

/-! ### The timers (44_timers.md) -/

/-- R220, R221, R225, R226: TMR_START and TMR_STOP set one channel and leave the others; a start at 0 stops; TID = 3 fails
with E_ARG. -/
def Obligations.TimerStartStop : Prop := ∀ (s : State) (tid : BitVec 2) (ms : Half),
  ChecksThen (.tmrStart tid ms) s [(s.ctrl.en = false, .eDisabled), (tid = 3, .eArg)]
    (fun t => t = { s with tmr := t.tmr, cmdResult := 0, cmdStatus := .ok } ∧
      ∀ c, t.tmr.get c =
        if channelOf tid ≠ some c then s.tmr.get c else if ms = 0 then ⟨0, false, false⟩ else ⟨ms, true, true⟩) ∧
  ChecksThen (.tmrStop tid) s [(s.ctrl.en = false, .eDisabled), (tid = 3, .eArg)]
    (fun t => t = { s with tmr := t.tmr, cmdResult := 0, cmdStatus := .ok } ∧
      ∀ c, t.tmr.get c = if channelOf tid ≠ some c then s.tmr.get c else ⟨0, false, false⟩) ∧
  channelOf 0 = some .ibt ∧ channelOf 1 = some .atr ∧ channelOf 2 = some .rsp

/-- R222, R223: TICK.  With 0 it changes nothing.  Else the presence sample comes first (UART only), then every running
channel counts down, saturating at 0; a channel expires when it is at 0 and this is not its first call; the result and
the events tell which expired, and the inter-byte expiry acts on the receive path. -/
def Obligations.TickCountsDown : Prop := ∀ (s : State) (e : Half),
  ChecksThen (.tick e) s [(s.ctrl.en = false, .eDisabled)] fun t =>
    (e = 0 → t = { s with cmdResult := 0, cmdStatus := .ok }) ∧
    (e ≠ 0 →
      let p := if s.ctrl.port = .uart then presenceSample s else s
      let expires (c : Channel) : Bool :=
        (p.tmr.get c).run && !(p.tmr.get c).first && decide ((p.tmr.get c).rem.toNat ≤ e.toNat)
      let r := if expires .ibt then onIbtExpiry p else p
      t = { p with
        tmr := t.tmr, irqPend := t.irqPend, rx := r.rx, rxErrCause := r.rxErrCause
        cmdResult := t.cmdResult, cmdStatus := .ok } ∧
      (∀ c, (p.tmr.get c).run = false → t.tmr.get c = p.tmr.get c) ∧
      (∀ c, (p.tmr.get c).run = true → t.tmr.get c =
        ⟨BitVec.ofNat 16 ((p.tmr.get c).rem.toNat - e.toNat), !expires c, false⟩) ∧
      t.cmdResult = 0#13 ++ BitVec.ofBool (expires .rsp) ++ BitVec.ofBool (expires .atr) ++
        BitVec.ofBool (expires .ibt) ∧
      (∀ ev, t.isPending ev = (r.isPending ev || decide (ev = .ibtExp) && expires .ibt ||
        decide (ev = .atrExp) && expires .atr || decide (ev = .rspExp) && expires .rsp)))

/-- R228, R229: a channel started with `v` that meets only nonzero TICKs runs on while fewer than two TICKs came or their
sum is below `v`, with `v` less the sum left, saturating at 0; it expires at the first TICK that is at least the second and
brings the sum to `v`.  So one TICK never expires it.  A removal stops channel 0 on the UART port (R250), so for that
channel there the run is one without a removal: the presence level reads present, or no card was present, or too few TICKs
come for the debounce. -/
def Obligations.TimerExpiryTime : Prop := ∀ (s : State) (tid : BitVec 2) (c : Channel) (v : Half) (es : List Half),
  s.ctrl.en = true → channelOf tid = some c → v ≠ 0 → (∀ e ∈ es, e ≠ 0) →
  c ≠ .ibt ∨ s.ctrl.port ≠ .uart ∨ s.pinLevel = s.presCfg.pol ∨ s.present = false ∨
    s.debCnt.toNat + es.length < s.presCfg.n.toNat →
  ∃ t, runOk (.tmrStart tid v :: es.map .tick) s = some t ∧
    let sum := (es.map BitVec.toNat).sum
    ((t.tmr.get c).run = true ↔ es.length ≤ 1 ∨ sum < v.toNat) ∧
    ((t.tmr.get c).run = true → (t.tmr.get c).rem.toNat = v.toNat - sum)

/-! ### The transmit path and the UART port (45_uart_tx.md) -/

/-- R245, R261, R265: TX_SEND starts a UART send, or hands the XfrBlock message with the `n` oldest bytes to the bulk-out
pipe and advances the sequence number; no FIFO byte or index changes. -/
def Obligations.TxSendStarts : Prop := ∀ (s : State) (n : Half),
  ChecksThen (.txSend n) s
    [(s.ctrl.en = false, .eDisabled), (s.ctrl.port = .none, .ePort), (s.tx.busy = true, .eBusy), (n = 0, .eArg),
      (s.committed < n.toNat, .eEmpty)]
    fun t =>
      (s.ctrl.port = .uart → t = { s with tx := ⟨true, .uart, n, 0⟩, cmdResult := 0, cmdStatus := .ok }) ∧
      (s.ctrl.port = .usb → t = { s with
        usbOut := some ([0x6F, n.extractLsb' 0 8, n.extractLsb' 8 8, 0, 0, s.usbCfg.slot, s.usbSeq.next, 0, 0, 0] ++
          s.oldest n.toNat)
        tx := ⟨true, .usb, n, s.tx.cursor⟩
        usbSeq := ⟨s.usbSeq.next + 1, s.usbSeq.next, true⟩
        cmdResult := 0
        cmdStatus := .ok })

/-- R247: TX_STOP cancels the send in progress without an event, and withdraws a pending bulk-out message. -/
def Obligations.TxStopCancels : Prop := ∀ s : State,
  ChecksThen .txStop s [(s.ctrl.en = false, .eDisabled), (s.tx.busy = false, .eState)]
    fun t => t = { s with
      usbOut := if s.tx.portLatch = .usb then none else s.usbOut
      tx := { s.tx with busy := false, remain := 0 }
      cmdResult := 0
      cmdStatus := .ok }

/-- R244, R246: one LINE_TAKE.  The line gets the character of the byte at the cursor; with `ok` the cursor advances, the
echo is counted (saturating) while LBS_EN is 1, and the last byte ends the send with TX_DONE; with `fail` the send ends
with TX_FAIL at the point of failure. -/
def Obligations.LineTakesByte : Prop := ∀ s : State, s.tx.busy = true → s.tx.portLatch = .uart →
  let ch := lineEncode (s.at s.tx.cursor.toNat) s.ctrl.conv
  agentStep (.lineTake true) s = .next { s with
    tx := ⟨decide (s.tx.remain ≠ 1), .uart, s.tx.remain - 1, s.tx.cursor + 1⟩
    lbsCount := BitVec.ofNat 16 (if s.ctrl.lbsEn then min (s.lbsCount.toNat + 1) 0xFFFF else s.lbsCount.toNat)
    irqPend := if s.tx.remain = 1 then s.irqPend ||| 0x0010 else s.irqPend
    output := some (.lineChar ch.1 ch.2) } ∧
  agentStep (.lineTake false) s = .next { s with
    tx := { s.tx with busy := false }
    irqPend := s.irqPend ||| 0x0020 }

/-- R244, R245, R252: a UART send of `n` bytes puts the characters of the `n` oldest bytes on the line, in FIFO order, one
per LINE_TAKE, then ends with TX_DONE; the FIFO is as it was. -/
def Obligations.UartSendDelivers : Prop := ∀ (s : State) (n : Half),
  s.FifoOk → s.ctrl.en = true → s.ctrl.port = .uart → s.tx.busy = false → n ≠ 0 → n.toNat ≤ s.committed →
  ∃ t u, exec (.txSend n) s = .next t ∧
    runSteps (List.replicate n.toNat (.lineTake true)) t =
      some ((s.oldest n.toNat).map fun b =>
        some (.lineChar (lineEncode b s.ctrl.conv).1 (lineEncode b s.ctrl.conv).2), u) ∧
    u.tx.busy = false ∧ u.tx.remain = 0 ∧ u.fifo = s.fifo ∧ u.irqPend = s.irqPend ||| 0x0010

/-- R241, R243: a LINE_RX delivers the byte whose character it carries, marked with a parity error exactly when the parity
level is inverted, in either convention; and a character of the inverse convention reads, in the direct one, as the
inverted and reversed byte with a parity error (R341). -/
def Obligations.LineRxDelivers : Prop := ∀ (s : State) (b : Byte) (flip : Bool),
  (let ch := lineEncode b s.ctrl.conv
   agentStep (.lineRx ch.1 (ch.2 != flip)) s = .next (deliver b flip .uart s)) ∧
  lineDecode (lineEncode b .inverse).1 (lineEncode b .inverse).2 .direct = (~~~(bitrev8 b), true) ∧
  lineEncode 0x3F .inverse = (0x03, true)

/-- R246, R251: with LBS_EN = 1 and `k` echoes expected, the next `k` UART characters are discarded, whatever they carry,
and change nothing but the count; the character after them reaches the receive mode. -/
def Obligations.EchoesDiscarded : Prop := ∀ (s : State) (cs : List (Byte × Bool)) (d8 : Byte) (p : Bool),
  s.ctrl.en = true → s.ctrl.port = .uart → s.ctrl.lbsEn = true → s.lbsCount.toNat = cs.length →
  ∃ t outs, runSteps (cs.map fun c => .lineRx c.1 c.2) s = some (outs, t) ∧
    (cs ≠ [] → t = { s with lbsCount := 0, output := none }) ∧ t.lbsCount = 0 ∧
    agentStep (.lineRx d8 p) t =
      .next (receiveByte (lineDecode d8 p s.ctrl.conv).1 (lineDecode d8 p s.ctrl.conv).2 t)

/-- R249, R250: one presence sample: the run of differing samples, the change after N of them, CARD_IN, and the removal
that drops the contacts, the UART send (without TX_FAIL), the echo count, a frame in progress (without RX_ERR) and the
inter-byte timer. -/
def Obligations.PresenceSampling : Prop := ∀ s : State,
  let level := decide (s.pinLevel = s.presCfg.pol)
  (level = s.present → presenceSample s = { s with presPin := level, debCnt := 0 }) ∧
  (level ≠ s.present → s.debCnt + 1 < s.presCfg.n →
    presenceSample s = { s with presPin := level, debCnt := s.debCnt + 1 }) ∧
  (level ≠ s.present → s.presCfg.n ≤ s.debCnt + 1 → level = true →
    presenceSample s = { s with
      presPin := true, present := true, debCnt := 0, irqPend := s.irqPend ||| 0x0200 }) ∧
  (level ≠ s.present → s.presCfg.n ≤ s.debCnt + 1 → level = false → s.ctrl.port = .uart →
    let inFrame := decide (s.ctrl.rxMode = .t1) && decide (s.rx.state ∈ [.skip, .pcb, .len, .inf, .edc])
    presenceSample s = { s with
      presPin := false, present := false, debCnt := 0, irqPend := s.irqPend ||| 0x0400
      pinCtrl := ⟨false, false, false⟩
      tx := if s.tx.busy = true ∧ s.tx.portLatch = .uart then { s.tx with busy := false, remain := 0 } else s.tx
      lbsCount := 0
      rx := if inFrame then { s.rx with state := .addr, count := 0 } else s.rx
      tmr := { s.tmr with ibt := ⟨0, false, false⟩ } })

/-- R249: STATUS.PRESENT changes after exactly N consecutive nonzero TICKs that all see a level other than it, and not
before, with one event. -/
def Obligations.PresenceDebounce : Prop := ∀ (s : State) (es : List Half),
  s.ctrl.en = true → s.ctrl.port = .uart → s.presCfg.n ≠ 0 → s.debCnt = 0 →
  decide (s.pinLevel = s.presCfg.pol) ≠ s.present → (∀ e ∈ es, e ≠ 0) → es.length ≤ s.presCfg.n.toNat →
  ∃ t, runOk (es.map .tick) s = some t ∧
    (es.length < s.presCfg.n.toNat → t.present = s.present ∧ t.debCnt.toNat = es.length) ∧
    (es.length = s.presCfg.n.toNat → t.present = !s.present ∧ t.debCnt = 0 ∧
      t.isPending (if s.present then .cardOut else .cardIn) = true)

/-! ### The USB-CCID port (46_ccid.md) -/

/-- R261, R265, R268 to R271: the four CCID commands hand their message to the bulk-out pipe, with the slot and the next
sequence number, and advance the sequence number; CCID_SET_PARAMS carries the `n` oldest FIFO bytes.  Nothing else
changes. -/
def Obligations.CcidCommandsSend : Prop :=
  ∀ (s : State) (psel : BitVec 2) (proto : Bool) (n : Half),
  let sent (kind byte7 : Byte) (len : Half) (t : State) : Prop := t = { s with
    usbOut := some ([kind, len.extractLsb' 0 8, len.extractLsb' 8 8, 0, 0, s.usbCfg.slot, s.usbSeq.next, byte7, 0, 0] ++
      s.oldest len.toNat)
    tx := ⟨true, .usb, len, s.tx.cursor⟩
    usbSeq := ⟨s.usbSeq.next + 1, s.usbSeq.next, true⟩
    cmdResult := 0
    cmdStatus := .ok }
  let checks := [(s.ctrl.en = false, CmdCode.eDisabled), (s.ctrl.port ≠ .usb, .ePort), (s.tx.busy = true, .eBusy)]
  ChecksThen (.ccidPowerOn psel) s checks (sent 0x62 (0#6 ++ psel) 0) ∧
  ChecksThen .ccidPowerOff s checks (sent 0x63 0 0) ∧
  ChecksThen .ccidGetParams s checks (sent 0x6C 0 0) ∧
  ChecksThen (.ccidSetParams proto n) s (checks ++ [(s.committed < n.toNat, .eEmpty)])
    (sent 0x61 (0#7 ++ BitVec.ofBool proto) n)

/-- R263: USB_ACCEPT takes the pending message, which is the step's output with either outcome (the latch is log 9), ends
the send and raises TX_DONE or TX_FAIL. -/
def Obligations.UsbAcceptTakesMessage : Prop := ∀ (s : State) (m : List Byte), s.usbOut = some m →
  agentStep (.usbAccept true) s = .next { s with
    usbOut := none, tx := { s.tx with busy := false, remain := 0 }
    irqPend := s.irqPend ||| 0x0010, output := some (.bulkOut m) } ∧
  agentStep (.usbAccept false) s = .next { s with
    usbOut := none, tx := { s.tx with busy := false, remain := 0 }
    irqPend := s.irqPend ||| 0x0020, output := some (.bulkOut m) }

/-- R50, R266: a bulk-in message.  With CTRL.EN = 0 or another port selected it changes nothing, CCID_RSP included.  Else
its header is captured, the checks SHORT, LENGTH, SLOT, SEQ and TYPE decide in that order, and an accepted message delivers
its payload (0x80, 0x82) or nothing (0x81) and raises USB_RESP.  That 10 + dwLength is compared without wrapping at 32 bits
is the model's reading (log 17). -/
def Obligations.BulkInChecks : Prop := ∀ (s : State) (m : List Byte),
  (s.ctrl.en = false ∨ s.ctrl.port ≠ .usb → agentStep (.usbIn m) s = .next s) ∧
  (s.ctrl.en = true → s.ctrl.port = .usb →
    let byte (k : Nat) : Byte := m.getD k 0
    let rsp (t : State) : Prop := ∀ k < 10,
      ((Reg.ccidRsp2.read t ++ Reg.ccidRsp1.read t ++ Reg.ccidRsp0.read t).extractLsb' (8 * k) 8) = byte k
    let len := (byte 1).toNat + 2 ^ 8 * (byte 2).toNat + 2 ^ 16 * (byte 3).toNat + 2 ^ 24 * (byte 4).toNat
    let slot := byte 5 = s.usbCfg.slot
    let seq := s.usbSeq.lastValid = true ∧ byte 6 = s.usbSeq.last
    let error (c : UsbErrCause) (t : State) : Prop :=
      t = { s with ccidRsp := t.ccidRsp, usbErrCause := c, irqPend := s.irqPend ||| 0x2000 }
    ∃ t, agentStep (.usbIn m) s = .next t ∧
    (m.length < 10 → error .short t ∧ t.ccidRsp = s.ccidRsp) ∧
    (10 ≤ m.length → rsp t ∧
      (10 + len ≠ m.length → error .length t) ∧
      (10 + len = m.length → ¬slot → error .slot t) ∧
      (10 + len = m.length → slot → ¬seq → error .seq t) ∧
      (10 + len = m.length → slot → seq → byte 0 ≠ 0x80 → byte 0 ≠ 0x81 → byte 0 ≠ 0x82 → error .type t) ∧
      (10 + len = m.length → slot → seq → byte 0 = 0x81 →
        t = { s with ccidRsp := t.ccidRsp, irqPend := s.irqPend ||| 0x1000 }) ∧
      (10 + len = m.length → slot → seq → byte 0 = 0x80 ∨ byte 0 = 0x82 →
        let u := deliverAll (m.drop 10) { s with ccidRsp := t.ccidRsp }
        t = { u with irqPend := u.irqPend ||| 0x1000 })))

/-- R267: an interrupt-in message.  With CTRL.EN = 0 or another port selected it changes nothing.  Else a NotifySlotChange
that covers the slot sets STATUS.PRESENT and raises CARD_IN or CARD_OUT when the slot's bit differs from it; any other
message changes nothing. -/
def Obligations.UsbPresence : Prop := ∀ (s : State) (m : List Byte),
  (s.ctrl.en = false ∨ s.ctrl.port ≠ .usb → agentStep (.usbInt m) s = .next s) ∧
  (s.ctrl.en = true → s.ctrl.port = .usb →
    let k := s.usbCfg.slot.toNat
    let v := (m.getD (1 + k / 4) 0).getLsbD (2 * (k % 4))
    let notifies := 2 + k / 4 ≤ m.length ∧ m.getD 0 0 = 0x50
    (notifies → v ≠ s.present → agentStep (.usbInt m) s =
      .next { s with present := v, irqPend := s.irqPend ||| (if v then 0x0200 else 0x0400) }) ∧
    (¬notifies ∨ v = s.present → agentStep (.usbInt m) s = .next s))

/-- R273: the receive path ends in the same state whether bytes come as the payloads of accepted 0x80 messages, however
they are split, or as LINE_RX characters with right parity and no echo expected; only the selected port differs.  That a
payload within 10 bytes of 2^32 is accepted is the model's reading (log 17). -/
def Obligations.TransportAgnostic : Prop :=
  ∀ (s : State) (parts : List (List Byte)) (b7 b8 b9 : Byte),
  s.ctrl.en = true → s.ctrl.port = .usb → s.usbSeq.lastValid = true → (∀ p ∈ parts, p.length < 2 ^ 32) →
  let message (p : List Byte) : List Byte :=
    [0x80] ++ byteLanes (BitVec.ofNat 32 p.length) ++ [s.usbCfg.slot, s.usbSeq.last, b7, b8, b9] ++ p
  let uart : State := { s with ctrl := { s.ctrl with port := .uart }, lbsCount := 0 }
  ∃ o1 o2 t u, runSteps (parts.map fun p => .usbIn (message p)) s = some (o1, t) ∧
    runSteps (parts.flatten.map fun b => .lineRx (lineEncode b s.ctrl.conv).1 (lineEncode b s.ctrl.conv).2) uart =
      some (o2, u) ∧
    t.rx = u.rx ∧ t.rxbuf = u.rxbuf ∧ t.rxInfo = u.rxInfo ∧ t.rxErrCause = u.rxErrCause ∧ t.tmr = u.tmr ∧
    (∀ e, e ≠ .usbResp → t.isPending e = u.isPending e)

/-! ### The system commands (47_system.md) -/

/-- R291: SOFT_RESET, in every state: what it clears, and that it keeps everything else: the configuration, the contacts,
USB_SEQ.NEXT, IRQ_EN, presence and the storage bytes.  A CTRL write that changes EN from 1 to 0 does the same. -/
def Obligations.SoftResetClears : Prop := ∀ s : State,
  let cleared (u : State) : State := { u with
    fifo := ⟨u.fifo.cells, 0, 0, 0⟩
    enc := ⟨false, 0, 0⟩
    edc := ⟨0, .lrc⟩
    tx := ⟨false, .none, 0, 0⟩
    usbOut := none
    lbsCount := 0
    rx := ⟨if u.ctrl.rxMode = .raw then .raw else .addr, 0, false, false, 0, .lrc, 0⟩
    rxInfo := RxInfo.zero
    rxErrCause := .none
    tmr := ⟨⟨0, false, false⟩, ⟨0, false, false⟩, ⟨0, false, false⟩⟩
    usbSeq := ⟨u.usbSeq.next, 0, false⟩
    ccidRsp := ⟨0, 0, 0⟩
    usbErrCause := .none
    irqPend := 0
    cmdResult := 0
    cmdStatus := .ok }
  exec .softReset s = .next (cleared s) ∧
  ∀ v : Word, s.ctrl.en = true → v.getLsbD 0 = false →
    ∃ t, busWrite (s.params.base + 0x004) 4 v s = .next t ∧ t = cleared { s with ctrl := t.ctrl }

/-- R290, R292: in every state, with CTRL.EN = 0 too, NOP writes the outcome alone, and CFG_DEFAULTS gives the
configuration its hardware reset values, writes the outcome, and nothing else. -/
def Obligations.NopAndCfgDefaults : Prop := ∀ s : State,
  exec .nop s = .next { s with cmdResult := 0, cmdStatus := .ok } ∧
  exec .cfgDefaults s = .next { s with
    nad := ⟨0, 0⟩
    ifs := ⟨s.params.ifsDefault, s.params.ifsDefault⟩
    tmoIbt := s.params.ibtDefaultMs
    presCfg := ⟨s.params.presNDefault, true⟩
    uartCfg := ⟨s.params.etuDefault, s.params.clkdivDefault⟩
    usbCfg := ⟨0, false⟩
    ctrl := { s.ctrl with edcKind := .lrc }
    cmdResult := 0
    cmdStatus := .ok }

end
end

