-- ==== Sys2Proof/Laws/State.lean ====
section
/-! SUPPORT. What each named update of the state does to each field, one lemma per field, so that no proof unfolds a
record update. -/

namespace Sys2Proof.Machine

/-! ### writeRx -/

@[simp] theorem State.writeRx_params (s : State) (k : Nat) (b : Byte) : (s.writeRx k b).params = s.params := rfl
@[simp] theorem State.writeRx_ctrl (s : State) (k : Nat) (b : Byte) : (s.writeRx k b).ctrl = s.ctrl := rfl
@[simp] theorem State.writeRx_nad (s : State) (k : Nat) (b : Byte) : (s.writeRx k b).nad = s.nad := rfl
@[simp] theorem State.writeRx_ifs (s : State) (k : Nat) (b : Byte) : (s.writeRx k b).ifs = s.ifs := rfl
@[simp] theorem State.writeRx_tmoIbt (s : State) (k : Nat) (b : Byte) : (s.writeRx k b).tmoIbt = s.tmoIbt := rfl
@[simp] theorem State.writeRx_presCfg (s : State) (k : Nat) (b : Byte) : (s.writeRx k b).presCfg = s.presCfg := rfl
@[simp] theorem State.writeRx_pinCtrl (s : State) (k : Nat) (b : Byte) : (s.writeRx k b).pinCtrl = s.pinCtrl := rfl
@[simp] theorem State.writeRx_uartCfg (s : State) (k : Nat) (b : Byte) : (s.writeRx k b).uartCfg = s.uartCfg := rfl
@[simp] theorem State.writeRx_usbCfg (s : State) (k : Nat) (b : Byte) : (s.writeRx k b).usbCfg = s.usbCfg := rfl
@[simp] theorem State.writeRx_usbSeq (s : State) (k : Nat) (b : Byte) : (s.writeRx k b).usbSeq = s.usbSeq := rfl
@[simp] theorem State.writeRx_irqEn (s : State) (k : Nat) (b : Byte) : (s.writeRx k b).irqEn = s.irqEn := rfl
@[simp] theorem State.writeRx_irqPend (s : State) (k : Nat) (b : Byte) : (s.writeRx k b).irqPend = s.irqPend := rfl
@[simp] theorem State.writeRx_cmdResult (s : State) (k : Nat) (b : Byte) :
    (s.writeRx k b).cmdResult = s.cmdResult := rfl
@[simp] theorem State.writeRx_cmdStatus (s : State) (k : Nat) (b : Byte) :
    (s.writeRx k b).cmdStatus = s.cmdStatus := rfl
@[simp] theorem State.writeRx_edc (s : State) (k : Nat) (b : Byte) : (s.writeRx k b).edc = s.edc := rfl
@[simp] theorem State.writeRx_fifo (s : State) (k : Nat) (b : Byte) : (s.writeRx k b).fifo = s.fifo := rfl
@[simp] theorem State.writeRx_enc (s : State) (k : Nat) (b : Byte) : (s.writeRx k b).enc = s.enc := rfl
@[simp] theorem State.writeRx_tx (s : State) (k : Nat) (b : Byte) : (s.writeRx k b).tx = s.tx := rfl
@[simp] theorem State.writeRx_usbOut (s : State) (k : Nat) (b : Byte) : (s.writeRx k b).usbOut = s.usbOut := rfl
@[simp] theorem State.writeRx_rx (s : State) (k : Nat) (b : Byte) : (s.writeRx k b).rx = s.rx := rfl
@[simp] theorem State.writeRx_rxInfo (s : State) (k : Nat) (b : Byte) : (s.writeRx k b).rxInfo = s.rxInfo := rfl
@[simp] theorem State.writeRx_rxErrCause (s : State) (k : Nat) (b : Byte) :
    (s.writeRx k b).rxErrCause = s.rxErrCause := rfl
@[simp] theorem State.writeRx_rxbuf (s : State) (k : Nat) (b : Byte) :
    (s.writeRx k b).rxbuf = Memory.write s.rxbuf k b := rfl
@[simp] theorem State.writeRx_tmr (s : State) (k : Nat) (b : Byte) : (s.writeRx k b).tmr = s.tmr := rfl
@[simp] theorem State.writeRx_present (s : State) (k : Nat) (b : Byte) : (s.writeRx k b).present = s.present := rfl
@[simp] theorem State.writeRx_presPin (s : State) (k : Nat) (b : Byte) : (s.writeRx k b).presPin = s.presPin := rfl
@[simp] theorem State.writeRx_debCnt (s : State) (k : Nat) (b : Byte) : (s.writeRx k b).debCnt = s.debCnt := rfl
@[simp] theorem State.writeRx_pinLevel (s : State) (k : Nat) (b : Byte) : (s.writeRx k b).pinLevel = s.pinLevel := rfl
@[simp] theorem State.writeRx_lbsCount (s : State) (k : Nat) (b : Byte) : (s.writeRx k b).lbsCount = s.lbsCount := rfl
@[simp] theorem State.writeRx_ccidRsp (s : State) (k : Nat) (b : Byte) : (s.writeRx k b).ccidRsp = s.ccidRsp := rfl
@[simp] theorem State.writeRx_usbErrCause (s : State) (k : Nat) (b : Byte) :
    (s.writeRx k b).usbErrCause = s.usbErrCause := rfl
@[simp] theorem State.writeRx_resets (s : State) (k : Nat) (b : Byte) : (s.writeRx k b).resets = s.resets := rfl
@[simp] theorem State.writeRx_pending (s : State) (k : Nat) (b : Byte) : (s.writeRx k b).pending = s.pending := rfl
@[simp] theorem State.writeRx_output (s : State) (k : Nat) (b : Byte) : (s.writeRx k b).output = s.output := rfl

/-! ### push -/

@[simp] theorem State.push_params (s : State) (b : Byte) : (s.push b).params = s.params := rfl
@[simp] theorem State.push_ctrl (s : State) (b : Byte) : (s.push b).ctrl = s.ctrl := rfl
@[simp] theorem State.push_nad (s : State) (b : Byte) : (s.push b).nad = s.nad := rfl
@[simp] theorem State.push_ifs (s : State) (b : Byte) : (s.push b).ifs = s.ifs := rfl
@[simp] theorem State.push_tmoIbt (s : State) (b : Byte) : (s.push b).tmoIbt = s.tmoIbt := rfl
@[simp] theorem State.push_presCfg (s : State) (b : Byte) : (s.push b).presCfg = s.presCfg := rfl
@[simp] theorem State.push_pinCtrl (s : State) (b : Byte) : (s.push b).pinCtrl = s.pinCtrl := rfl
@[simp] theorem State.push_uartCfg (s : State) (b : Byte) : (s.push b).uartCfg = s.uartCfg := rfl
@[simp] theorem State.push_usbCfg (s : State) (b : Byte) : (s.push b).usbCfg = s.usbCfg := rfl
@[simp] theorem State.push_usbSeq (s : State) (b : Byte) : (s.push b).usbSeq = s.usbSeq := rfl
@[simp] theorem State.push_irqEn (s : State) (b : Byte) : (s.push b).irqEn = s.irqEn := rfl
@[simp] theorem State.push_irqPend (s : State) (b : Byte) : (s.push b).irqPend = s.irqPend := rfl
@[simp] theorem State.push_cmdResult (s : State) (b : Byte) : (s.push b).cmdResult = s.cmdResult := rfl
@[simp] theorem State.push_cmdStatus (s : State) (b : Byte) : (s.push b).cmdStatus = s.cmdStatus := rfl
@[simp] theorem State.push_edc (s : State) (b : Byte) : (s.push b).edc = s.edc := rfl
@[simp] theorem State.push_fifo (s : State) (b : Byte) :
    (s.push b).fifo = ⟨Memory.write s.fifo.cells s.fifo.head.toNat b, indexAfter s.depth s.fifo.head 1, s.fifo.tail, s.fifo.blkStart⟩ := rfl
@[simp] theorem State.push_enc (s : State) (b : Byte) : (s.push b).enc = s.enc := rfl
@[simp] theorem State.push_tx (s : State) (b : Byte) : (s.push b).tx = s.tx := rfl
@[simp] theorem State.push_usbOut (s : State) (b : Byte) : (s.push b).usbOut = s.usbOut := rfl
@[simp] theorem State.push_rx (s : State) (b : Byte) : (s.push b).rx = s.rx := rfl
@[simp] theorem State.push_rxInfo (s : State) (b : Byte) : (s.push b).rxInfo = s.rxInfo := rfl
@[simp] theorem State.push_rxErrCause (s : State) (b : Byte) : (s.push b).rxErrCause = s.rxErrCause := rfl
@[simp] theorem State.push_rxbuf (s : State) (b : Byte) : (s.push b).rxbuf = s.rxbuf := rfl
@[simp] theorem State.push_tmr (s : State) (b : Byte) : (s.push b).tmr = s.tmr := rfl
@[simp] theorem State.push_present (s : State) (b : Byte) : (s.push b).present = s.present := rfl
@[simp] theorem State.push_presPin (s : State) (b : Byte) : (s.push b).presPin = s.presPin := rfl
@[simp] theorem State.push_debCnt (s : State) (b : Byte) : (s.push b).debCnt = s.debCnt := rfl
@[simp] theorem State.push_pinLevel (s : State) (b : Byte) : (s.push b).pinLevel = s.pinLevel := rfl
@[simp] theorem State.push_lbsCount (s : State) (b : Byte) : (s.push b).lbsCount = s.lbsCount := rfl
@[simp] theorem State.push_ccidRsp (s : State) (b : Byte) : (s.push b).ccidRsp = s.ccidRsp := rfl
@[simp] theorem State.push_usbErrCause (s : State) (b : Byte) : (s.push b).usbErrCause = s.usbErrCause := rfl
@[simp] theorem State.push_resets (s : State) (b : Byte) : (s.push b).resets = s.resets := rfl
@[simp] theorem State.push_pending (s : State) (b : Byte) : (s.push b).pending = s.pending := rfl
@[simp] theorem State.push_output (s : State) (b : Byte) : (s.push b).output = s.output := rfl

/-! ### dropOldest -/

@[simp] theorem State.dropOldest_params (s : State) (n : Nat) : (s.dropOldest n).params = s.params := rfl
@[simp] theorem State.dropOldest_ctrl (s : State) (n : Nat) : (s.dropOldest n).ctrl = s.ctrl := rfl
@[simp] theorem State.dropOldest_nad (s : State) (n : Nat) : (s.dropOldest n).nad = s.nad := rfl
@[simp] theorem State.dropOldest_ifs (s : State) (n : Nat) : (s.dropOldest n).ifs = s.ifs := rfl
@[simp] theorem State.dropOldest_tmoIbt (s : State) (n : Nat) : (s.dropOldest n).tmoIbt = s.tmoIbt := rfl
@[simp] theorem State.dropOldest_presCfg (s : State) (n : Nat) : (s.dropOldest n).presCfg = s.presCfg := rfl
@[simp] theorem State.dropOldest_pinCtrl (s : State) (n : Nat) : (s.dropOldest n).pinCtrl = s.pinCtrl := rfl
@[simp] theorem State.dropOldest_uartCfg (s : State) (n : Nat) : (s.dropOldest n).uartCfg = s.uartCfg := rfl
@[simp] theorem State.dropOldest_usbCfg (s : State) (n : Nat) : (s.dropOldest n).usbCfg = s.usbCfg := rfl
@[simp] theorem State.dropOldest_usbSeq (s : State) (n : Nat) : (s.dropOldest n).usbSeq = s.usbSeq := rfl
@[simp] theorem State.dropOldest_irqEn (s : State) (n : Nat) : (s.dropOldest n).irqEn = s.irqEn := rfl
@[simp] theorem State.dropOldest_irqPend (s : State) (n : Nat) : (s.dropOldest n).irqPend = s.irqPend := rfl
@[simp] theorem State.dropOldest_cmdResult (s : State) (n : Nat) : (s.dropOldest n).cmdResult = s.cmdResult := rfl
@[simp] theorem State.dropOldest_cmdStatus (s : State) (n : Nat) : (s.dropOldest n).cmdStatus = s.cmdStatus := rfl
@[simp] theorem State.dropOldest_edc (s : State) (n : Nat) : (s.dropOldest n).edc = s.edc := rfl
@[simp] theorem State.dropOldest_fifo (s : State) (n : Nat) :
    (s.dropOldest n).fifo = { s.fifo with tail := indexAfter s.depth s.fifo.tail n } := rfl
@[simp] theorem State.dropOldest_enc (s : State) (n : Nat) : (s.dropOldest n).enc = s.enc := rfl
@[simp] theorem State.dropOldest_tx (s : State) (n : Nat) : (s.dropOldest n).tx = s.tx := rfl
@[simp] theorem State.dropOldest_usbOut (s : State) (n : Nat) : (s.dropOldest n).usbOut = s.usbOut := rfl
@[simp] theorem State.dropOldest_rx (s : State) (n : Nat) : (s.dropOldest n).rx = s.rx := rfl
@[simp] theorem State.dropOldest_rxInfo (s : State) (n : Nat) : (s.dropOldest n).rxInfo = s.rxInfo := rfl
@[simp] theorem State.dropOldest_rxErrCause (s : State) (n : Nat) : (s.dropOldest n).rxErrCause = s.rxErrCause := rfl
@[simp] theorem State.dropOldest_rxbuf (s : State) (n : Nat) : (s.dropOldest n).rxbuf = s.rxbuf := rfl
@[simp] theorem State.dropOldest_tmr (s : State) (n : Nat) : (s.dropOldest n).tmr = s.tmr := rfl
@[simp] theorem State.dropOldest_present (s : State) (n : Nat) : (s.dropOldest n).present = s.present := rfl
@[simp] theorem State.dropOldest_presPin (s : State) (n : Nat) : (s.dropOldest n).presPin = s.presPin := rfl
@[simp] theorem State.dropOldest_debCnt (s : State) (n : Nat) : (s.dropOldest n).debCnt = s.debCnt := rfl
@[simp] theorem State.dropOldest_pinLevel (s : State) (n : Nat) : (s.dropOldest n).pinLevel = s.pinLevel := rfl
@[simp] theorem State.dropOldest_lbsCount (s : State) (n : Nat) : (s.dropOldest n).lbsCount = s.lbsCount := rfl
@[simp] theorem State.dropOldest_ccidRsp (s : State) (n : Nat) : (s.dropOldest n).ccidRsp = s.ccidRsp := rfl
@[simp] theorem State.dropOldest_usbErrCause (s : State) (n : Nat) :
    (s.dropOldest n).usbErrCause = s.usbErrCause := rfl
@[simp] theorem State.dropOldest_resets (s : State) (n : Nat) : (s.dropOldest n).resets = s.resets := rfl
@[simp] theorem State.dropOldest_pending (s : State) (n : Nat) : (s.dropOldest n).pending = s.pending := rfl
@[simp] theorem State.dropOldest_output (s : State) (n : Nat) : (s.dropOldest n).output = s.output := rfl

/-! ### startEdc -/

@[simp] theorem State.startEdc_params (s : State) : (s.startEdc).params = s.params := rfl
@[simp] theorem State.startEdc_ctrl (s : State) : (s.startEdc).ctrl = s.ctrl := rfl
@[simp] theorem State.startEdc_nad (s : State) : (s.startEdc).nad = s.nad := rfl
@[simp] theorem State.startEdc_ifs (s : State) : (s.startEdc).ifs = s.ifs := rfl
@[simp] theorem State.startEdc_tmoIbt (s : State) : (s.startEdc).tmoIbt = s.tmoIbt := rfl
@[simp] theorem State.startEdc_presCfg (s : State) : (s.startEdc).presCfg = s.presCfg := rfl
@[simp] theorem State.startEdc_pinCtrl (s : State) : (s.startEdc).pinCtrl = s.pinCtrl := rfl
@[simp] theorem State.startEdc_uartCfg (s : State) : (s.startEdc).uartCfg = s.uartCfg := rfl
@[simp] theorem State.startEdc_usbCfg (s : State) : (s.startEdc).usbCfg = s.usbCfg := rfl
@[simp] theorem State.startEdc_usbSeq (s : State) : (s.startEdc).usbSeq = s.usbSeq := rfl
@[simp] theorem State.startEdc_irqEn (s : State) : (s.startEdc).irqEn = s.irqEn := rfl
@[simp] theorem State.startEdc_irqPend (s : State) : (s.startEdc).irqPend = s.irqPend := rfl
@[simp] theorem State.startEdc_cmdResult (s : State) : (s.startEdc).cmdResult = s.cmdResult := rfl
@[simp] theorem State.startEdc_cmdStatus (s : State) : (s.startEdc).cmdStatus = s.cmdStatus := rfl
@[simp] theorem State.startEdc_edc (s : State) : (s.startEdc).edc = ⟨edcInit s.ctrl.edcKind, s.ctrl.edcKind⟩ := rfl
@[simp] theorem State.startEdc_fifo (s : State) : (s.startEdc).fifo = s.fifo := rfl
@[simp] theorem State.startEdc_enc (s : State) : (s.startEdc).enc = s.enc := rfl
@[simp] theorem State.startEdc_tx (s : State) : (s.startEdc).tx = s.tx := rfl
@[simp] theorem State.startEdc_usbOut (s : State) : (s.startEdc).usbOut = s.usbOut := rfl
@[simp] theorem State.startEdc_rx (s : State) : (s.startEdc).rx = s.rx := rfl
@[simp] theorem State.startEdc_rxInfo (s : State) : (s.startEdc).rxInfo = s.rxInfo := rfl
@[simp] theorem State.startEdc_rxErrCause (s : State) : (s.startEdc).rxErrCause = s.rxErrCause := rfl
@[simp] theorem State.startEdc_rxbuf (s : State) : (s.startEdc).rxbuf = s.rxbuf := rfl
@[simp] theorem State.startEdc_tmr (s : State) : (s.startEdc).tmr = s.tmr := rfl
@[simp] theorem State.startEdc_present (s : State) : (s.startEdc).present = s.present := rfl
@[simp] theorem State.startEdc_presPin (s : State) : (s.startEdc).presPin = s.presPin := rfl
@[simp] theorem State.startEdc_debCnt (s : State) : (s.startEdc).debCnt = s.debCnt := rfl
@[simp] theorem State.startEdc_pinLevel (s : State) : (s.startEdc).pinLevel = s.pinLevel := rfl
@[simp] theorem State.startEdc_lbsCount (s : State) : (s.startEdc).lbsCount = s.lbsCount := rfl
@[simp] theorem State.startEdc_ccidRsp (s : State) : (s.startEdc).ccidRsp = s.ccidRsp := rfl
@[simp] theorem State.startEdc_usbErrCause (s : State) : (s.startEdc).usbErrCause = s.usbErrCause := rfl
@[simp] theorem State.startEdc_resets (s : State) : (s.startEdc).resets = s.resets := rfl
@[simp] theorem State.startEdc_pending (s : State) : (s.startEdc).pending = s.pending := rfl
@[simp] theorem State.startEdc_output (s : State) : (s.startEdc).output = s.output := rfl

/-! ### feed -/

@[simp] theorem State.feed_params (s : State) (b : Byte) : (s.feed b).params = s.params := rfl
@[simp] theorem State.feed_ctrl (s : State) (b : Byte) : (s.feed b).ctrl = s.ctrl := rfl
@[simp] theorem State.feed_nad (s : State) (b : Byte) : (s.feed b).nad = s.nad := rfl
@[simp] theorem State.feed_ifs (s : State) (b : Byte) : (s.feed b).ifs = s.ifs := rfl
@[simp] theorem State.feed_tmoIbt (s : State) (b : Byte) : (s.feed b).tmoIbt = s.tmoIbt := rfl
@[simp] theorem State.feed_presCfg (s : State) (b : Byte) : (s.feed b).presCfg = s.presCfg := rfl
@[simp] theorem State.feed_pinCtrl (s : State) (b : Byte) : (s.feed b).pinCtrl = s.pinCtrl := rfl
@[simp] theorem State.feed_uartCfg (s : State) (b : Byte) : (s.feed b).uartCfg = s.uartCfg := rfl
@[simp] theorem State.feed_usbCfg (s : State) (b : Byte) : (s.feed b).usbCfg = s.usbCfg := rfl
@[simp] theorem State.feed_usbSeq (s : State) (b : Byte) : (s.feed b).usbSeq = s.usbSeq := rfl
@[simp] theorem State.feed_irqEn (s : State) (b : Byte) : (s.feed b).irqEn = s.irqEn := rfl
@[simp] theorem State.feed_irqPend (s : State) (b : Byte) : (s.feed b).irqPend = s.irqPend := rfl
@[simp] theorem State.feed_cmdResult (s : State) (b : Byte) : (s.feed b).cmdResult = s.cmdResult := rfl
@[simp] theorem State.feed_cmdStatus (s : State) (b : Byte) : (s.feed b).cmdStatus = s.cmdStatus := rfl
@[simp] theorem State.feed_edc (s : State) (b : Byte) :
    (s.feed b).edc = ⟨edcFeed s.edc.latch s.edc.acc b, s.edc.latch⟩ := rfl
@[simp] theorem State.feed_fifo (s : State) (b : Byte) : (s.feed b).fifo = s.fifo := rfl
@[simp] theorem State.feed_enc (s : State) (b : Byte) : (s.feed b).enc = s.enc := rfl
@[simp] theorem State.feed_tx (s : State) (b : Byte) : (s.feed b).tx = s.tx := rfl
@[simp] theorem State.feed_usbOut (s : State) (b : Byte) : (s.feed b).usbOut = s.usbOut := rfl
@[simp] theorem State.feed_rx (s : State) (b : Byte) : (s.feed b).rx = s.rx := rfl
@[simp] theorem State.feed_rxInfo (s : State) (b : Byte) : (s.feed b).rxInfo = s.rxInfo := rfl
@[simp] theorem State.feed_rxErrCause (s : State) (b : Byte) : (s.feed b).rxErrCause = s.rxErrCause := rfl
@[simp] theorem State.feed_rxbuf (s : State) (b : Byte) : (s.feed b).rxbuf = s.rxbuf := rfl
@[simp] theorem State.feed_tmr (s : State) (b : Byte) : (s.feed b).tmr = s.tmr := rfl
@[simp] theorem State.feed_present (s : State) (b : Byte) : (s.feed b).present = s.present := rfl
@[simp] theorem State.feed_presPin (s : State) (b : Byte) : (s.feed b).presPin = s.presPin := rfl
@[simp] theorem State.feed_debCnt (s : State) (b : Byte) : (s.feed b).debCnt = s.debCnt := rfl
@[simp] theorem State.feed_pinLevel (s : State) (b : Byte) : (s.feed b).pinLevel = s.pinLevel := rfl
@[simp] theorem State.feed_lbsCount (s : State) (b : Byte) : (s.feed b).lbsCount = s.lbsCount := rfl
@[simp] theorem State.feed_ccidRsp (s : State) (b : Byte) : (s.feed b).ccidRsp = s.ccidRsp := rfl
@[simp] theorem State.feed_usbErrCause (s : State) (b : Byte) : (s.feed b).usbErrCause = s.usbErrCause := rfl
@[simp] theorem State.feed_resets (s : State) (b : Byte) : (s.feed b).resets = s.resets := rfl
@[simp] theorem State.feed_pending (s : State) (b : Byte) : (s.feed b).pending = s.pending := rfl
@[simp] theorem State.feed_output (s : State) (b : Byte) : (s.feed b).output = s.output := rfl

/-! ### stopTimer -/

@[simp] theorem State.stopTimer_params (s : State) (c : Channel) : (s.stopTimer c).params = s.params := rfl
@[simp] theorem State.stopTimer_ctrl (s : State) (c : Channel) : (s.stopTimer c).ctrl = s.ctrl := rfl
@[simp] theorem State.stopTimer_nad (s : State) (c : Channel) : (s.stopTimer c).nad = s.nad := rfl
@[simp] theorem State.stopTimer_ifs (s : State) (c : Channel) : (s.stopTimer c).ifs = s.ifs := rfl
@[simp] theorem State.stopTimer_tmoIbt (s : State) (c : Channel) : (s.stopTimer c).tmoIbt = s.tmoIbt := rfl
@[simp] theorem State.stopTimer_presCfg (s : State) (c : Channel) : (s.stopTimer c).presCfg = s.presCfg := rfl
@[simp] theorem State.stopTimer_pinCtrl (s : State) (c : Channel) : (s.stopTimer c).pinCtrl = s.pinCtrl := rfl
@[simp] theorem State.stopTimer_uartCfg (s : State) (c : Channel) : (s.stopTimer c).uartCfg = s.uartCfg := rfl
@[simp] theorem State.stopTimer_usbCfg (s : State) (c : Channel) : (s.stopTimer c).usbCfg = s.usbCfg := rfl
@[simp] theorem State.stopTimer_usbSeq (s : State) (c : Channel) : (s.stopTimer c).usbSeq = s.usbSeq := rfl
@[simp] theorem State.stopTimer_irqEn (s : State) (c : Channel) : (s.stopTimer c).irqEn = s.irqEn := rfl
@[simp] theorem State.stopTimer_irqPend (s : State) (c : Channel) : (s.stopTimer c).irqPend = s.irqPend := rfl
@[simp] theorem State.stopTimer_cmdResult (s : State) (c : Channel) : (s.stopTimer c).cmdResult = s.cmdResult := rfl
@[simp] theorem State.stopTimer_cmdStatus (s : State) (c : Channel) : (s.stopTimer c).cmdStatus = s.cmdStatus := rfl
@[simp] theorem State.stopTimer_edc (s : State) (c : Channel) : (s.stopTimer c).edc = s.edc := rfl
@[simp] theorem State.stopTimer_fifo (s : State) (c : Channel) : (s.stopTimer c).fifo = s.fifo := rfl
@[simp] theorem State.stopTimer_enc (s : State) (c : Channel) : (s.stopTimer c).enc = s.enc := rfl
@[simp] theorem State.stopTimer_tx (s : State) (c : Channel) : (s.stopTimer c).tx = s.tx := rfl
@[simp] theorem State.stopTimer_usbOut (s : State) (c : Channel) : (s.stopTimer c).usbOut = s.usbOut := rfl
@[simp] theorem State.stopTimer_rx (s : State) (c : Channel) : (s.stopTimer c).rx = s.rx := rfl
@[simp] theorem State.stopTimer_rxInfo (s : State) (c : Channel) : (s.stopTimer c).rxInfo = s.rxInfo := rfl
@[simp] theorem State.stopTimer_rxErrCause (s : State) (c : Channel) :
    (s.stopTimer c).rxErrCause = s.rxErrCause := rfl
@[simp] theorem State.stopTimer_rxbuf (s : State) (c : Channel) : (s.stopTimer c).rxbuf = s.rxbuf := rfl
@[simp] theorem State.stopTimer_tmr (s : State) (c : Channel) : (s.stopTimer c).tmr = s.tmr.set c .stopped := rfl
@[simp] theorem State.stopTimer_present (s : State) (c : Channel) : (s.stopTimer c).present = s.present := rfl
@[simp] theorem State.stopTimer_presPin (s : State) (c : Channel) : (s.stopTimer c).presPin = s.presPin := rfl
@[simp] theorem State.stopTimer_debCnt (s : State) (c : Channel) : (s.stopTimer c).debCnt = s.debCnt := rfl
@[simp] theorem State.stopTimer_pinLevel (s : State) (c : Channel) : (s.stopTimer c).pinLevel = s.pinLevel := rfl
@[simp] theorem State.stopTimer_lbsCount (s : State) (c : Channel) : (s.stopTimer c).lbsCount = s.lbsCount := rfl
@[simp] theorem State.stopTimer_ccidRsp (s : State) (c : Channel) : (s.stopTimer c).ccidRsp = s.ccidRsp := rfl
@[simp] theorem State.stopTimer_usbErrCause (s : State) (c : Channel) :
    (s.stopTimer c).usbErrCause = s.usbErrCause := rfl
@[simp] theorem State.stopTimer_resets (s : State) (c : Channel) : (s.stopTimer c).resets = s.resets := rfl
@[simp] theorem State.stopTimer_pending (s : State) (c : Channel) : (s.stopTimer c).pending = s.pending := rfl
@[simp] theorem State.stopTimer_output (s : State) (c : Channel) : (s.stopTimer c).output = s.output := rfl

/-! ### startTimer -/

@[simp] theorem State.startTimer_params (s : State) (c : Channel) (v : Half) :
    (s.startTimer c v).params = s.params := by unfold State.startTimer; split <;> rfl
@[simp] theorem State.startTimer_ctrl (s : State) (c : Channel) (v : Half) :
    (s.startTimer c v).ctrl = s.ctrl := by unfold State.startTimer; split <;> rfl
@[simp] theorem State.startTimer_nad (s : State) (c : Channel) (v : Half) :
    (s.startTimer c v).nad = s.nad := by unfold State.startTimer; split <;> rfl
@[simp] theorem State.startTimer_ifs (s : State) (c : Channel) (v : Half) :
    (s.startTimer c v).ifs = s.ifs := by unfold State.startTimer; split <;> rfl
@[simp] theorem State.startTimer_tmoIbt (s : State) (c : Channel) (v : Half) :
    (s.startTimer c v).tmoIbt = s.tmoIbt := by unfold State.startTimer; split <;> rfl
@[simp] theorem State.startTimer_presCfg (s : State) (c : Channel) (v : Half) :
    (s.startTimer c v).presCfg = s.presCfg := by unfold State.startTimer; split <;> rfl
@[simp] theorem State.startTimer_pinCtrl (s : State) (c : Channel) (v : Half) :
    (s.startTimer c v).pinCtrl = s.pinCtrl := by unfold State.startTimer; split <;> rfl
@[simp] theorem State.startTimer_uartCfg (s : State) (c : Channel) (v : Half) :
    (s.startTimer c v).uartCfg = s.uartCfg := by unfold State.startTimer; split <;> rfl
@[simp] theorem State.startTimer_usbCfg (s : State) (c : Channel) (v : Half) :
    (s.startTimer c v).usbCfg = s.usbCfg := by unfold State.startTimer; split <;> rfl
@[simp] theorem State.startTimer_usbSeq (s : State) (c : Channel) (v : Half) :
    (s.startTimer c v).usbSeq = s.usbSeq := by unfold State.startTimer; split <;> rfl
@[simp] theorem State.startTimer_irqEn (s : State) (c : Channel) (v : Half) :
    (s.startTimer c v).irqEn = s.irqEn := by unfold State.startTimer; split <;> rfl
@[simp] theorem State.startTimer_irqPend (s : State) (c : Channel) (v : Half) :
    (s.startTimer c v).irqPend = s.irqPend := by unfold State.startTimer; split <;> rfl
@[simp] theorem State.startTimer_cmdResult (s : State) (c : Channel) (v : Half) :
    (s.startTimer c v).cmdResult = s.cmdResult := by unfold State.startTimer; split <;> rfl
@[simp] theorem State.startTimer_cmdStatus (s : State) (c : Channel) (v : Half) :
    (s.startTimer c v).cmdStatus = s.cmdStatus := by unfold State.startTimer; split <;> rfl
@[simp] theorem State.startTimer_edc (s : State) (c : Channel) (v : Half) :
    (s.startTimer c v).edc = s.edc := by unfold State.startTimer; split <;> rfl
@[simp] theorem State.startTimer_fifo (s : State) (c : Channel) (v : Half) :
    (s.startTimer c v).fifo = s.fifo := by unfold State.startTimer; split <;> rfl
@[simp] theorem State.startTimer_enc (s : State) (c : Channel) (v : Half) :
    (s.startTimer c v).enc = s.enc := by unfold State.startTimer; split <;> rfl
@[simp] theorem State.startTimer_tx (s : State) (c : Channel) (v : Half) :
    (s.startTimer c v).tx = s.tx := by unfold State.startTimer; split <;> rfl
@[simp] theorem State.startTimer_usbOut (s : State) (c : Channel) (v : Half) :
    (s.startTimer c v).usbOut = s.usbOut := by unfold State.startTimer; split <;> rfl
@[simp] theorem State.startTimer_rx (s : State) (c : Channel) (v : Half) :
    (s.startTimer c v).rx = s.rx := by unfold State.startTimer; split <;> rfl
@[simp] theorem State.startTimer_rxInfo (s : State) (c : Channel) (v : Half) :
    (s.startTimer c v).rxInfo = s.rxInfo := by unfold State.startTimer; split <;> rfl
@[simp] theorem State.startTimer_rxErrCause (s : State) (c : Channel) (v : Half) :
    (s.startTimer c v).rxErrCause = s.rxErrCause := by unfold State.startTimer; split <;> rfl
@[simp] theorem State.startTimer_rxbuf (s : State) (c : Channel) (v : Half) :
    (s.startTimer c v).rxbuf = s.rxbuf := by unfold State.startTimer; split <;> rfl
@[simp] theorem State.startTimer_tmr (s : State) (c : Channel) (v : Half) :
    (s.startTimer c v).tmr = s.tmr.set c (if v = 0 then .stopped else ⟨v, true, true⟩) := by unfold State.startTimer; split <;> rfl
@[simp] theorem State.startTimer_present (s : State) (c : Channel) (v : Half) :
    (s.startTimer c v).present = s.present := by unfold State.startTimer; split <;> rfl
@[simp] theorem State.startTimer_presPin (s : State) (c : Channel) (v : Half) :
    (s.startTimer c v).presPin = s.presPin := by unfold State.startTimer; split <;> rfl
@[simp] theorem State.startTimer_debCnt (s : State) (c : Channel) (v : Half) :
    (s.startTimer c v).debCnt = s.debCnt := by unfold State.startTimer; split <;> rfl
@[simp] theorem State.startTimer_pinLevel (s : State) (c : Channel) (v : Half) :
    (s.startTimer c v).pinLevel = s.pinLevel := by unfold State.startTimer; split <;> rfl
@[simp] theorem State.startTimer_lbsCount (s : State) (c : Channel) (v : Half) :
    (s.startTimer c v).lbsCount = s.lbsCount := by unfold State.startTimer; split <;> rfl
@[simp] theorem State.startTimer_ccidRsp (s : State) (c : Channel) (v : Half) :
    (s.startTimer c v).ccidRsp = s.ccidRsp := by unfold State.startTimer; split <;> rfl
@[simp] theorem State.startTimer_usbErrCause (s : State) (c : Channel) (v : Half) :
    (s.startTimer c v).usbErrCause = s.usbErrCause := by unfold State.startTimer; split <;> rfl
@[simp] theorem State.startTimer_resets (s : State) (c : Channel) (v : Half) :
    (s.startTimer c v).resets = s.resets := by unfold State.startTimer; split <;> rfl
@[simp] theorem State.startTimer_pending (s : State) (c : Channel) (v : Half) :
    (s.startTimer c v).pending = s.pending := by unfold State.startTimer; split <;> rfl
@[simp] theorem State.startTimer_output (s : State) (c : Channel) (v : Half) :
    (s.startTimer c v).output = s.output := by unfold State.startTimer; split <;> rfl

/-! ### restartIbt -/

@[simp] theorem State.restartIbt_params (s : State) :
    (s.restartIbt).params = s.params := by unfold State.restartIbt State.startTimer; split <;> rfl
@[simp] theorem State.restartIbt_ctrl (s : State) :
    (s.restartIbt).ctrl = s.ctrl := by unfold State.restartIbt State.startTimer; split <;> rfl
@[simp] theorem State.restartIbt_nad (s : State) :
    (s.restartIbt).nad = s.nad := by unfold State.restartIbt State.startTimer; split <;> rfl
@[simp] theorem State.restartIbt_ifs (s : State) :
    (s.restartIbt).ifs = s.ifs := by unfold State.restartIbt State.startTimer; split <;> rfl
@[simp] theorem State.restartIbt_tmoIbt (s : State) :
    (s.restartIbt).tmoIbt = s.tmoIbt := by unfold State.restartIbt State.startTimer; split <;> rfl
@[simp] theorem State.restartIbt_presCfg (s : State) :
    (s.restartIbt).presCfg = s.presCfg := by unfold State.restartIbt State.startTimer; split <;> rfl
@[simp] theorem State.restartIbt_pinCtrl (s : State) :
    (s.restartIbt).pinCtrl = s.pinCtrl := by unfold State.restartIbt State.startTimer; split <;> rfl
@[simp] theorem State.restartIbt_uartCfg (s : State) :
    (s.restartIbt).uartCfg = s.uartCfg := by unfold State.restartIbt State.startTimer; split <;> rfl
@[simp] theorem State.restartIbt_usbCfg (s : State) :
    (s.restartIbt).usbCfg = s.usbCfg := by unfold State.restartIbt State.startTimer; split <;> rfl
@[simp] theorem State.restartIbt_usbSeq (s : State) :
    (s.restartIbt).usbSeq = s.usbSeq := by unfold State.restartIbt State.startTimer; split <;> rfl
@[simp] theorem State.restartIbt_irqEn (s : State) :
    (s.restartIbt).irqEn = s.irqEn := by unfold State.restartIbt State.startTimer; split <;> rfl
@[simp] theorem State.restartIbt_irqPend (s : State) :
    (s.restartIbt).irqPend = s.irqPend := by unfold State.restartIbt State.startTimer; split <;> rfl
@[simp] theorem State.restartIbt_cmdResult (s : State) :
    (s.restartIbt).cmdResult = s.cmdResult := by unfold State.restartIbt State.startTimer; split <;> rfl
@[simp] theorem State.restartIbt_cmdStatus (s : State) :
    (s.restartIbt).cmdStatus = s.cmdStatus := by unfold State.restartIbt State.startTimer; split <;> rfl
@[simp] theorem State.restartIbt_edc (s : State) :
    (s.restartIbt).edc = s.edc := by unfold State.restartIbt State.startTimer; split <;> rfl
@[simp] theorem State.restartIbt_fifo (s : State) :
    (s.restartIbt).fifo = s.fifo := by unfold State.restartIbt State.startTimer; split <;> rfl
@[simp] theorem State.restartIbt_enc (s : State) :
    (s.restartIbt).enc = s.enc := by unfold State.restartIbt State.startTimer; split <;> rfl
@[simp] theorem State.restartIbt_tx (s : State) :
    (s.restartIbt).tx = s.tx := by unfold State.restartIbt State.startTimer; split <;> rfl
@[simp] theorem State.restartIbt_usbOut (s : State) :
    (s.restartIbt).usbOut = s.usbOut := by unfold State.restartIbt State.startTimer; split <;> rfl
@[simp] theorem State.restartIbt_rx (s : State) :
    (s.restartIbt).rx = s.rx := by unfold State.restartIbt State.startTimer; split <;> rfl
@[simp] theorem State.restartIbt_rxInfo (s : State) :
    (s.restartIbt).rxInfo = s.rxInfo := by unfold State.restartIbt State.startTimer; split <;> rfl
@[simp] theorem State.restartIbt_rxErrCause (s : State) :
    (s.restartIbt).rxErrCause = s.rxErrCause := by unfold State.restartIbt State.startTimer; split <;> rfl
@[simp] theorem State.restartIbt_rxbuf (s : State) :
    (s.restartIbt).rxbuf = s.rxbuf := by unfold State.restartIbt State.startTimer; split <;> rfl
@[simp] theorem State.restartIbt_tmr (s : State) :
    (s.restartIbt).tmr = { s.tmr with ibt := if s.tmoIbt = 0 then .stopped else ⟨s.tmoIbt, true, true⟩ } := by unfold State.restartIbt State.startTimer; split <;> rfl
@[simp] theorem State.restartIbt_present (s : State) :
    (s.restartIbt).present = s.present := by unfold State.restartIbt State.startTimer; split <;> rfl
@[simp] theorem State.restartIbt_presPin (s : State) :
    (s.restartIbt).presPin = s.presPin := by unfold State.restartIbt State.startTimer; split <;> rfl
@[simp] theorem State.restartIbt_debCnt (s : State) :
    (s.restartIbt).debCnt = s.debCnt := by unfold State.restartIbt State.startTimer; split <;> rfl
@[simp] theorem State.restartIbt_pinLevel (s : State) :
    (s.restartIbt).pinLevel = s.pinLevel := by unfold State.restartIbt State.startTimer; split <;> rfl
@[simp] theorem State.restartIbt_lbsCount (s : State) :
    (s.restartIbt).lbsCount = s.lbsCount := by unfold State.restartIbt State.startTimer; split <;> rfl
@[simp] theorem State.restartIbt_ccidRsp (s : State) :
    (s.restartIbt).ccidRsp = s.ccidRsp := by unfold State.restartIbt State.startTimer; split <;> rfl
@[simp] theorem State.restartIbt_usbErrCause (s : State) :
    (s.restartIbt).usbErrCause = s.usbErrCause := by unfold State.restartIbt State.startTimer; split <;> rfl
@[simp] theorem State.restartIbt_resets (s : State) :
    (s.restartIbt).resets = s.resets := by unfold State.restartIbt State.startTimer; split <;> rfl
@[simp] theorem State.restartIbt_pending (s : State) :
    (s.restartIbt).pending = s.pending := by unfold State.restartIbt State.startTimer; split <;> rfl
@[simp] theorem State.restartIbt_output (s : State) :
    (s.restartIbt).output = s.output := by unfold State.restartIbt State.startTimer; split <;> rfl

/-! ### raise -/

@[simp] theorem State.raise_params (s : State) (e : Event) : (s.raise e).params = s.params := rfl
@[simp] theorem State.raise_ctrl (s : State) (e : Event) : (s.raise e).ctrl = s.ctrl := rfl
@[simp] theorem State.raise_nad (s : State) (e : Event) : (s.raise e).nad = s.nad := rfl
@[simp] theorem State.raise_ifs (s : State) (e : Event) : (s.raise e).ifs = s.ifs := rfl
@[simp] theorem State.raise_tmoIbt (s : State) (e : Event) : (s.raise e).tmoIbt = s.tmoIbt := rfl
@[simp] theorem State.raise_presCfg (s : State) (e : Event) : (s.raise e).presCfg = s.presCfg := rfl
@[simp] theorem State.raise_pinCtrl (s : State) (e : Event) : (s.raise e).pinCtrl = s.pinCtrl := rfl
@[simp] theorem State.raise_uartCfg (s : State) (e : Event) : (s.raise e).uartCfg = s.uartCfg := rfl
@[simp] theorem State.raise_usbCfg (s : State) (e : Event) : (s.raise e).usbCfg = s.usbCfg := rfl
@[simp] theorem State.raise_usbSeq (s : State) (e : Event) : (s.raise e).usbSeq = s.usbSeq := rfl
@[simp] theorem State.raise_irqEn (s : State) (e : Event) : (s.raise e).irqEn = s.irqEn := rfl
@[simp] theorem State.raise_irqPend (s : State) (e : Event) : (s.raise e).irqPend = s.irqPend ||| e.mask := rfl
@[simp] theorem State.raise_cmdResult (s : State) (e : Event) : (s.raise e).cmdResult = s.cmdResult := rfl
@[simp] theorem State.raise_cmdStatus (s : State) (e : Event) : (s.raise e).cmdStatus = s.cmdStatus := rfl
@[simp] theorem State.raise_edc (s : State) (e : Event) : (s.raise e).edc = s.edc := rfl
@[simp] theorem State.raise_fifo (s : State) (e : Event) : (s.raise e).fifo = s.fifo := rfl
@[simp] theorem State.raise_enc (s : State) (e : Event) : (s.raise e).enc = s.enc := rfl
@[simp] theorem State.raise_tx (s : State) (e : Event) : (s.raise e).tx = s.tx := rfl
@[simp] theorem State.raise_usbOut (s : State) (e : Event) : (s.raise e).usbOut = s.usbOut := rfl
@[simp] theorem State.raise_rx (s : State) (e : Event) : (s.raise e).rx = s.rx := rfl
@[simp] theorem State.raise_rxInfo (s : State) (e : Event) : (s.raise e).rxInfo = s.rxInfo := rfl
@[simp] theorem State.raise_rxErrCause (s : State) (e : Event) : (s.raise e).rxErrCause = s.rxErrCause := rfl
@[simp] theorem State.raise_rxbuf (s : State) (e : Event) : (s.raise e).rxbuf = s.rxbuf := rfl
@[simp] theorem State.raise_tmr (s : State) (e : Event) : (s.raise e).tmr = s.tmr := rfl
@[simp] theorem State.raise_present (s : State) (e : Event) : (s.raise e).present = s.present := rfl
@[simp] theorem State.raise_presPin (s : State) (e : Event) : (s.raise e).presPin = s.presPin := rfl
@[simp] theorem State.raise_debCnt (s : State) (e : Event) : (s.raise e).debCnt = s.debCnt := rfl
@[simp] theorem State.raise_pinLevel (s : State) (e : Event) : (s.raise e).pinLevel = s.pinLevel := rfl
@[simp] theorem State.raise_lbsCount (s : State) (e : Event) : (s.raise e).lbsCount = s.lbsCount := rfl
@[simp] theorem State.raise_ccidRsp (s : State) (e : Event) : (s.raise e).ccidRsp = s.ccidRsp := rfl
@[simp] theorem State.raise_usbErrCause (s : State) (e : Event) : (s.raise e).usbErrCause = s.usbErrCause := rfl
@[simp] theorem State.raise_resets (s : State) (e : Event) : (s.raise e).resets = s.resets := rfl
@[simp] theorem State.raise_pending (s : State) (e : Event) : (s.raise e).pending = s.pending := rfl
@[simp] theorem State.raise_output (s : State) (e : Event) : (s.raise e).output = s.output := rfl

/-! ### setResult -/

@[simp] theorem State.setResult_params (s : State) (v : Half) : (s.setResult v).params = s.params := rfl
@[simp] theorem State.setResult_ctrl (s : State) (v : Half) : (s.setResult v).ctrl = s.ctrl := rfl
@[simp] theorem State.setResult_nad (s : State) (v : Half) : (s.setResult v).nad = s.nad := rfl
@[simp] theorem State.setResult_ifs (s : State) (v : Half) : (s.setResult v).ifs = s.ifs := rfl
@[simp] theorem State.setResult_tmoIbt (s : State) (v : Half) : (s.setResult v).tmoIbt = s.tmoIbt := rfl
@[simp] theorem State.setResult_presCfg (s : State) (v : Half) : (s.setResult v).presCfg = s.presCfg := rfl
@[simp] theorem State.setResult_pinCtrl (s : State) (v : Half) : (s.setResult v).pinCtrl = s.pinCtrl := rfl
@[simp] theorem State.setResult_uartCfg (s : State) (v : Half) : (s.setResult v).uartCfg = s.uartCfg := rfl
@[simp] theorem State.setResult_usbCfg (s : State) (v : Half) : (s.setResult v).usbCfg = s.usbCfg := rfl
@[simp] theorem State.setResult_usbSeq (s : State) (v : Half) : (s.setResult v).usbSeq = s.usbSeq := rfl
@[simp] theorem State.setResult_irqEn (s : State) (v : Half) : (s.setResult v).irqEn = s.irqEn := rfl
@[simp] theorem State.setResult_irqPend (s : State) (v : Half) : (s.setResult v).irqPend = s.irqPend := rfl
@[simp] theorem State.setResult_cmdResult (s : State) (v : Half) : (s.setResult v).cmdResult = v := rfl
@[simp] theorem State.setResult_cmdStatus (s : State) (v : Half) : (s.setResult v).cmdStatus = s.cmdStatus := rfl
@[simp] theorem State.setResult_edc (s : State) (v : Half) : (s.setResult v).edc = s.edc := rfl
@[simp] theorem State.setResult_fifo (s : State) (v : Half) : (s.setResult v).fifo = s.fifo := rfl
@[simp] theorem State.setResult_enc (s : State) (v : Half) : (s.setResult v).enc = s.enc := rfl
@[simp] theorem State.setResult_tx (s : State) (v : Half) : (s.setResult v).tx = s.tx := rfl
@[simp] theorem State.setResult_usbOut (s : State) (v : Half) : (s.setResult v).usbOut = s.usbOut := rfl
@[simp] theorem State.setResult_rx (s : State) (v : Half) : (s.setResult v).rx = s.rx := rfl
@[simp] theorem State.setResult_rxInfo (s : State) (v : Half) : (s.setResult v).rxInfo = s.rxInfo := rfl
@[simp] theorem State.setResult_rxErrCause (s : State) (v : Half) : (s.setResult v).rxErrCause = s.rxErrCause := rfl
@[simp] theorem State.setResult_rxbuf (s : State) (v : Half) : (s.setResult v).rxbuf = s.rxbuf := rfl
@[simp] theorem State.setResult_tmr (s : State) (v : Half) : (s.setResult v).tmr = s.tmr := rfl
@[simp] theorem State.setResult_present (s : State) (v : Half) : (s.setResult v).present = s.present := rfl
@[simp] theorem State.setResult_presPin (s : State) (v : Half) : (s.setResult v).presPin = s.presPin := rfl
@[simp] theorem State.setResult_debCnt (s : State) (v : Half) : (s.setResult v).debCnt = s.debCnt := rfl
@[simp] theorem State.setResult_pinLevel (s : State) (v : Half) : (s.setResult v).pinLevel = s.pinLevel := rfl
@[simp] theorem State.setResult_lbsCount (s : State) (v : Half) : (s.setResult v).lbsCount = s.lbsCount := rfl
@[simp] theorem State.setResult_ccidRsp (s : State) (v : Half) : (s.setResult v).ccidRsp = s.ccidRsp := rfl
@[simp] theorem State.setResult_usbErrCause (s : State) (v : Half) :
    (s.setResult v).usbErrCause = s.usbErrCause := rfl
@[simp] theorem State.setResult_resets (s : State) (v : Half) : (s.setResult v).resets = s.resets := rfl
@[simp] theorem State.setResult_pending (s : State) (v : Half) : (s.setResult v).pending = s.pending := rfl
@[simp] theorem State.setResult_output (s : State) (v : Half) : (s.setResult v).output = s.output := rfl

/-! ### fail -/

@[simp] theorem State.fail_params (s : State) (c : CmdCode) : (s.fail c).params = s.params := rfl
@[simp] theorem State.fail_ctrl (s : State) (c : CmdCode) : (s.fail c).ctrl = s.ctrl := rfl
@[simp] theorem State.fail_nad (s : State) (c : CmdCode) : (s.fail c).nad = s.nad := rfl
@[simp] theorem State.fail_ifs (s : State) (c : CmdCode) : (s.fail c).ifs = s.ifs := rfl
@[simp] theorem State.fail_tmoIbt (s : State) (c : CmdCode) : (s.fail c).tmoIbt = s.tmoIbt := rfl
@[simp] theorem State.fail_presCfg (s : State) (c : CmdCode) : (s.fail c).presCfg = s.presCfg := rfl
@[simp] theorem State.fail_pinCtrl (s : State) (c : CmdCode) : (s.fail c).pinCtrl = s.pinCtrl := rfl
@[simp] theorem State.fail_uartCfg (s : State) (c : CmdCode) : (s.fail c).uartCfg = s.uartCfg := rfl
@[simp] theorem State.fail_usbCfg (s : State) (c : CmdCode) : (s.fail c).usbCfg = s.usbCfg := rfl
@[simp] theorem State.fail_usbSeq (s : State) (c : CmdCode) : (s.fail c).usbSeq = s.usbSeq := rfl
@[simp] theorem State.fail_irqEn (s : State) (c : CmdCode) : (s.fail c).irqEn = s.irqEn := rfl
@[simp] theorem State.fail_irqPend (s : State) (c : CmdCode) :
    (s.fail c).irqPend = s.irqPend ||| Event.cmdErr.mask := rfl
@[simp] theorem State.fail_cmdResult (s : State) (c : CmdCode) : (s.fail c).cmdResult = 0 := rfl
@[simp] theorem State.fail_cmdStatus (s : State) (c : CmdCode) : (s.fail c).cmdStatus = c := rfl
@[simp] theorem State.fail_edc (s : State) (c : CmdCode) : (s.fail c).edc = s.edc := rfl
@[simp] theorem State.fail_fifo (s : State) (c : CmdCode) : (s.fail c).fifo = s.fifo := rfl
@[simp] theorem State.fail_enc (s : State) (c : CmdCode) : (s.fail c).enc = s.enc := rfl
@[simp] theorem State.fail_tx (s : State) (c : CmdCode) : (s.fail c).tx = s.tx := rfl
@[simp] theorem State.fail_usbOut (s : State) (c : CmdCode) : (s.fail c).usbOut = s.usbOut := rfl
@[simp] theorem State.fail_rx (s : State) (c : CmdCode) : (s.fail c).rx = s.rx := rfl
@[simp] theorem State.fail_rxInfo (s : State) (c : CmdCode) : (s.fail c).rxInfo = s.rxInfo := rfl
@[simp] theorem State.fail_rxErrCause (s : State) (c : CmdCode) : (s.fail c).rxErrCause = s.rxErrCause := rfl
@[simp] theorem State.fail_rxbuf (s : State) (c : CmdCode) : (s.fail c).rxbuf = s.rxbuf := rfl
@[simp] theorem State.fail_tmr (s : State) (c : CmdCode) : (s.fail c).tmr = s.tmr := rfl
@[simp] theorem State.fail_present (s : State) (c : CmdCode) : (s.fail c).present = s.present := rfl
@[simp] theorem State.fail_presPin (s : State) (c : CmdCode) : (s.fail c).presPin = s.presPin := rfl
@[simp] theorem State.fail_debCnt (s : State) (c : CmdCode) : (s.fail c).debCnt = s.debCnt := rfl
@[simp] theorem State.fail_pinLevel (s : State) (c : CmdCode) : (s.fail c).pinLevel = s.pinLevel := rfl
@[simp] theorem State.fail_lbsCount (s : State) (c : CmdCode) : (s.fail c).lbsCount = s.lbsCount := rfl
@[simp] theorem State.fail_ccidRsp (s : State) (c : CmdCode) : (s.fail c).ccidRsp = s.ccidRsp := rfl
@[simp] theorem State.fail_usbErrCause (s : State) (c : CmdCode) : (s.fail c).usbErrCause = s.usbErrCause := rfl
@[simp] theorem State.fail_resets (s : State) (c : CmdCode) : (s.fail c).resets = s.resets := rfl
@[simp] theorem State.fail_pending (s : State) (c : CmdCode) : (s.fail c).pending = s.pending := rfl
@[simp] theorem State.fail_output (s : State) (c : CmdCode) : (s.fail c).output = s.output := rfl

/-! ### pass -/

@[simp] theorem State.pass_params (s : State) : (s.pass).params = s.params := rfl
@[simp] theorem State.pass_ctrl (s : State) : (s.pass).ctrl = s.ctrl := rfl
@[simp] theorem State.pass_nad (s : State) : (s.pass).nad = s.nad := rfl
@[simp] theorem State.pass_ifs (s : State) : (s.pass).ifs = s.ifs := rfl
@[simp] theorem State.pass_tmoIbt (s : State) : (s.pass).tmoIbt = s.tmoIbt := rfl
@[simp] theorem State.pass_presCfg (s : State) : (s.pass).presCfg = s.presCfg := rfl
@[simp] theorem State.pass_pinCtrl (s : State) : (s.pass).pinCtrl = s.pinCtrl := rfl
@[simp] theorem State.pass_uartCfg (s : State) : (s.pass).uartCfg = s.uartCfg := rfl
@[simp] theorem State.pass_usbCfg (s : State) : (s.pass).usbCfg = s.usbCfg := rfl
@[simp] theorem State.pass_usbSeq (s : State) : (s.pass).usbSeq = s.usbSeq := rfl
@[simp] theorem State.pass_irqEn (s : State) : (s.pass).irqEn = s.irqEn := rfl
@[simp] theorem State.pass_irqPend (s : State) : (s.pass).irqPend = s.irqPend := rfl
@[simp] theorem State.pass_cmdResult (s : State) : (s.pass).cmdResult = s.cmdResult := rfl
@[simp] theorem State.pass_cmdStatus (s : State) : (s.pass).cmdStatus = .ok := rfl
@[simp] theorem State.pass_edc (s : State) : (s.pass).edc = s.edc := rfl
@[simp] theorem State.pass_fifo (s : State) : (s.pass).fifo = s.fifo := rfl
@[simp] theorem State.pass_enc (s : State) : (s.pass).enc = s.enc := rfl
@[simp] theorem State.pass_tx (s : State) : (s.pass).tx = s.tx := rfl
@[simp] theorem State.pass_usbOut (s : State) : (s.pass).usbOut = s.usbOut := rfl
@[simp] theorem State.pass_rx (s : State) : (s.pass).rx = s.rx := rfl
@[simp] theorem State.pass_rxInfo (s : State) : (s.pass).rxInfo = s.rxInfo := rfl
@[simp] theorem State.pass_rxErrCause (s : State) : (s.pass).rxErrCause = s.rxErrCause := rfl
@[simp] theorem State.pass_rxbuf (s : State) : (s.pass).rxbuf = s.rxbuf := rfl
@[simp] theorem State.pass_tmr (s : State) : (s.pass).tmr = s.tmr := rfl
@[simp] theorem State.pass_present (s : State) : (s.pass).present = s.present := rfl
@[simp] theorem State.pass_presPin (s : State) : (s.pass).presPin = s.presPin := rfl
@[simp] theorem State.pass_debCnt (s : State) : (s.pass).debCnt = s.debCnt := rfl
@[simp] theorem State.pass_pinLevel (s : State) : (s.pass).pinLevel = s.pinLevel := rfl
@[simp] theorem State.pass_lbsCount (s : State) : (s.pass).lbsCount = s.lbsCount := rfl
@[simp] theorem State.pass_ccidRsp (s : State) : (s.pass).ccidRsp = s.ccidRsp := rfl
@[simp] theorem State.pass_usbErrCause (s : State) : (s.pass).usbErrCause = s.usbErrCause := rfl
@[simp] theorem State.pass_resets (s : State) : (s.pass).resets = s.resets := rfl
@[simp] theorem State.pass_pending (s : State) : (s.pass).pending = s.pending := rfl
@[simp] theorem State.pass_output (s : State) : (s.pass).output = s.output := rfl

/-! ### setRxState -/

@[simp] theorem State.setRxState_params (s : State) (x : RxState) : (s.setRxState x).params = s.params := rfl
@[simp] theorem State.setRxState_ctrl (s : State) (x : RxState) : (s.setRxState x).ctrl = s.ctrl := rfl
@[simp] theorem State.setRxState_nad (s : State) (x : RxState) : (s.setRxState x).nad = s.nad := rfl
@[simp] theorem State.setRxState_ifs (s : State) (x : RxState) : (s.setRxState x).ifs = s.ifs := rfl
@[simp] theorem State.setRxState_tmoIbt (s : State) (x : RxState) : (s.setRxState x).tmoIbt = s.tmoIbt := rfl
@[simp] theorem State.setRxState_presCfg (s : State) (x : RxState) : (s.setRxState x).presCfg = s.presCfg := rfl
@[simp] theorem State.setRxState_pinCtrl (s : State) (x : RxState) : (s.setRxState x).pinCtrl = s.pinCtrl := rfl
@[simp] theorem State.setRxState_uartCfg (s : State) (x : RxState) : (s.setRxState x).uartCfg = s.uartCfg := rfl
@[simp] theorem State.setRxState_usbCfg (s : State) (x : RxState) : (s.setRxState x).usbCfg = s.usbCfg := rfl
@[simp] theorem State.setRxState_usbSeq (s : State) (x : RxState) : (s.setRxState x).usbSeq = s.usbSeq := rfl
@[simp] theorem State.setRxState_irqEn (s : State) (x : RxState) : (s.setRxState x).irqEn = s.irqEn := rfl
@[simp] theorem State.setRxState_irqPend (s : State) (x : RxState) : (s.setRxState x).irqPend = s.irqPend := rfl
@[simp] theorem State.setRxState_cmdResult (s : State) (x : RxState) : (s.setRxState x).cmdResult = s.cmdResult := rfl
@[simp] theorem State.setRxState_cmdStatus (s : State) (x : RxState) : (s.setRxState x).cmdStatus = s.cmdStatus := rfl
@[simp] theorem State.setRxState_edc (s : State) (x : RxState) : (s.setRxState x).edc = s.edc := rfl
@[simp] theorem State.setRxState_fifo (s : State) (x : RxState) : (s.setRxState x).fifo = s.fifo := rfl
@[simp] theorem State.setRxState_enc (s : State) (x : RxState) : (s.setRxState x).enc = s.enc := rfl
@[simp] theorem State.setRxState_tx (s : State) (x : RxState) : (s.setRxState x).tx = s.tx := rfl
@[simp] theorem State.setRxState_usbOut (s : State) (x : RxState) : (s.setRxState x).usbOut = s.usbOut := rfl
@[simp] theorem State.setRxState_rx (s : State) (x : RxState) : (s.setRxState x).rx = { s.rx with state := x } := rfl
@[simp] theorem State.setRxState_rxInfo (s : State) (x : RxState) : (s.setRxState x).rxInfo = s.rxInfo := rfl
@[simp] theorem State.setRxState_rxErrCause (s : State) (x : RxState) :
    (s.setRxState x).rxErrCause = s.rxErrCause := rfl
@[simp] theorem State.setRxState_rxbuf (s : State) (x : RxState) : (s.setRxState x).rxbuf = s.rxbuf := rfl
@[simp] theorem State.setRxState_tmr (s : State) (x : RxState) : (s.setRxState x).tmr = s.tmr := rfl
@[simp] theorem State.setRxState_present (s : State) (x : RxState) : (s.setRxState x).present = s.present := rfl
@[simp] theorem State.setRxState_presPin (s : State) (x : RxState) : (s.setRxState x).presPin = s.presPin := rfl
@[simp] theorem State.setRxState_debCnt (s : State) (x : RxState) : (s.setRxState x).debCnt = s.debCnt := rfl
@[simp] theorem State.setRxState_pinLevel (s : State) (x : RxState) : (s.setRxState x).pinLevel = s.pinLevel := rfl
@[simp] theorem State.setRxState_lbsCount (s : State) (x : RxState) : (s.setRxState x).lbsCount = s.lbsCount := rfl
@[simp] theorem State.setRxState_ccidRsp (s : State) (x : RxState) : (s.setRxState x).ccidRsp = s.ccidRsp := rfl
@[simp] theorem State.setRxState_usbErrCause (s : State) (x : RxState) :
    (s.setRxState x).usbErrCause = s.usbErrCause := rfl
@[simp] theorem State.setRxState_resets (s : State) (x : RxState) : (s.setRxState x).resets = s.resets := rfl
@[simp] theorem State.setRxState_pending (s : State) (x : RxState) : (s.setRxState x).pending = s.pending := rfl
@[simp] theorem State.setRxState_output (s : State) (x : RxState) : (s.setRxState x).output = s.output := rfl

/-! ### setRxCount -/

@[simp] theorem State.setRxCount_params (s : State) (n : Half) : (s.setRxCount n).params = s.params := rfl
@[simp] theorem State.setRxCount_ctrl (s : State) (n : Half) : (s.setRxCount n).ctrl = s.ctrl := rfl
@[simp] theorem State.setRxCount_nad (s : State) (n : Half) : (s.setRxCount n).nad = s.nad := rfl
@[simp] theorem State.setRxCount_ifs (s : State) (n : Half) : (s.setRxCount n).ifs = s.ifs := rfl
@[simp] theorem State.setRxCount_tmoIbt (s : State) (n : Half) : (s.setRxCount n).tmoIbt = s.tmoIbt := rfl
@[simp] theorem State.setRxCount_presCfg (s : State) (n : Half) : (s.setRxCount n).presCfg = s.presCfg := rfl
@[simp] theorem State.setRxCount_pinCtrl (s : State) (n : Half) : (s.setRxCount n).pinCtrl = s.pinCtrl := rfl
@[simp] theorem State.setRxCount_uartCfg (s : State) (n : Half) : (s.setRxCount n).uartCfg = s.uartCfg := rfl
@[simp] theorem State.setRxCount_usbCfg (s : State) (n : Half) : (s.setRxCount n).usbCfg = s.usbCfg := rfl
@[simp] theorem State.setRxCount_usbSeq (s : State) (n : Half) : (s.setRxCount n).usbSeq = s.usbSeq := rfl
@[simp] theorem State.setRxCount_irqEn (s : State) (n : Half) : (s.setRxCount n).irqEn = s.irqEn := rfl
@[simp] theorem State.setRxCount_irqPend (s : State) (n : Half) : (s.setRxCount n).irqPend = s.irqPend := rfl
@[simp] theorem State.setRxCount_cmdResult (s : State) (n : Half) : (s.setRxCount n).cmdResult = s.cmdResult := rfl
@[simp] theorem State.setRxCount_cmdStatus (s : State) (n : Half) : (s.setRxCount n).cmdStatus = s.cmdStatus := rfl
@[simp] theorem State.setRxCount_edc (s : State) (n : Half) : (s.setRxCount n).edc = s.edc := rfl
@[simp] theorem State.setRxCount_fifo (s : State) (n : Half) : (s.setRxCount n).fifo = s.fifo := rfl
@[simp] theorem State.setRxCount_enc (s : State) (n : Half) : (s.setRxCount n).enc = s.enc := rfl
@[simp] theorem State.setRxCount_tx (s : State) (n : Half) : (s.setRxCount n).tx = s.tx := rfl
@[simp] theorem State.setRxCount_usbOut (s : State) (n : Half) : (s.setRxCount n).usbOut = s.usbOut := rfl
@[simp] theorem State.setRxCount_rx (s : State) (n : Half) : (s.setRxCount n).rx = { s.rx with count := n } := rfl
@[simp] theorem State.setRxCount_rxInfo (s : State) (n : Half) : (s.setRxCount n).rxInfo = s.rxInfo := rfl
@[simp] theorem State.setRxCount_rxErrCause (s : State) (n : Half) : (s.setRxCount n).rxErrCause = s.rxErrCause := rfl
@[simp] theorem State.setRxCount_rxbuf (s : State) (n : Half) : (s.setRxCount n).rxbuf = s.rxbuf := rfl
@[simp] theorem State.setRxCount_tmr (s : State) (n : Half) : (s.setRxCount n).tmr = s.tmr := rfl
@[simp] theorem State.setRxCount_present (s : State) (n : Half) : (s.setRxCount n).present = s.present := rfl
@[simp] theorem State.setRxCount_presPin (s : State) (n : Half) : (s.setRxCount n).presPin = s.presPin := rfl
@[simp] theorem State.setRxCount_debCnt (s : State) (n : Half) : (s.setRxCount n).debCnt = s.debCnt := rfl
@[simp] theorem State.setRxCount_pinLevel (s : State) (n : Half) : (s.setRxCount n).pinLevel = s.pinLevel := rfl
@[simp] theorem State.setRxCount_lbsCount (s : State) (n : Half) : (s.setRxCount n).lbsCount = s.lbsCount := rfl
@[simp] theorem State.setRxCount_ccidRsp (s : State) (n : Half) : (s.setRxCount n).ccidRsp = s.ccidRsp := rfl
@[simp] theorem State.setRxCount_usbErrCause (s : State) (n : Half) :
    (s.setRxCount n).usbErrCause = s.usbErrCause := rfl
@[simp] theorem State.setRxCount_resets (s : State) (n : Half) : (s.setRxCount n).resets = s.resets := rfl
@[simp] theorem State.setRxCount_pending (s : State) (n : Half) : (s.setRxCount n).pending = s.pending := rfl
@[simp] theorem State.setRxCount_output (s : State) (n : Half) : (s.setRxCount n).output = s.output := rfl

/-! ### storeRx -/

@[simp] theorem State.storeRx_params (s : State) (b : Byte) : (s.storeRx b).params = s.params := rfl
@[simp] theorem State.storeRx_ctrl (s : State) (b : Byte) : (s.storeRx b).ctrl = s.ctrl := rfl
@[simp] theorem State.storeRx_nad (s : State) (b : Byte) : (s.storeRx b).nad = s.nad := rfl
@[simp] theorem State.storeRx_ifs (s : State) (b : Byte) : (s.storeRx b).ifs = s.ifs := rfl
@[simp] theorem State.storeRx_tmoIbt (s : State) (b : Byte) : (s.storeRx b).tmoIbt = s.tmoIbt := rfl
@[simp] theorem State.storeRx_presCfg (s : State) (b : Byte) : (s.storeRx b).presCfg = s.presCfg := rfl
@[simp] theorem State.storeRx_pinCtrl (s : State) (b : Byte) : (s.storeRx b).pinCtrl = s.pinCtrl := rfl
@[simp] theorem State.storeRx_uartCfg (s : State) (b : Byte) : (s.storeRx b).uartCfg = s.uartCfg := rfl
@[simp] theorem State.storeRx_usbCfg (s : State) (b : Byte) : (s.storeRx b).usbCfg = s.usbCfg := rfl
@[simp] theorem State.storeRx_usbSeq (s : State) (b : Byte) : (s.storeRx b).usbSeq = s.usbSeq := rfl
@[simp] theorem State.storeRx_irqEn (s : State) (b : Byte) : (s.storeRx b).irqEn = s.irqEn := rfl
@[simp] theorem State.storeRx_irqPend (s : State) (b : Byte) : (s.storeRx b).irqPend = s.irqPend := rfl
@[simp] theorem State.storeRx_cmdResult (s : State) (b : Byte) : (s.storeRx b).cmdResult = s.cmdResult := rfl
@[simp] theorem State.storeRx_cmdStatus (s : State) (b : Byte) : (s.storeRx b).cmdStatus = s.cmdStatus := rfl
@[simp] theorem State.storeRx_edc (s : State) (b : Byte) : (s.storeRx b).edc = s.edc := rfl
@[simp] theorem State.storeRx_fifo (s : State) (b : Byte) : (s.storeRx b).fifo = s.fifo := rfl
@[simp] theorem State.storeRx_enc (s : State) (b : Byte) : (s.storeRx b).enc = s.enc := rfl
@[simp] theorem State.storeRx_tx (s : State) (b : Byte) : (s.storeRx b).tx = s.tx := rfl
@[simp] theorem State.storeRx_usbOut (s : State) (b : Byte) : (s.storeRx b).usbOut = s.usbOut := rfl
@[simp] theorem State.storeRx_rx (s : State) (b : Byte) :
    (s.storeRx b).rx = { s.rx with count := s.rx.count + 1 } := rfl
@[simp] theorem State.storeRx_rxInfo (s : State) (b : Byte) : (s.storeRx b).rxInfo = s.rxInfo := rfl
@[simp] theorem State.storeRx_rxErrCause (s : State) (b : Byte) : (s.storeRx b).rxErrCause = s.rxErrCause := rfl
@[simp] theorem State.storeRx_rxbuf (s : State) (b : Byte) :
    (s.storeRx b).rxbuf = Memory.write s.rxbuf s.rx.count.toNat b := rfl
@[simp] theorem State.storeRx_tmr (s : State) (b : Byte) : (s.storeRx b).tmr = s.tmr := rfl
@[simp] theorem State.storeRx_present (s : State) (b : Byte) : (s.storeRx b).present = s.present := rfl
@[simp] theorem State.storeRx_presPin (s : State) (b : Byte) : (s.storeRx b).presPin = s.presPin := rfl
@[simp] theorem State.storeRx_debCnt (s : State) (b : Byte) : (s.storeRx b).debCnt = s.debCnt := rfl
@[simp] theorem State.storeRx_pinLevel (s : State) (b : Byte) : (s.storeRx b).pinLevel = s.pinLevel := rfl
@[simp] theorem State.storeRx_lbsCount (s : State) (b : Byte) : (s.storeRx b).lbsCount = s.lbsCount := rfl
@[simp] theorem State.storeRx_ccidRsp (s : State) (b : Byte) : (s.storeRx b).ccidRsp = s.ccidRsp := rfl
@[simp] theorem State.storeRx_usbErrCause (s : State) (b : Byte) : (s.storeRx b).usbErrCause = s.usbErrCause := rfl
@[simp] theorem State.storeRx_resets (s : State) (b : Byte) : (s.storeRx b).resets = s.resets := rfl
@[simp] theorem State.storeRx_pending (s : State) (b : Byte) : (s.storeRx b).pending = s.pending := rfl
@[simp] theorem State.storeRx_output (s : State) (b : Byte) : (s.storeRx b).output = s.output := rfl

/-! ### notePerr -/

@[simp] theorem State.notePerr_params (s : State) (p : Bool) : (s.notePerr p).params = s.params := rfl
@[simp] theorem State.notePerr_ctrl (s : State) (p : Bool) : (s.notePerr p).ctrl = s.ctrl := rfl
@[simp] theorem State.notePerr_nad (s : State) (p : Bool) : (s.notePerr p).nad = s.nad := rfl
@[simp] theorem State.notePerr_ifs (s : State) (p : Bool) : (s.notePerr p).ifs = s.ifs := rfl
@[simp] theorem State.notePerr_tmoIbt (s : State) (p : Bool) : (s.notePerr p).tmoIbt = s.tmoIbt := rfl
@[simp] theorem State.notePerr_presCfg (s : State) (p : Bool) : (s.notePerr p).presCfg = s.presCfg := rfl
@[simp] theorem State.notePerr_pinCtrl (s : State) (p : Bool) : (s.notePerr p).pinCtrl = s.pinCtrl := rfl
@[simp] theorem State.notePerr_uartCfg (s : State) (p : Bool) : (s.notePerr p).uartCfg = s.uartCfg := rfl
@[simp] theorem State.notePerr_usbCfg (s : State) (p : Bool) : (s.notePerr p).usbCfg = s.usbCfg := rfl
@[simp] theorem State.notePerr_usbSeq (s : State) (p : Bool) : (s.notePerr p).usbSeq = s.usbSeq := rfl
@[simp] theorem State.notePerr_irqEn (s : State) (p : Bool) : (s.notePerr p).irqEn = s.irqEn := rfl
@[simp] theorem State.notePerr_irqPend (s : State) (p : Bool) : (s.notePerr p).irqPend = s.irqPend := rfl
@[simp] theorem State.notePerr_cmdResult (s : State) (p : Bool) : (s.notePerr p).cmdResult = s.cmdResult := rfl
@[simp] theorem State.notePerr_cmdStatus (s : State) (p : Bool) : (s.notePerr p).cmdStatus = s.cmdStatus := rfl
@[simp] theorem State.notePerr_edc (s : State) (p : Bool) : (s.notePerr p).edc = s.edc := rfl
@[simp] theorem State.notePerr_fifo (s : State) (p : Bool) : (s.notePerr p).fifo = s.fifo := rfl
@[simp] theorem State.notePerr_enc (s : State) (p : Bool) : (s.notePerr p).enc = s.enc := rfl
@[simp] theorem State.notePerr_tx (s : State) (p : Bool) : (s.notePerr p).tx = s.tx := rfl
@[simp] theorem State.notePerr_usbOut (s : State) (p : Bool) : (s.notePerr p).usbOut = s.usbOut := rfl
@[simp] theorem State.notePerr_rx (s : State) (p : Bool) :
    (s.notePerr p).rx = { s.rx with perr := s.rx.perr || p } := rfl
@[simp] theorem State.notePerr_rxInfo (s : State) (p : Bool) : (s.notePerr p).rxInfo = s.rxInfo := rfl
@[simp] theorem State.notePerr_rxErrCause (s : State) (p : Bool) : (s.notePerr p).rxErrCause = s.rxErrCause := rfl
@[simp] theorem State.notePerr_rxbuf (s : State) (p : Bool) : (s.notePerr p).rxbuf = s.rxbuf := rfl
@[simp] theorem State.notePerr_tmr (s : State) (p : Bool) : (s.notePerr p).tmr = s.tmr := rfl
@[simp] theorem State.notePerr_present (s : State) (p : Bool) : (s.notePerr p).present = s.present := rfl
@[simp] theorem State.notePerr_presPin (s : State) (p : Bool) : (s.notePerr p).presPin = s.presPin := rfl
@[simp] theorem State.notePerr_debCnt (s : State) (p : Bool) : (s.notePerr p).debCnt = s.debCnt := rfl
@[simp] theorem State.notePerr_pinLevel (s : State) (p : Bool) : (s.notePerr p).pinLevel = s.pinLevel := rfl
@[simp] theorem State.notePerr_lbsCount (s : State) (p : Bool) : (s.notePerr p).lbsCount = s.lbsCount := rfl
@[simp] theorem State.notePerr_ccidRsp (s : State) (p : Bool) : (s.notePerr p).ccidRsp = s.ccidRsp := rfl
@[simp] theorem State.notePerr_usbErrCause (s : State) (p : Bool) : (s.notePerr p).usbErrCause = s.usbErrCause := rfl
@[simp] theorem State.notePerr_resets (s : State) (p : Bool) : (s.notePerr p).resets = s.resets := rfl
@[simp] theorem State.notePerr_pending (s : State) (p : Bool) : (s.notePerr p).pending = s.pending := rfl
@[simp] theorem State.notePerr_output (s : State) (p : Bool) : (s.notePerr p).output = s.output := rfl

/-! ### feedRx -/

@[simp] theorem State.feedRx_params (s : State) (b : Byte) : (s.feedRx b).params = s.params := rfl
@[simp] theorem State.feedRx_ctrl (s : State) (b : Byte) : (s.feedRx b).ctrl = s.ctrl := rfl
@[simp] theorem State.feedRx_nad (s : State) (b : Byte) : (s.feedRx b).nad = s.nad := rfl
@[simp] theorem State.feedRx_ifs (s : State) (b : Byte) : (s.feedRx b).ifs = s.ifs := rfl
@[simp] theorem State.feedRx_tmoIbt (s : State) (b : Byte) : (s.feedRx b).tmoIbt = s.tmoIbt := rfl
@[simp] theorem State.feedRx_presCfg (s : State) (b : Byte) : (s.feedRx b).presCfg = s.presCfg := rfl
@[simp] theorem State.feedRx_pinCtrl (s : State) (b : Byte) : (s.feedRx b).pinCtrl = s.pinCtrl := rfl
@[simp] theorem State.feedRx_uartCfg (s : State) (b : Byte) : (s.feedRx b).uartCfg = s.uartCfg := rfl
@[simp] theorem State.feedRx_usbCfg (s : State) (b : Byte) : (s.feedRx b).usbCfg = s.usbCfg := rfl
@[simp] theorem State.feedRx_usbSeq (s : State) (b : Byte) : (s.feedRx b).usbSeq = s.usbSeq := rfl
@[simp] theorem State.feedRx_irqEn (s : State) (b : Byte) : (s.feedRx b).irqEn = s.irqEn := rfl
@[simp] theorem State.feedRx_irqPend (s : State) (b : Byte) : (s.feedRx b).irqPend = s.irqPend := rfl
@[simp] theorem State.feedRx_cmdResult (s : State) (b : Byte) : (s.feedRx b).cmdResult = s.cmdResult := rfl
@[simp] theorem State.feedRx_cmdStatus (s : State) (b : Byte) : (s.feedRx b).cmdStatus = s.cmdStatus := rfl
@[simp] theorem State.feedRx_edc (s : State) (b : Byte) : (s.feedRx b).edc = s.edc := rfl
@[simp] theorem State.feedRx_fifo (s : State) (b : Byte) : (s.feedRx b).fifo = s.fifo := rfl
@[simp] theorem State.feedRx_enc (s : State) (b : Byte) : (s.feedRx b).enc = s.enc := rfl
@[simp] theorem State.feedRx_tx (s : State) (b : Byte) : (s.feedRx b).tx = s.tx := rfl
@[simp] theorem State.feedRx_usbOut (s : State) (b : Byte) : (s.feedRx b).usbOut = s.usbOut := rfl
@[simp] theorem State.feedRx_rx (s : State) (b : Byte) :
    (s.feedRx b).rx = { s.rx with acc := edcFeed s.rx.latch s.rx.acc b } := rfl
@[simp] theorem State.feedRx_rxInfo (s : State) (b : Byte) : (s.feedRx b).rxInfo = s.rxInfo := rfl
@[simp] theorem State.feedRx_rxErrCause (s : State) (b : Byte) : (s.feedRx b).rxErrCause = s.rxErrCause := rfl
@[simp] theorem State.feedRx_rxbuf (s : State) (b : Byte) : (s.feedRx b).rxbuf = s.rxbuf := rfl
@[simp] theorem State.feedRx_tmr (s : State) (b : Byte) : (s.feedRx b).tmr = s.tmr := rfl
@[simp] theorem State.feedRx_present (s : State) (b : Byte) : (s.feedRx b).present = s.present := rfl
@[simp] theorem State.feedRx_presPin (s : State) (b : Byte) : (s.feedRx b).presPin = s.presPin := rfl
@[simp] theorem State.feedRx_debCnt (s : State) (b : Byte) : (s.feedRx b).debCnt = s.debCnt := rfl
@[simp] theorem State.feedRx_pinLevel (s : State) (b : Byte) : (s.feedRx b).pinLevel = s.pinLevel := rfl
@[simp] theorem State.feedRx_lbsCount (s : State) (b : Byte) : (s.feedRx b).lbsCount = s.lbsCount := rfl
@[simp] theorem State.feedRx_ccidRsp (s : State) (b : Byte) : (s.feedRx b).ccidRsp = s.ccidRsp := rfl
@[simp] theorem State.feedRx_usbErrCause (s : State) (b : Byte) : (s.feedRx b).usbErrCause = s.usbErrCause := rfl
@[simp] theorem State.feedRx_resets (s : State) (b : Byte) : (s.feedRx b).resets = s.resets := rfl
@[simp] theorem State.feedRx_pending (s : State) (b : Byte) : (s.feedRx b).pending = s.pending := rfl
@[simp] theorem State.feedRx_output (s : State) (b : Byte) : (s.feedRx b).output = s.output := rfl

/-! ### takeStep -/

@[simp] theorem State.takeStep_params (s : State) (rest : List AgentStep) : (s.takeStep rest).params = s.params := rfl
@[simp] theorem State.takeStep_ctrl (s : State) (rest : List AgentStep) : (s.takeStep rest).ctrl = s.ctrl := rfl
@[simp] theorem State.takeStep_nad (s : State) (rest : List AgentStep) : (s.takeStep rest).nad = s.nad := rfl
@[simp] theorem State.takeStep_ifs (s : State) (rest : List AgentStep) : (s.takeStep rest).ifs = s.ifs := rfl
@[simp] theorem State.takeStep_tmoIbt (s : State) (rest : List AgentStep) : (s.takeStep rest).tmoIbt = s.tmoIbt := rfl
@[simp] theorem State.takeStep_presCfg (s : State) (rest : List AgentStep) :
    (s.takeStep rest).presCfg = s.presCfg := rfl
@[simp] theorem State.takeStep_pinCtrl (s : State) (rest : List AgentStep) :
    (s.takeStep rest).pinCtrl = s.pinCtrl := rfl
@[simp] theorem State.takeStep_uartCfg (s : State) (rest : List AgentStep) :
    (s.takeStep rest).uartCfg = s.uartCfg := rfl
@[simp] theorem State.takeStep_usbCfg (s : State) (rest : List AgentStep) : (s.takeStep rest).usbCfg = s.usbCfg := rfl
@[simp] theorem State.takeStep_usbSeq (s : State) (rest : List AgentStep) : (s.takeStep rest).usbSeq = s.usbSeq := rfl
@[simp] theorem State.takeStep_irqEn (s : State) (rest : List AgentStep) : (s.takeStep rest).irqEn = s.irqEn := rfl
@[simp] theorem State.takeStep_irqPend (s : State) (rest : List AgentStep) :
    (s.takeStep rest).irqPend = s.irqPend := rfl
@[simp] theorem State.takeStep_cmdResult (s : State) (rest : List AgentStep) :
    (s.takeStep rest).cmdResult = s.cmdResult := rfl
@[simp] theorem State.takeStep_cmdStatus (s : State) (rest : List AgentStep) :
    (s.takeStep rest).cmdStatus = s.cmdStatus := rfl
@[simp] theorem State.takeStep_edc (s : State) (rest : List AgentStep) : (s.takeStep rest).edc = s.edc := rfl
@[simp] theorem State.takeStep_fifo (s : State) (rest : List AgentStep) : (s.takeStep rest).fifo = s.fifo := rfl
@[simp] theorem State.takeStep_enc (s : State) (rest : List AgentStep) : (s.takeStep rest).enc = s.enc := rfl
@[simp] theorem State.takeStep_tx (s : State) (rest : List AgentStep) : (s.takeStep rest).tx = s.tx := rfl
@[simp] theorem State.takeStep_usbOut (s : State) (rest : List AgentStep) : (s.takeStep rest).usbOut = s.usbOut := rfl
@[simp] theorem State.takeStep_rx (s : State) (rest : List AgentStep) : (s.takeStep rest).rx = s.rx := rfl
@[simp] theorem State.takeStep_rxInfo (s : State) (rest : List AgentStep) : (s.takeStep rest).rxInfo = s.rxInfo := rfl
@[simp] theorem State.takeStep_rxErrCause (s : State) (rest : List AgentStep) :
    (s.takeStep rest).rxErrCause = s.rxErrCause := rfl
@[simp] theorem State.takeStep_rxbuf (s : State) (rest : List AgentStep) : (s.takeStep rest).rxbuf = s.rxbuf := rfl
@[simp] theorem State.takeStep_tmr (s : State) (rest : List AgentStep) : (s.takeStep rest).tmr = s.tmr := rfl
@[simp] theorem State.takeStep_present (s : State) (rest : List AgentStep) :
    (s.takeStep rest).present = s.present := rfl
@[simp] theorem State.takeStep_presPin (s : State) (rest : List AgentStep) :
    (s.takeStep rest).presPin = s.presPin := rfl
@[simp] theorem State.takeStep_debCnt (s : State) (rest : List AgentStep) : (s.takeStep rest).debCnt = s.debCnt := rfl
@[simp] theorem State.takeStep_pinLevel (s : State) (rest : List AgentStep) :
    (s.takeStep rest).pinLevel = s.pinLevel := rfl
@[simp] theorem State.takeStep_lbsCount (s : State) (rest : List AgentStep) :
    (s.takeStep rest).lbsCount = s.lbsCount := rfl
@[simp] theorem State.takeStep_ccidRsp (s : State) (rest : List AgentStep) :
    (s.takeStep rest).ccidRsp = s.ccidRsp := rfl
@[simp] theorem State.takeStep_usbErrCause (s : State) (rest : List AgentStep) :
    (s.takeStep rest).usbErrCause = s.usbErrCause := rfl
@[simp] theorem State.takeStep_resets (s : State) (rest : List AgentStep) : (s.takeStep rest).resets = s.resets := rfl
@[simp] theorem State.takeStep_pending (s : State) (rest : List AgentStep) : (s.takeStep rest).pending = rest := rfl
@[simp] theorem State.takeStep_output (s : State) (rest : List AgentStep) : (s.takeStep rest).output = none := rfl

end Sys2Proof.Machine
end

