-- ==== Sys2Proof/Laws/Bus.lean ====
section
/-! SUPPORT. The bus (20_memory.md R80 to R86): an access at a register's offset reaches that register, and what a step
does when the schedule is not empty. -/

namespace Sys2Proof.Machine

theorem State.offsetOf_base (s : State) (off : Nat) (h : off < 4096) :
    s.offsetOf (s.params.base + off) = some off := by
  simp only [State.offsetOf]
  rw [if_pos ⟨by omega, by omega⟩]
  congr 1
  omega

/-- R80: an address has an offset exactly inside the window. -/
theorem State.offsetOf_cases (s : State) (addr : Nat) :
    (s.offsetOf addr = none ∧ (addr < s.params.base ∨ s.params.base + 4096 ≤ addr)) ∨
    ∃ off, off < 4096 ∧ addr = s.params.base + off ∧ s.offsetOf addr = some off := by
  by_cases h : s.params.base ≤ addr ∧ addr < s.params.base + 4096
  · exact .inr ⟨addr - s.params.base, by omega, by omega, by simp [State.offsetOf, h]⟩
  · exact .inl ⟨by simp [State.offsetOf, h], by omega⟩

theorem Reg.ofOffset_offset (r : Reg) : Reg.ofOffset r.offset = some r := by cases r <;> decide

theorem accessTarget_offset (r : Reg) : accessTarget r.offset 4 = some (.reg r) := by cases r <;> decide

theorem Reg.offset_lt (r : Reg) : r.offset < 4096 := by cases r <;> decide

theorem busRead_reg (s : State) (r : Reg) :
    busRead (s.params.base + r.offset) 4 s = .next { s with output := some (.busData 4 (r.read s)) } := by
  simp [busRead, s.offsetOf_base _ r.offset_lt, accessTarget_offset]

theorem busWrite_reg (s : State) (r : Reg) (v : Word) :
    busWrite (s.params.base + r.offset) 4 v s = r.write v s := by
  simp [busWrite, s.offsetOf_base _ r.offset_lt, accessTarget_offset]

/-- A write of CMD runs its word as a command. -/
theorem busWrite_cmd (s : State) (v : Word) : busWrite (s.params.base + 0x020) 4 v s = writeCmd v s :=
  busWrite_reg s .cmd v

theorem writeCmd_decoded (s : State) (v : Word) (i : Instr) (h : decode v = .ok i) : writeCmd v s = exec i s := by
  simp [writeCmd, h]

theorem step_cons (s : State) (a : AgentStep) (rest : List AgentStep) (h : s.pending = a :: rest) :
    step s = agentStep a (s.takeStep rest) := by
  simp [step, h]

theorem step_nil (s : State) (h : s.pending = []) : step s = .next (s.takeStep []) := by
  simp [step, h]

end Sys2Proof.Machine
end

