-- ==== Sys2Proof/Laws/Command.lean ====
section
/-! SUPPORT. What a command can do (60_exceptions.md R303, R304): it answers a next state, either the failed one, with the
code of the first failing check, or its effect with CMD_STATUS = OK. -/

namespace Sys2Proof.Machine

theorem State.fail_eq_failedWith (s : State) (c : CmdCode) : s.fail c = s.failedWith c := rfl

/-- The code found is the code of some check that fails, and every check before it passes. -/
theorem firstFailing_cons (bad : Bool) (c : CmdCode) (rest : List (Bool × CmdCode)) :
    firstFailing ((bad, c) :: rest) = if bad then some c else firstFailing rest := rfl

theorem firstFailing_none_iff (l : List (Bool × CmdCode)) : firstFailing l = none ↔ ∀ p ∈ l, p.1 = false := by
  induction l with
  | nil => simp [firstFailing]
  | cons p rest ih =>
    obtain ⟨bad, c⟩ := p
    cases bad <;> simp [firstFailing, ih]

theorem firstFailing_mem (l : List (Bool × CmdCode)) (c : CmdCode) (h : firstFailing l = some c) :
    (true, c) ∈ l := by
  induction l with
  | nil => simp [firstFailing] at h
  | cons p rest ih =>
    obtain ⟨bad, c'⟩ := p
    cases bad with
    | true => simp [firstFailing] at h; simp [h]
    | false => simp [firstFailing] at h; simp [ih h]

/-- Everything a command can do. -/
theorem command_cases (s : State) (checks : List (Bool × CmdCode)) (effect : State) :
    (firstFailing checks = none ∧ command s checks effect = .next effect.pass) ∨
    (∃ c, (true, c) ∈ checks ∧ firstFailing checks = some c ∧ command s checks effect = .next (s.failedWith c)) := by
  unfold command
  cases h : firstFailing checks with
  | none => exact .inl ⟨rfl, rfl⟩
  | some c => exact .inr ⟨c, firstFailing_mem checks c h, rfl, rfl⟩

/-- The same for a command that CTRL.EN gates. -/
theorem commandEnabled_cases (s : State) (checks : List (Bool × CmdCode)) (effect : State) :
    (s.ctrl.en = true ∧ firstFailing checks = none ∧ commandEnabled s checks effect = .next effect.pass) ∨
    (s.ctrl.en = false ∧ commandEnabled s checks effect = .next (s.failedWith .eDisabled)) ∨
    (∃ c, s.ctrl.en = true ∧ (true, c) ∈ checks ∧ firstFailing checks = some c ∧
      commandEnabled s checks effect = .next (s.failedWith c)) := by
  cases h : s.ctrl.en with
  | false => right; left; simp [commandEnabled, command, firstFailing, h, State.fail_eq_failedWith]
  | true =>
    have hc : commandEnabled s checks effect = command s checks effect := by
      simp [commandEnabled, command, firstFailing, h]
    rcases command_cases s checks effect with ⟨h1, h2⟩ | ⟨c, h1, h2, h3⟩
    · exact .inl ⟨rfl, h1, hc.trans h2⟩
    · exact .inr (.inr ⟨c, rfl, h1, h2, hc.trans h3⟩)

/-- The checks of a command, read from the front. -/
theorem commandEnabled_of_pass (s : State) (checks : List (Bool × CmdCode)) (effect : State)
    (hen : s.ctrl.en = true) (h : ∀ p ∈ checks, p.1 = false) : commandEnabled s checks effect = .next effect.pass := by
  have := (firstFailing_none_iff checks).2 h
  simp [commandEnabled, command, firstFailing, hen, this]

/-- A command whose listed checks are the conditions of `props` runs them as `ChecksThen` says. -/
theorem ChecksThen.of_command {i : Instr} {s effect : State} {checks : List (Bool × CmdCode)}
    {props : List (Prop × CmdCode)} {done : State → Prop} (hi : exec i s = command s checks effect)
    (hm : List.Forall₂ (fun c p => (c.1 = true ↔ p.1) ∧ c.2 = p.2) checks props)
    (hd : (∀ p ∈ props, ¬p.1) → done effect.pass) : ChecksThen i s props done := by
  induction hm with
  | nil => exact ⟨effect.pass, by simp [hi, command, firstFailing], rfl, hd (by simp)⟩
  | @cons c p cs ps hcp hrest ih =>
    obtain ⟨bad, code⟩ := c
    obtain ⟨P, code'⟩ := p
    obtain ⟨hP, rfl⟩ := hcp
    refine ⟨fun h => ?_, fun h => ih ?_ fun hall => hd ?_⟩
    · have : bad = true := hP.2 h
      simp [hi, command, firstFailing, this, State.fail_eq_failedWith]
    · have : bad = false := by simpa using fun hb => h (hP.1 hb)
      simpa [command, firstFailing, this] using hi
    · intro q hq
      rcases List.mem_cons.1 hq with rfl | hq
      · exact h
      · exact hall q hq

theorem runOk_cons (i : Instr) (rest : List Instr) (s t : State) (h : exec i s = .next t) (hok : t.cmdStatus = .ok) :
    runOk (i :: rest) s = runOk rest t := by simp [runOk, h, hok]

theorem runOk_append (is js : List Instr) (s : State) :
    runOk (is ++ js) s = (runOk is s).bind (runOk js) := by
  induction is generalizing s with
  | nil => rfl
  | cons i rest ih =>
    simp only [List.cons_append, runOk]
    cases exec i s with
    | next t => by_cases h : t.cmdStatus = .ok <;> simp [h, ih]
    | fault r => rfl
    | refused r => rfl

end Sys2Proof.Machine
end

