-- ==== Sys2Proof/Laws/Decode.lean ====
section
/-! SUPPORT. The fields of a command word (30_encoding.md R100): what each field of `cmdWord` is, and that a word is made of
its three fields. -/

namespace Sys2Proof

/-- Each bit of a command word, by the field it falls in. -/
theorem cmdWord_getLsbD (op a : Byte) (b : Half) (i : Nat) :
    (cmdWord op a b).getLsbD i =
      if i < 8 then op.getLsbD i else if i - 8 < 8 then a.getLsbD (i - 8) else b.getLsbD (i - 8 - 8) := by
  have h1 := BitVec.getLsbD_append (x := b ++ a) (y := op) (i := i)
  have h2 := BitVec.getLsbD_append (x := b) (y := a) (i := i - 8)
  rw [h2] at h1
  exact h1

@[simp] theorem fieldOp_cmdWord (op a : Byte) (b : Half) : fieldOp (cmdWord op a b) = op := by
  apply BitVec.eq_of_getLsbD_eq
  intro i hi
  simp [fieldOp, cmdWord_getLsbD, hi]

@[simp] theorem fieldA_cmdWord (op a : Byte) (b : Half) : fieldA (cmdWord op a b) = a := by
  apply BitVec.eq_of_getLsbD_eq
  intro i hi
  simp [fieldA, cmdWord_getLsbD, hi]

@[simp] theorem fieldB_cmdWord (op a : Byte) (b : Half) : fieldB (cmdWord op a b) = b := by
  apply BitVec.eq_of_getLsbD_eq
  intro i hi
  have h1 : ¬16 + i < 8 := by omega
  have h2 : ¬16 + i - 8 < 8 := by omega
  have h3 : 16 + i - 8 - 8 = i := by omega
  simp [fieldB, cmdWord_getLsbD, hi, h1, h2, h3]

/-- A word is the command word of its fields. -/
theorem cmdWord_fields (w : Word) : cmdWord (fieldOp w) (fieldA w) (fieldB w) = w := by
  apply BitVec.eq_of_getLsbD_eq
  intro i hi
  rw [cmdWord_getLsbD]
  unfold fieldB fieldA fieldOp
  split
  · next h => simp [h]
  · split
    · next h h2 => simp [h2]; congr 1; omega
    · next h h2 =>
      have : i - 8 - 8 < 16 := by omega
      simp [this]; congr 1; omega

/-- Decoding looks at the three fields alone. -/
theorem decode_cmdWord (op a : Byte) (b : Half) : decode (cmdWord op a b) = decodeFields op a b := by
  simp only [decode, fieldOp_cmdWord, fieldA_cmdWord, fieldB_cmdWord]

/-- The bytes of a word put back together (20_memory.md R83). -/
theorem wordOfLanes_byteLanes (w : Word) : wordOfLanes (byteLanes w) = some w := by
  simp only [byteLanes, wordOfLanes, Option.some.injEq]
  apply BitVec.eq_of_getLsbD_eq
  intro i hi
  have h1 := BitVec.getLsbD_append (x := w.extractLsb' 24 8 ++ w.extractLsb' 16 8 ++ w.extractLsb' 8 8)
    (y := w.extractLsb' 0 8) (i := i)
  have h2 := BitVec.getLsbD_append (x := w.extractLsb' 24 8 ++ w.extractLsb' 16 8) (y := w.extractLsb' 8 8) (i := i - 8)
  have h3 := BitVec.getLsbD_append (x := w.extractLsb' 24 8) (y := w.extractLsb' 16 8) (i := i - 8 - 8)
  rw [h3] at h2
  rw [h2] at h1
  refine h1.trans ?_
  by_cases c1 : i < 8
  · simp [c1]
  · by_cases c2 : i - 8 < 8
    · simp [c1, c2]; congr 1; omega
    · by_cases c3 : i - 8 - 8 < 8
      · simp [c1, c2, c3]; congr 1; omega
      · have c4 : i - 8 - 8 - 8 < 8 := by omega
        simp [c1, c2, c3, c4]; congr 1; omega

end Sys2Proof
end

