-- ==== Sys2Proof/Laws/Edc.lean ====
section
/-! SUPPORT. Feeding bytes into a checksum accumulator (41_edc.md R150 to R153, R157): the fold over a list, and the number
of EDC bytes. -/

namespace Sys2Proof.Machine

@[simp] theorem edcFeedAll_nil (k : EdcKind) (acc : Half) : edcFeedAll k acc [] = acc := rfl

@[simp] theorem edcFeedAll_cons (k : EdcKind) (acc : Half) (b : Byte) (bs : List Byte) :
    edcFeedAll k acc (b :: bs) = edcFeedAll k (edcFeed k acc b) bs := rfl

/-- R157: feeding two segments is feeding their concatenation. -/
theorem edcFeedAll_append (k : EdcKind) (acc : Half) (s1 s2 : List Byte) :
    edcFeedAll k acc (s1 ++ s2) = edcFeedAll k (edcFeedAll k acc s1) s2 := by
  simp [edcFeedAll]

/-- R150: the EDC bytes are as many as the kind has. -/
@[simp] theorem edcBytes_length (k : EdcKind) (acc : Half) : (edcBytes k acc).length = edcLen k := by
  cases k <;> rfl

theorem edcLen_pos (k : EdcKind) : 1 ≤ edcLen k ∧ edcLen k ≤ 2 := by cases k <;> simp [edcLen]

end Sys2Proof.Machine
end

