-- ==== Sys2Proof/Laws/Memory.lean ====
section
/-! SUPPORT. The laws of the byte stores: a read after a write, and that every operation keeps the canonical form. -/

namespace Sys2Proof.Machine

theorem Memory.find_write_same (m : List Host.Cell) (k : Nat) (b : Byte) :
    Memory.find (Memory.write m k b) k = some b := by
  induction m with
  | nil => simp [Memory.write, Memory.find]
  | cons c rest ih =>
    obtain ⟨j, x⟩ := c
    by_cases h1 : k < j
    · simp [Memory.write, Memory.find, h1]
    · by_cases h2 : k = j
      · simp [Memory.write, Memory.find, h2]
      · simp [Memory.write, Memory.find, h1, h2, ih, Ne.symm h2]

theorem Memory.find_write_ne (m : List Host.Cell) (k i : Nat) (b : Byte) (h : i ≠ k) :
    Memory.find (Memory.write m k b) i = Memory.find m i := by
  induction m with
  | nil => simp [Memory.write, Memory.find, Ne.symm h]
  | cons c rest ih =>
    obtain ⟨j, x⟩ := c
    by_cases h1 : k < j
    · simp [Memory.write, Memory.find, h1, Ne.symm h]
    · by_cases h2 : k = j
      · subst h2; simp [Memory.write, Memory.find, Ne.symm h]
      · simp [Memory.write, Memory.find, h1, h2, ih]

/-- A read after a write: the written byte at its index, the old byte elsewhere. -/
theorem Memory.find_write (m : List Host.Cell) (k i : Nat) (b : Byte) :
    Memory.find (Memory.write m k b) i = if i = k then some b else Memory.find m i := by
  split
  · next h => rw [h, Memory.find_write_same]
  · next h => exact Memory.find_write_ne m k i b h

theorem Memory.risingFrom_write (m : List Host.Cell) (low k : Nat) (b : Byte)
    (h : Memory.risingFrom low m = true) (hk : low ≤ k) :
    Memory.risingFrom low (Memory.write m k b) = true := by
  induction m generalizing low with
  | nil => simpa [Memory.write, Memory.risingFrom] using hk
  | cons c rest ih =>
    obtain ⟨j, x⟩ := c
    simp only [Memory.risingFrom, Bool.and_eq_true, decide_eq_true_eq] at h
    by_cases h1 : k < j
    · simp only [Memory.write, h1, if_true, Memory.risingFrom, Bool.and_eq_true, decide_eq_true_eq]
      exact ⟨hk, h1, h.2⟩
    · by_cases h2 : k = j
      · subst h2
        simp only [Memory.write, Nat.lt_irrefl, if_false, if_true, Memory.risingFrom, Bool.and_eq_true, decide_eq_true_eq]
        exact h
      · simp only [Memory.write, h1, h2, if_false, Memory.risingFrom, Bool.and_eq_true, decide_eq_true_eq]
        exact ⟨h.1, ih (j + 1) h.2 (by omega)⟩

/-- A write keeps the canonical form. -/
theorem Memory.wf_write (m : List Host.Cell) (k : Nat) (b : Byte) (h : Memory.wf m = true) :
    Memory.wf (Memory.write m k b) = true :=
  Memory.risingFrom_write m 0 k b h (Nat.zero_le k)

/-- A write inside the storage keeps every index inside it. -/
theorem Memory.within_write (size : Nat) (m : List Host.Cell) (k : Nat) (b : Byte)
    (h : Memory.within size m = true) (hk : k < size) : Memory.within size (Memory.write m k b) = true := by
  induction m with
  | nil => simpa [Memory.write, Memory.within] using hk
  | cons c rest ih =>
    obtain ⟨j, x⟩ := c
    simp only [Memory.within, List.all_cons, Bool.and_eq_true, decide_eq_true_eq] at h ih ⊢
    by_cases h1 : k < j
    · simp only [Memory.write, h1, if_true, List.all_cons, Bool.and_eq_true, decide_eq_true_eq]
      exact ⟨hk, h⟩
    · by_cases h2 : k = j
      · subst h2
        simp only [Memory.write, Nat.lt_irrefl, if_false, if_true, List.all_cons, Bool.and_eq_true, decide_eq_true_eq]
        exact h
      · simp only [Memory.write, h1, h2, if_false, List.all_cons, Bool.and_eq_true, decide_eq_true_eq]
        exact ⟨h.1, ih h.2⟩

end Sys2Proof.Machine
end

