-- ==== Sys2Proof/Laws/Fifo.lean ====
section
/-! SUPPORT. The transmit FIFO as a list (40_fifo.md R130, R131): the index arithmetic of the ring, and what push and
dropOldest do to the live bytes, to each storage byte and to the invariant. -/

namespace Sys2Proof.Machine

/-! ### Index arithmetic -/

theorem indexAfter_toNat (d k : Nat) (a : Half) (hd : 0 < d) (hd' : d ≤ 65536) :
    (indexAfter d a k).toNat = (a.toNat + k) % d := by
  have : (a.toNat + k) % d < d := Nat.mod_lt _ hd
  simp only [indexAfter, BitVec.toNat_ofNat]
  omega

/-- The distance between two indexes, without the modulus. -/
theorem indexDistance_eq (d : Nat) (a b : Half) (ha : a.toNat < d) (hb : b.toNat < d) :
    indexDistance d a b = if b.toNat ≤ a.toNat then a.toNat - b.toNat else a.toNat + d - b.toNat := by
  unfold indexDistance
  split
  · rw [show a.toNat + d - b.toNat = (a.toNat - b.toNat) + d by omega, Nat.add_mod_right, Nat.mod_eq_of_lt (by omega)]
  · rw [Nat.mod_eq_of_lt (by omega)]

theorem ring_mod (d x : Nat) (hx : x < 2 * d) : x % d = if x < d then x else x - d := by
  split
  · next h => exact Nat.mod_eq_of_lt h
  · next h => rw [Nat.mod_eq_sub_mod (by omega), Nat.mod_eq_of_lt (by omega)]

theorem State.FifoOk.depth_pos {s : State} (h : s.FifoOk) : 260 ≤ s.depth ∧ s.depth ≤ 65536 := by
  have := h.1
  simp only [Config.Params.legal, Bool.and_eq_true, decide_eq_true_eq] at this
  exact ⟨this.1.1.1.1.1.1.1.2, this.1.1.1.1.1.1.2⟩

theorem State.used_lt {s : State} (h : s.FifoOk) : s.used < s.depth :=
  Nat.mod_lt _ (by have := h.depth_pos; omega)

theorem State.used_add_free {s : State} (h : s.FifoOk) : s.used + s.free + 1 = s.depth := by
  have := s.used_lt h
  unfold State.free
  omega

theorem State.live_length (s : State) : s.live.length = s.used := by simp [State.live, State.oldest]

/-- The place `j` after the tail is the head exactly when `j` is USED. -/
theorem State.place_ne_head {s : State} (h : s.FifoOk) {j : Nat} (hj : j < s.used) :
    (s.fifo.tail.toNat + j) % s.depth ≠ s.fifo.head.toNat := by
  have h1 := s.used_lt h
  obtain ⟨_, hh, ht, -⟩ := h
  unfold State.used at hj h1
  rw [indexDistance_eq _ _ _ hh ht] at hj h1
  rw [ring_mod _ _ (by split at hj <;> omega)]
  split at hj <;> split <;> omega

theorem State.place_used {s : State} (h : s.FifoOk) :
    (s.fifo.tail.toNat + s.used) % s.depth = s.fifo.head.toNat := by
  have h1 := s.used_lt h
  obtain ⟨_, hh, ht, -⟩ := h
  unfold State.used at h1 ⊢
  rw [indexDistance_eq _ _ _ hh ht] at h1 ⊢
  split
  · rw [ring_mod _ _ (by omega)]; split <;> omega
  · rw [ring_mod _ _ (by omega)]; split <;> omega

/-! ### Bytes and lists -/

theorem State.fifoByte_push (s : State) (b : Byte) (k : Nat) :
    (s.push b).fifoByte k = if k = s.fifo.head.toNat then b else s.fifoByte k := by
  simp only [State.fifoByte, State.push_fifo, Memory.find_write, State.push_resets]
  split <;> rfl

theorem State.oldest_length (s : State) (n : Nat) : (s.oldest n).length = n := by simp [State.oldest]

theorem State.oldest_succ (s : State) (n : Nat) : s.oldest (n + 1) = s.oldest n ++ [s.at n] := by
  simp [State.oldest, List.range_succ]

theorem State.oldest_congr {s t : State} {n : Nat} (h : ∀ j < n, t.at j = s.at j) : t.oldest n = s.oldest n := by
  unfold State.oldest
  exact List.map_congr_left fun j hj => h j (List.mem_range.1 hj)

theorem State.take_oldest (s : State) (n m : Nat) : (s.oldest m).take n = s.oldest (min n m) := by
  simp [State.oldest, ← List.map_take, List.take_range]

/-! ### push -/

theorem State.FifoOk.push {s : State} (h : s.FifoOk) (b : Byte) : (s.push b).FifoOk := by
  have hd := h.depth_pos
  obtain ⟨hp, hh, ht, hb, hw, hi⟩ := h
  refine ⟨hp, ?_, ht, hb, Memory.wf_write _ _ _ hw, Memory.within_write _ _ _ _ hi hh⟩
  have : (s.push b).fifo.head.toNat = _ := indexAfter_toNat s.depth 1 s.fifo.head (by omega) (by omega)
  rw [this]
  exact Nat.mod_lt _ (by have : (s.push b).depth = s.depth := rfl; omega)

theorem State.push_head {s : State} (h : s.FifoOk) (b : Byte) :
    (s.push b).fifo.head.toNat = (s.fifo.head.toNat + 1) % s.depth :=
  indexAfter_toNat _ _ _ (by have := h.depth_pos; omega) h.depth_pos.2

theorem State.used_push {s : State} (h : s.FifoOk) (b : Byte) (hf : 0 < s.free) : (s.push b).used = s.used + 1 := by
  have hp := (h.push b)
  have hhd := State.push_head h b
  have huf := s.used_add_free h
  have hd := h.depth_pos
  obtain ⟨_, hh, ht, -⟩ := h
  obtain ⟨_, hh', -⟩ := hp
  unfold State.used at huf ⊢
  have e : (s.push b).depth = s.depth := rfl
  have e' : (s.push b).fifo.tail = s.fifo.tail := rfl
  rw [e] at hh' ⊢
  rw [e', indexDistance_eq _ _ _ hh' ht]
  rw [indexDistance_eq _ _ _ hh ht] at huf ⊢
  rw [hhd, ring_mod _ _ (by omega)]
  repeat' split
  all_goals (split at huf <;> omega)

theorem State.live_push {s : State} (h : s.FifoOk) (b : Byte) (hf : 0 < s.free) :
    (s.push b).live = s.live ++ [b] := by
  unfold State.live
  rw [State.used_push h b hf, State.oldest_succ]
  congr 1
  · refine State.oldest_congr fun j hj => ?_
    simp only [State.at, State.push_fifo, State.fifoByte_push]
    have e : (s.push b).depth = s.depth := rfl
    rw [e, if_neg (State.place_ne_head h hj)]
  · simp only [State.at, State.push_fifo, State.fifoByte_push]
    have e : (s.push b).depth = s.depth := rfl
    rw [e, if_pos (State.place_used h)]

theorem State.free_push {s : State} (h : s.FifoOk) (b : Byte) (hf : 0 < s.free) : (s.push b).free + 1 = s.free := by
  have h1 := s.used_add_free h
  have h2 := (s.push b).used_add_free (h.push b)
  have e : (s.push b).depth = s.depth := rfl
  rw [State.used_push h b hf] at h2
  omega

/-! ### pushAll -/

/-- pushing a list changes the storage and the head alone. -/
theorem State.pushAll_frame (s : State) (bs : List Byte) :
    s.pushAll bs = { s with fifo := (s.pushAll bs).fifo } ∧
    (s.pushAll bs).fifo.tail = s.fifo.tail ∧ (s.pushAll bs).fifo.blkStart = s.fifo.blkStart := by
  induction bs generalizing s with
  | nil => exact ⟨rfl, rfl, rfl⟩
  | cons b rest ih =>
    obtain ⟨h1, h2, h3⟩ := ih (s.push b)
    exact ⟨h1, h2, h3⟩

/-- Everything pushing a list that fits does to the FIFO. -/
theorem State.pushAll_spec {s : State} (h : s.FifoOk) (bs : List Byte) (hf : bs.length ≤ s.free) :
    (s.pushAll bs).FifoOk ∧ (s.pushAll bs).live = s.live ++ bs ∧ (s.pushAll bs).used = s.used + bs.length ∧
    (s.pushAll bs).free + bs.length = s.free ∧
    (s.pushAll bs).fifo.head.toNat = (s.fifo.head.toNat + bs.length) % s.depth ∧
    ∀ k, (∀ j < bs.length, k ≠ (s.fifo.head.toNat + j) % s.depth) → (s.pushAll bs).fifoByte k = s.fifoByte k := by
  induction bs generalizing s with
  | nil =>
    refine ⟨h, by simp [State.pushAll], rfl, rfl, ?_, fun _ _ => rfl⟩
    simp only [State.pushAll, List.foldl_nil, List.length_nil, Nat.add_zero]
    exact (Nat.mod_eq_of_lt h.2.1).symm
  | cons b rest ih =>
    simp only [List.length_cons] at hf
    have hb := State.free_push h b (by omega)
    have hh := State.push_head h b
    obtain ⟨h1, h2, h3, h4, h5, h6⟩ := ih (h.push b) (by omega)
    have e : (s.push b).depth = s.depth := rfl
    have e2 : s.pushAll (b :: rest) = (s.push b).pushAll rest := rfl
    rw [e2]
    refine ⟨h1, ?_, ?_, ?_, ?_, ?_⟩
    · rw [h2, State.live_push h b (by omega)]; simp
    · rw [h3, State.used_push h b (by omega), List.length_cons]; omega
    · simp only [List.length_cons]; omega
    · rw [h5, hh, e, List.length_cons, Nat.mod_add_mod]; congr 1; omega
    · intro k hk
      rw [h6 k, State.fifoByte_push, if_neg]
      · have := hk 0 (by simp)
        rwa [Nat.add_zero, Nat.mod_eq_of_lt h.2.1] at this
      · intro j hj
        have := hk (j + 1) (by simp; omega)
        rw [hh, e, Nat.mod_add_mod]
        rwa [show s.fifo.head.toNat + 1 + j = s.fifo.head.toNat + (j + 1) by omega]

/-! ### dropOldest -/

theorem State.dropOldest_tail {s : State} (h : s.FifoOk) (n : Nat) :
    (s.dropOldest n).fifo.tail.toNat = (s.fifo.tail.toNat + n) % s.depth :=
  indexAfter_toNat _ _ _ (by have := h.depth_pos; omega) h.depth_pos.2

theorem State.FifoOk.dropOldest {s : State} (h : s.FifoOk) (n : Nat) : (s.dropOldest n).FifoOk := by
  have hd := h.depth_pos
  have ht := State.dropOldest_tail h n
  obtain ⟨hp, hh, _, hb, hw, hi⟩ := h
  refine ⟨hp, hh, ?_, hb, hw, hi⟩
  rw [ht]
  exact Nat.mod_lt _ (by have : (s.dropOldest n).depth = s.depth := rfl; omega)

/-- The distance of any index from the tail shrinks by what is dropped. -/
theorem State.distance_dropOldest {s : State} (h : s.FifoOk) (n : Nat) (a : Half) (ha : a.toNat < s.depth)
    (hn : n ≤ indexDistance s.depth a s.fifo.tail) :
    indexDistance s.depth a (s.dropOldest n).fifo.tail + n = indexDistance s.depth a s.fifo.tail := by
  have ht := State.dropOldest_tail h n
  have ht' := (h.dropOldest n).2.2.1
  obtain ⟨_, _, htl, -⟩ := h
  have e : (s.dropOldest n).depth = s.depth := rfl
  rw [e] at ht'
  rw [indexDistance_eq _ _ _ ha ht']
  rw [indexDistance_eq _ _ _ ha htl] at hn ⊢
  rw [ht, ring_mod _ _ (by split at hn <;> omega)]
  split at hn <;> repeat' split
  all_goals omega

theorem State.at_dropOldest {s : State} (h : s.FifoOk) (n j : Nat) : (s.dropOldest n).at j = s.at (n + j) := by
  have ht := State.dropOldest_tail h n
  unfold State.at
  rw [ht]
  have e : (s.dropOldest n).depth = s.depth := rfl
  rw [e, Nat.mod_add_mod, Nat.add_assoc]
  rfl

theorem State.live_dropOldest {s : State} (h : s.FifoOk) (n : Nat) (hn : n ≤ s.used) :
    (s.dropOldest n).live = s.live.drop n := by
  have hu : (s.dropOldest n).used + n = s.used := State.distance_dropOldest h n s.fifo.head h.2.1 hn
  unfold State.live State.oldest
  rw [← List.map_drop]
  apply List.ext_getElem
  · simp; omega
  · intro i h1 h2
    simp [State.at_dropOldest h]

/-! ### Committed bytes -/

/-- The committed bytes are among the live ones. -/
theorem State.committed_le {s : State} (h : s.EncOk) : s.committed ≤ s.used := by
  cases ho : s.enc.isOpen with
  | true => have := (h.1 ho).2.2.2.1; omega
  | false => simp [State.committed, ho]

theorem State.committed_dropOldest {s : State} (h : s.FifoOk) (n : Nat) (hn : n ≤ s.committed) :
    (s.dropOldest n).committed + n = s.committed := by
  unfold State.committed at *
  cases ho : s.enc.isOpen with
  | true =>
    simp only [State.dropOldest_enc, ho, if_true] at *
    exact State.distance_dropOldest h n _ h.2.2.2.1 hn
  | false =>
    simp only [State.dropOldest_enc, ho] at *
    exact State.distance_dropOldest h n _ h.2.1 hn

theorem State.committed_of_closed {s : State} (h : s.enc.isOpen = false) : s.committed = s.used := by
  simp [State.committed, h]

end Sys2Proof.Machine
end

