-- ==== Sys2Proof/Laws/Encoder.lean ====
section
/-! SUPPORT. What the encoder's shared operations do (42_encoder.md R170, R171): pushing and folding a list of bytes,
closing a block, and opening one. -/

namespace Sys2Proof.Machine

theorem State.pushAll_append (s : State) (as bs : List Byte) : s.pushAll (as ++ bs) = (s.pushAll as).pushAll bs := by
  simp [State.pushAll]

/-- Pushing bytes does not look at the encoder or the accumulator. -/
theorem State.fifo_pushAll_congr {s t : State} (hf : t.fifo = s.fifo) (hp : t.params = s.params) (bs : List Byte) :
    (t.pushAll bs).fifo = (s.pushAll bs).fifo := by
  induction bs generalizing s t with
  | nil => exact hf
  | cons b rest ih =>
    refine ih ?_ hp
    simp [State.push, hf, State.depth, hp]

/-- Pushing and folding a list of bytes, in order. -/
theorem foldl_pushFeed (s : State) (bs : List Byte) :
    bs.foldl pushFeed s =
      { s with fifo := (s.pushAll bs).fifo, edc := ⟨edcFeedAll s.edc.latch s.edc.acc bs, s.edc.latch⟩ } := by
  induction bs generalizing s with
  | nil => rfl
  | cons b rest ih =>
    have h : ((pushFeed s b).pushAll rest).fifo = (s.pushAll (b :: rest)).fifo :=
      State.fifo_pushAll_congr (s := s.push b) (t := pushFeed s b) rfl rfl rest
    rw [List.foldl_cons, ih, h]
    rfl

/-- Everything closing a block does (R171). -/
theorem closeBlock_eq (s : State) : closeBlock s = { s with
    fifo := (s.pushAll (edcBytes s.edc.latch s.edc.acc)).fifo
    enc := ⟨false, 0, s.enc.len⟩
    cmdResult := BitVec.ofNat 16 (3 + s.enc.len.toNat + edcLen s.edc.latch) } := by
  unfold closeBlock
  rw [(s.pushAll_frame (edcBytes s.edc.latch s.edc.acc)).1]
  rfl

/-- Everything one INF byte does while more are to come (R175). -/
theorem encodeData_more (s : State) (b : Byte) (h : s.enc.remain - 1 ≠ 0) : encodeData b s = { s with
    fifo := (s.push b).fifo
    edc := ⟨edcFeed s.edc.latch s.edc.acc b, s.edc.latch⟩
    enc := ⟨s.enc.isOpen, s.enc.remain - 1, s.enc.len⟩
    cmdResult := 0 } := if_neg h

/-- Everything the last INF byte does (R171, R175). -/
theorem encodeData_last (s : State) (b : Byte) (h : s.enc.remain - 1 = 0) : encodeData b s = { s with
    fifo := (s.pushAll (b :: edcBytes s.edc.latch (edcFeed s.edc.latch s.edc.acc b))).fifo
    edc := ⟨edcFeed s.edc.latch s.edc.acc b, s.edc.latch⟩
    enc := ⟨false, 0, s.enc.len⟩
    cmdResult := BitVec.ofNat 16 (3 + s.enc.len.toNat + edcLen s.edc.latch) } := by
  let u : State := { pushFeed s b with enc := { s.enc with remain := s.enc.remain - 1 } }
  have e : encodeData b s = closeBlock u := if_pos h
  rw [e, closeBlock_eq, State.fifo_pushAll_congr (s := s.push b) (t := u) rfl rfl]
  rfl

/-- The FIFO of `t` after pushing `w` to the FIFO of `s`, told of any state that has it. -/
theorem State.fifo_after_pushAll {s t : State} (h : s.FifoOk) (w : List Byte) (hf : w.length ≤ s.free)
    (ht : t.fifo = (s.pushAll w).fifo) (hp : t.params = s.params) (hr : t.resets = s.resets) :
    t.live = s.live ++ w ∧ t.fifo.tail = s.fifo.tail ∧ t.fifo.blkStart = s.fifo.blkStart ∧
    t.fifo.head.toNat = (s.fifo.head.toNat + w.length) % s.depth ∧
    ∀ k, (∀ j < w.length, k ≠ (s.fifo.head.toNat + j) % s.depth) → t.fifoByte k = s.fifoByte k := by
  obtain ⟨-, h2, -, -, h5, h6⟩ := State.pushAll_spec h w hf
  obtain ⟨h7, h8, h9⟩ := State.pushAll_frame s w
  have hp' : (s.pushAll w).params = s.params := by rw [h7]
  have hr' : (s.pushAll w).resets = s.resets := by rw [h7]
  have hbyte : ∀ k, t.fifoByte k = (s.pushAll w).fifoByte k := fun k => by
    simp only [State.fifoByte, ht, hr, hr']
  have hat : t.at = (s.pushAll w).at := funext fun k => by
    simp only [State.at, State.depth, ht, hp, hp', hbyte]
  have hlive : t.live = (s.pushAll w).live := by
    simp only [State.live, State.oldest, State.used, State.depth, ht, hp, hp', hat]
  refine ⟨hlive.trans h2, by rw [ht, h8], by rw [ht, h9], by rw [ht, h5], fun k hk => (hbyte k).trans (h6 k hk)⟩

/-- Everything opening a block does to a FIFO with the space for it (R170). -/
theorem openBlock_spec {s : State} (h : s.FifoOk) (pcb len : Byte)
    (hf : 3 + len.toNat + edcLen s.ctrl.edcKind ≤ s.free) : OpensBlock s pcb len (openBlock pcb len s).pass := by
  let u : State := { s.startEdc with
    fifo := { s.fifo with blkStart := s.fifo.head }, enc := { s.enc with len := len } }
  have huok : u.FifoOk := ⟨h.1, h.2.1, h.2.2.1, h.2.1, h.2.2.2.2⟩
  let header := [s.nad.tx, pcb, len]
  let acc := edcFeedAll s.ctrl.edcKind (edcInit s.ctrl.edcKind) header
  let v : State := { u with fifo := (u.pushAll header).fifo, edc := ⟨acc, s.ctrl.edcKind⟩ }
  have hv : header.foldl pushFeed u = v := foldl_pushFeed u header
  have hopen : openBlock pcb len s =
      if len = 0 then closeBlock (header.foldl pushFeed u)
      else ({ header.foldl pushFeed u with
        enc := ⟨true, len, (header.foldl pushFeed u).enc.len⟩ } : State).setResult 0 := rfl
  rw [hopen, hv]
  by_cases hz : len = 0
  · rw [if_pos hz, closeBlock_eq]
    have hw : (header ++ edcBytes s.ctrl.edcKind acc).length ≤ u.free := by
      rw [List.length_append, edcBytes_length]
      exact Nat.le_trans (by simp [header]) hf
    have hfifo : (v.pushAll (edcBytes v.edc.latch v.edc.acc)).fifo =
        (u.pushAll (header ++ edcBytes s.ctrl.edcKind acc)).fifo := by
      rw [State.pushAll_append]
      exact State.fifo_pushAll_congr (s := u.pushAll header) (t := v) rfl
        (congrArg State.params (State.pushAll_frame u header).1).symm _
    rw [hfifo]
    have := State.fifo_after_pushAll huok _ hw
      (t := State.pass { v with
        fifo := (u.pushAll (header ++ edcBytes s.ctrl.edcKind acc)).fifo
        enc := ⟨false, 0, v.enc.len⟩
        cmdResult := BitVec.ofNat 16 (3 + v.enc.len.toNat + edcLen v.edc.latch) }) rfl rfl rfl
    subst hz
    exact ⟨rfl, this⟩
  · rw [if_neg hz]
    have hw : header.length ≤ u.free := Nat.le_trans (by simp [header]; omega) hf
    have := State.fifo_after_pushAll huok _ hw
      (t := State.pass (State.setResult { v with enc := ⟨true, len, v.enc.len⟩ } 0)) rfl rfl rfl
    unfold OpensBlock
    simp only [hz, ne_eq, not_false_eq_true, decide_true, if_false]
    exact ⟨rfl, this⟩

end Sys2Proof.Machine
end

