-- ==== Sys2Proof/Laws/PerInstr.lean ====
section
/-! SUPPORT. The family OpcodeOfRow: the word of every command carries the opcode of its row of the opcode map
(30_encoding.md R102), and so is told from every other command's. -/

namespace Sys2Proof.Laws

/-- R102: the opcode column of the map. -/
def opcode : Instr → Byte
  | .nop => 0x00
  | .softReset => 0x01
  | .cfgDefaults => 0x02
  | .fifoPush _ => 0x10
  | .fifoPop => 0x11
  | .fifoPeek _ => 0x12
  | .fifoRemove _ => 0x13
  | .fifoFlush => 0x14
  | .edcInit => 0x20
  | .edcFeed _ => 0x21
  | .edcEmit => 0x22
  | .encI _ _ _ => 0x30
  | .encR _ _ => 0x31
  | .encS _ _ _ => 0x32
  | .encData _ => 0x33
  | .encAbort => 0x34
  | .rxRestart => 0x40
  | .rxRelease => 0x41
  | .rxPush _ => 0x42
  | .tmrStart _ _ => 0x50
  | .tmrStop _ => 0x51
  | .tick _ => 0x52
  | .txSend _ => 0x60
  | .txStop => 0x61
  | .ccidPowerOn _ => 0x70
  | .ccidPowerOff => 0x71
  | .ccidGetParams => 0x72
  | .ccidSetParams _ _ => 0x73

/-- The encoding of `i` has the opcode of its row. -/
def OpcodeOfRow.Statement (i : Instr) : Prop := fieldOp (encode i) = opcode i

theorem OpcodeOfRow.nop : OpcodeOfRow.Statement .nop := fieldOp_cmdWord _ _ _
theorem OpcodeOfRow.softReset : OpcodeOfRow.Statement .softReset := fieldOp_cmdWord _ _ _
theorem OpcodeOfRow.cfgDefaults : OpcodeOfRow.Statement .cfgDefaults := fieldOp_cmdWord _ _ _
theorem OpcodeOfRow.fifoPush (byte : Byte) : OpcodeOfRow.Statement (.fifoPush byte) := fieldOp_cmdWord _ _ _
theorem OpcodeOfRow.fifoPop : OpcodeOfRow.Statement .fifoPop := fieldOp_cmdWord _ _ _
theorem OpcodeOfRow.fifoPeek (offset : Half) : OpcodeOfRow.Statement (.fifoPeek offset) := fieldOp_cmdWord _ _ _
theorem OpcodeOfRow.fifoRemove (n : Half) : OpcodeOfRow.Statement (.fifoRemove n) := fieldOp_cmdWord _ _ _
theorem OpcodeOfRow.fifoFlush : OpcodeOfRow.Statement .fifoFlush := fieldOp_cmdWord _ _ _
theorem OpcodeOfRow.edcInit : OpcodeOfRow.Statement .edcInit := fieldOp_cmdWord _ _ _
theorem OpcodeOfRow.edcFeed (byte : Byte) : OpcodeOfRow.Statement (.edcFeed byte) := fieldOp_cmdWord _ _ _
theorem OpcodeOfRow.edcEmit : OpcodeOfRow.Statement .edcEmit := fieldOp_cmdWord _ _ _
theorem OpcodeOfRow.encI (m : Bool) (ns : Bool) (len : Byte) :
    OpcodeOfRow.Statement (.encI m ns len) := fieldOp_cmdWord _ _ _
theorem OpcodeOfRow.encR (code : BitVec 4) (nr : Bool) :
    OpcodeOfRow.Statement (.encR code nr) := fieldOp_cmdWord _ _ _
theorem OpcodeOfRow.encS (scmd : BitVec 5) (resp : Bool) (len : Byte) :
    OpcodeOfRow.Statement (.encS scmd resp len) := fieldOp_cmdWord _ _ _
theorem OpcodeOfRow.encData (byte : Byte) : OpcodeOfRow.Statement (.encData byte) := fieldOp_cmdWord _ _ _
theorem OpcodeOfRow.encAbort : OpcodeOfRow.Statement .encAbort := fieldOp_cmdWord _ _ _
theorem OpcodeOfRow.rxRestart : OpcodeOfRow.Statement .rxRestart := fieldOp_cmdWord _ _ _
theorem OpcodeOfRow.rxRelease : OpcodeOfRow.Statement .rxRelease := fieldOp_cmdWord _ _ _
theorem OpcodeOfRow.rxPush (byte : Byte) : OpcodeOfRow.Statement (.rxPush byte) := fieldOp_cmdWord _ _ _
theorem OpcodeOfRow.tmrStart (tid : BitVec 2) (ms : Half) :
    OpcodeOfRow.Statement (.tmrStart tid ms) := fieldOp_cmdWord _ _ _
theorem OpcodeOfRow.tmrStop (tid : BitVec 2) : OpcodeOfRow.Statement (.tmrStop tid) := fieldOp_cmdWord _ _ _
theorem OpcodeOfRow.tick (ms : Half) : OpcodeOfRow.Statement (.tick ms) := fieldOp_cmdWord _ _ _
theorem OpcodeOfRow.txSend (n : Half) : OpcodeOfRow.Statement (.txSend n) := fieldOp_cmdWord _ _ _
theorem OpcodeOfRow.txStop : OpcodeOfRow.Statement .txStop := fieldOp_cmdWord _ _ _
theorem OpcodeOfRow.ccidPowerOn (psel : BitVec 2) : OpcodeOfRow.Statement (.ccidPowerOn psel) := fieldOp_cmdWord _ _ _
theorem OpcodeOfRow.ccidPowerOff : OpcodeOfRow.Statement .ccidPowerOff := fieldOp_cmdWord _ _ _
theorem OpcodeOfRow.ccidGetParams : OpcodeOfRow.Statement .ccidGetParams := fieldOp_cmdWord _ _ _
theorem OpcodeOfRow.ccidSetParams (proto : Bool) (n : Half) :
    OpcodeOfRow.Statement (.ccidSetParams proto n) := fieldOp_cmdWord _ _ _

end Sys2Proof.Laws
end

