-- ==== Sys2Proof/Laws/Receive.lean ====
section
/-! SUPPORT. What the received-byte path can change (43_decoder.md), said once for each operation: where a byte goes, and
that only the receive path, the receive buffer, the inter-byte timer and the events are ever written. -/

namespace Sys2Proof.Machine

/-- R227: restarting the inter-byte timer, whose interval is never 0. -/
theorem State.restartIbt_eq (s : State) (h : s.tmoIbt ≠ 0) :
    s.restartIbt = { s with tmr := { s.tmr with ibt := ⟨s.tmoIbt, true, true⟩ } } := by
  unfold State.restartIbt State.startTimer
  rw [if_neg h]
  rfl

/-- Everything that can become of a received byte (R190). -/
theorem deliver_cases (b : Byte) (perr : Bool) (src : Source) (s : State) :
    deliver b perr src s = s ∨
    (src = .uart ∧ s.ctrl.lbsEn = true ∧ s.lbsCount ≠ 0 ∧
      deliver b perr src s = { s with lbsCount := s.lbsCount - 1 }) ∨
    (s.ctrl.en = true ∧ deliver b perr src s = receiveByte b perr s) := by
  by_cases hen : s.ctrl.en = false
  · simp [deliver, hen]
  · have hen' : s.ctrl.en = true := by simpa using hen
    cases src with
    | uart =>
      by_cases hp : s.ctrl.port = .uart
      · by_cases hl : s.ctrl.lbsEn = true ∧ s.lbsCount ≠ 0
        · exact .inr (.inl ⟨rfl, hl.1, hl.2, by
            unfold deliver
            rw [if_neg hen]
            simp only [hp, ne_eq, not_true_eq_false, if_false]
            exact if_pos hl⟩)
        · exact .inr (.inr ⟨hen', by simp only [deliver, hen', hp, hl]; simp⟩)
      · exact .inl (by simp [deliver, hen', hp])
    | usb =>
      by_cases hp : s.ctrl.port = .usb
      · exact .inr (.inr ⟨hen', by simp [deliver, hen', hp]⟩)
      · exact .inl (by simp [deliver, hen', hp])
    | sw => exact .inr (.inr ⟨hen', by simp [deliver, hen']⟩)

/-- The state `t` differs from `s` at most in what a received byte may write. -/
def OnlyReceivePath (s t : State) : Prop :=
  t = { s with
    rx := t.rx, rxbuf := t.rxbuf, rxInfo := t.rxInfo, rxErrCause := t.rxErrCause, tmr := t.tmr
    irqPend := t.irqPend } ∧ t.tmr.atr = s.tmr.atr ∧ t.tmr.rsp = s.tmr.rsp

theorem OnlyReceivePath.refl (s : State) : OnlyReceivePath s s := ⟨rfl, rfl, rfl⟩

theorem OnlyReceivePath.trans {s t u : State} (h1 : OnlyReceivePath s t) (h2 : OnlyReceivePath t u) :
    OnlyReceivePath s u := by
  obtain ⟨e1, a1, r1⟩ := h1
  obtain ⟨e2, a2, r2⟩ := h2
  refine ⟨?_, a2.trans a1, r2.trans r1⟩
  rw [e1] at e2
  exact e2

theorem OnlyReceivePath.writeRx {s t : State} (h : OnlyReceivePath s t) (k : Nat) (b : Byte) :
    OnlyReceivePath s (t.writeRx k b) := h.trans ⟨rfl, rfl, rfl⟩

theorem OnlyReceivePath.setRxCount {s t : State} (h : OnlyReceivePath s t) (n : Half) :
    OnlyReceivePath s (t.setRxCount n) := h.trans ⟨rfl, rfl, rfl⟩

theorem OnlyReceivePath.setRxState {s t : State} (h : OnlyReceivePath s t) (x : RxState) :
    OnlyReceivePath s (t.setRxState x) := h.trans ⟨rfl, rfl, rfl⟩

theorem OnlyReceivePath.feedRx {s t : State} (h : OnlyReceivePath s t) (b : Byte) :
    OnlyReceivePath s (t.feedRx b) := h.trans ⟨rfl, rfl, rfl⟩

theorem OnlyReceivePath.notePerr {s t : State} (h : OnlyReceivePath s t) (perr : Bool) :
    OnlyReceivePath s (t.notePerr perr) := h.trans ⟨rfl, rfl, rfl⟩

theorem OnlyReceivePath.storeRx {s t : State} (h : OnlyReceivePath s t) (b : Byte) :
    OnlyReceivePath s (t.storeRx b) := h.trans ⟨rfl, rfl, rfl⟩

theorem OnlyReceivePath.raise {s t : State} (h : OnlyReceivePath s t) (e : Event) :
    OnlyReceivePath s (t.raise e) := h.trans ⟨rfl, rfl, rfl⟩

theorem OnlyReceivePath.stopIbt {s t : State} (h : OnlyReceivePath s t) : OnlyReceivePath s (t.stopTimer .ibt) :=
  h.trans ⟨rfl, rfl, rfl⟩

theorem OnlyReceivePath.restartIbt {s t : State} (h : OnlyReceivePath s t) : OnlyReceivePath s t.restartIbt := by
  refine h.trans ?_
  unfold State.restartIbt State.startTimer
  split <;> exact ⟨rfl, rfl, rfl⟩

theorem OnlyReceivePath.ite {s t u : State} {c : Prop} [Decidable c] (h1 : OnlyReceivePath s t)
    (h2 : OnlyReceivePath s u) : OnlyReceivePath s (if c then t else u) := by
  split
  · exact h1
  · exact h2

theorem OnlyReceivePath.abortFrame {s t : State} (h : OnlyReceivePath s t) (c : RxErrCause) :
    OnlyReceivePath s (abortFrame c t) := by
  have h' : OnlyReceivePath s { t with rxErrCause := c } := h.trans ⟨rfl, rfl, rfl⟩
  exact (((h'.raise .rxErr).setRxCount 0).setRxState .skip).restartIbt

theorem OnlyReceivePath.completeFrame {s t : State} (h : OnlyReceivePath s t) :
    OnlyReceivePath s (completeFrame t) := by
  have h' : OnlyReceivePath s { t with rxInfo := frameInfo t } := h.trans ⟨rfl, rfl, rfl⟩
  exact ((h'.setRxState .done).stopIbt).raise .rxDone

theorem rawCapture_only (b : Byte) (perr : Bool) (s : State) : OnlyReceivePath s (rawCapture b perr s) := by
  have h := (OnlyReceivePath.refl s).storeRx b
  have h' : OnlyReceivePath s { s.storeRx b with rx := { (s.storeRx b).rx with rawPerr := true } } :=
    h.trans ⟨rfl, rfl, rfl⟩
  unfold rawCapture
  exact (OnlyReceivePath.ite (OnlyReceivePath.ite h' h) ((OnlyReceivePath.refl s).raise _)).restartIbt

theorem parseAddr_only (b : Byte) (perr : Bool) (s : State) : OnlyReceivePath s (parseAddr b perr s) := by
  unfold parseAddr
  refine (OnlyReceivePath.ite (OnlyReceivePath.writeRx ?_ 0 b) ((OnlyReceivePath.refl s).setRxState _)).restartIbt
  exact ⟨rfl, rfl, rfl⟩

theorem parsePcb_only (b : Byte) (perr : Bool) (s : State) : OnlyReceivePath s (parsePcb b perr s) :=
  ((((((OnlyReceivePath.refl s).writeRx 1 b).setRxCount 2).feedRx b).notePerr perr).setRxState .len).restartIbt

theorem parseLen_only (b : Byte) (perr : Bool) (s : State) : OnlyReceivePath s (parseLen b perr s) := by
  have h := ((((OnlyReceivePath.refl s).writeRx 2 b).setRxCount 3).feedRx b).notePerr perr
  generalize hu : (((s.writeRx 2 b).setRxCount 3).feedRx b).notePerr perr = u at h
  have h' : OnlyReceivePath s { u with rx := { u.rx with len := b } } := h.trans ⟨rfl, rfl, rfl⟩
  unfold parseLen
  rw [hu]
  exact (h'.abortFrame _).ite ((h'.abortFrame _).ite (h'.setRxState _).restartIbt)

theorem parseInf_only (b : Byte) (perr : Bool) (s : State) : OnlyReceivePath s (parseInf b perr s) := by
  have h := (((OnlyReceivePath.refl s).storeRx b).feedRx b).notePerr perr
  unfold parseInf
  exact ((h.setRxState _).ite h).restartIbt

theorem parseEdc_only (b : Byte) (perr : Bool) (s : State) : OnlyReceivePath s (parseEdc b perr s) := by
  have h := ((OnlyReceivePath.refl s).storeRx b).notePerr perr
  unfold parseEdc
  exact h.completeFrame.ite h.restartIbt

theorem parse_only (b : Byte) (perr : Bool) (s : State) : OnlyReceivePath s (parse b perr s) := by
  unfold parse
  cases s.rx.state with
  | skip => exact (OnlyReceivePath.refl s).restartIbt
  | addr => exact parseAddr_only b perr s
  | pcb => exact parsePcb_only b perr s
  | len => exact parseLen_only b perr s
  | inf => exact parseInf_only b perr s
  | edc => exact parseEdc_only b perr s
  | done => exact (OnlyReceivePath.refl s).raise _
  | raw => exact .refl s

/-- A byte that reaches the receive mode writes the receive path alone. -/
theorem receiveByte_only (b : Byte) (perr : Bool) (s : State) : OnlyReceivePath s (receiveByte b perr s) := by
  unfold receiveByte
  cases s.ctrl.rxMode with
  | raw => exact rawCapture_only b perr s
  | t1 => exact parse_only b perr s

/-- R204: so does the expiry of the inter-byte timer, which leaves the timers and the buffer too. -/
theorem onIbtExpiry_only (s : State) :
    OnlyReceivePath s (onIbtExpiry s) ∧ (onIbtExpiry s).tmr = s.tmr ∧ (onIbtExpiry s).rxbuf = s.rxbuf := by
  unfold onIbtExpiry
  cases s.rx.state with
  | raw =>
    by_cases h : s.rx.count = 0
    · simp only [h, ne_eq, not_true_eq_false, if_false]
      exact ⟨.refl s, trivial, trivial⟩
    · simp only [h, ne_eq, not_false_eq_true, if_true]
      exact ⟨⟨rfl, rfl, rfl⟩, rfl, rfl⟩
  | skip => exact ⟨⟨rfl, rfl, rfl⟩, rfl, rfl⟩
  | addr => exact ⟨.refl s, rfl, rfl⟩
  | pcb => exact ⟨⟨rfl, rfl, rfl⟩, rfl, rfl⟩
  | len => exact ⟨⟨rfl, rfl, rfl⟩, rfl, rfl⟩
  | inf => exact ⟨⟨rfl, rfl, rfl⟩, rfl, rfl⟩
  | edc => exact ⟨⟨rfl, rfl, rfl⟩, rfl, rfl⟩
  | done => exact ⟨.refl s, rfl, rfl⟩

/-- R205: everything restart_rx does. -/
theorem restartRx_eq (s : State) : restartRx s =
    { s with
      rx := { s.rx with
        state := if s.ctrl.rxMode = .raw then .raw else .addr
        count := 0, rawPerr := false, perr := false, len := 0 }
      rxInfo := RxInfo.zero
      rxErrCause := .none
      tmr := { s.tmr with ibt := ⟨0, false, false⟩ } } := by
  cases h : s.ctrl.rxMode <;> simp [restartRx, h, State.stopTimer, Timers.set, Countdown.stopped]

end Sys2Proof.Machine
end

