-- ==== Sys2Proof/Laws/Timer.lean ====
section
/-! SUPPORT. The timers and the presence detector (44_timers.md R220 to R222, 45_uart_tx.md R249, R250): reading one
channel after an update, the countdown of one channel, and what a presence sample can change. -/

namespace Sys2Proof.Machine

theorem Timers.get_set (t : Timers) (c d : Channel) (v : Countdown) :
    (t.set c v).get d = if d = c then v else t.get d := by cases c <;> cases d <;> rfl

/-- R220: a start, at 0 and else. -/
theorem State.startTimer_get (s : State) (c d : Channel) (v : Half) :
    (s.startTimer c v).tmr.get d =
      if d ≠ c then s.tmr.get d else if v = 0 then ⟨0, false, false⟩ else ⟨v, true, true⟩ := by
  unfold State.startTimer
  split
  · next hv => by_cases hd : d = c <;> simp [State.stopTimer, Timers.get_set, Countdown.stopped, hd]
  · next hv => by_cases hd : d = c <;> simp [Timers.get_set, hd]

/-- Starting a timer changes the timers alone. -/
theorem State.startTimer_only (s : State) (c : Channel) (v : Half) :
    s.startTimer c v = { s with tmr := (s.startTimer c v).tmr } := by
  unfold State.startTimer
  split <;> rfl

theorem satSub_toNat (a b : Half) : (satSub a b).toNat = a.toNat - b.toNat := by
  unfold satSub
  split
  · next h => rw [BitVec.toNat_sub_of_le h]
  · next h =>
    have : a.toNat < b.toNat := by simpa [BitVec.le_def] using h
    simp; omega

theorem satSub_eq_zero (a b : Half) : satSub a b = 0 ↔ a.toNat ≤ b.toNat := by
  rw [← BitVec.toNat_inj, satSub_toNat]
  simp; omega

/-- Everything a TICK of `e` does to one channel (R222). -/
theorem countdown_eq (c : Countdown) (e : Half) :
    countdown c e =
      if c.run = false then (c, false)
      else (⟨satSub c.rem e, !(!c.first && decide (c.rem.toNat ≤ e.toNat)), false⟩,
        !c.first && decide (c.rem.toNat ≤ e.toNat)) := by
  have hz := satSub_eq_zero c.rem e
  cases hr : c.run <;> cases hf : c.first <;> by_cases h : c.rem.toNat ≤ e.toNat <;>
    simp_all [countdown]

/-- R249, R250: the fields a presence sample can write. -/
theorem presenceSample_only (s : State) :
    presenceSample s = { s with
      presPin := s.presenceLevel, present := (presenceSample s).present, debCnt := (presenceSample s).debCnt
      irqPend := (presenceSample s).irqPend, pinCtrl := (presenceSample s).pinCtrl, tx := (presenceSample s).tx
      lbsCount := (presenceSample s).lbsCount, rx := (presenceSample s).rx, tmr := (presenceSample s).tmr } := by
  have drop (u : State) : dropFrameInProgress u = { u with rx := (dropFrameInProgress u).rx } := by
    unfold dropFrameInProgress; repeat' split
    all_goals rfl
  have abandon (u : State) : abandonUartSend u = { u with tx := (abandonUartSend u).tx } := by
    unfold abandonUartSend; split <;> rfl
  have rem (u : State) : removal u = { u with
      irqPend := (removal u).irqPend, pinCtrl := (removal u).pinCtrl, tx := (removal u).tx
      lbsCount := (removal u).lbsCount, rx := (removal u).rx, tmr := (removal u).tmr } := by
    simp only [removal]
    split
    · rw [drop, abandon]; rfl
    · rfl
  simp only [presenceSample]
  split
  · rfl
  · split
    · split
      · rfl
      · rw [rem]
    · rfl

/-- R249: a sample that removes no card (the level reads present, none was present, or the run is still short of N) leaves
the timers as they are. -/
theorem presenceSample_tmr (s : State)
    (h : s.presenceLevel = true ∨ s.present = false ∨ s.debCnt.toNat + 1 < s.presCfg.n.toNat) :
    (presenceSample s).tmr = s.tmr := by
  have run : s.debCnt.toNat + 1 < s.presCfg.n.toNat → ¬ s.debCnt + 1 ≥ s.presCfg.n := fun h hn => by
    simp [BitVec.le_def, BitVec.toNat_add] at hn
    omega
  simp only [presenceSample]
  split
  · rfl
  · split
    · split
      · rfl
      · obtain h | h | h := h
        · contradiction
        · simp_all
        · exact absurd ‹_› (run h)
    · rfl

end Sys2Proof.Machine
end

