-- ==== Sys2Proof/Laws/Transmit.lean ====
section
/-! SUPPORT. What handing a message to the bulk-out pipe does (46_ccid.md R261, R262, R265), and what the steps of the
ports can answer. -/

namespace Sys2Proof.Machine

theorem bulkOutMessage_length (kind : BulkOutKind) (n : Half) (s : State) :
    (bulkOutMessage kind n s).length = 10 + n.toNat := by
  simp only [bulkOutMessage, bulkOutHeader, State.oldest, List.length_append, List.length_map, List.length_range,
    List.length_cons, List.length_nil]

/-- Everything usb_send does: the message is pending, the send is in progress, the sequence number advanced. -/
theorem usbSend_eq (kind : BulkOutKind) (n : Half) (s : State) : usbSend kind n s = { s with
    usbOut := some (bulkOutMessage kind n s)
    tx := ⟨true, .usb, n, s.tx.cursor⟩
    usbSeq := ⟨s.usbSeq.next + 1, s.usbSeq.next, true⟩ } := by
  have h : BitVec.ofNat 16 ((bulkOutMessage kind n s).length - 10) = n := by
    rw [bulkOutMessage_length, Nat.add_sub_cancel_left, BitVec.ofNat_toNat]
    simp
  have e : usbSend kind n s = { s with
      usbOut := some (bulkOutMessage kind n s)
      tx := ⟨true, .usb, BitVec.ofNat 16 ((bulkOutMessage kind n s).length - 10), s.tx.cursor⟩
      usbSeq := ⟨s.usbSeq.next + 1, s.usbSeq.next, true⟩ } := rfl
  rw [e, h]

theorem deliverAll_nil (s : State) : deliverAll [] s = s := rfl

theorem deliverAll_cons (b : Byte) (bs : List Byte) (s : State) :
    deliverAll (b :: bs) s = deliverAll bs (deliver b false .usb s) := rfl

theorem deliverAll_append (as bs : List Byte) (s : State) :
    deliverAll (as ++ bs) s = deliverAll bs (deliverAll as s) := by
  simp [deliverAll]

/-- R244: LINE_TAKE is a step exactly while a UART send is in progress. -/
theorem lineTake_cases (ok : Bool) (s : State) :
    (s.tx.busy = true ∧ s.tx.portLatch = .uart ∧ lineTake ok s = .next (if ok then lineTaken s else lineRefused s)) ∨
    (¬(s.tx.busy = true ∧ s.tx.portLatch = .uart) ∧ lineTake ok s = .refused .lineTakeNotEnabled) := by
  by_cases h : s.tx.busy = true ∧ s.tx.portLatch = .uart
  · exact .inl ⟨h.1, h.2, by simp [lineTake, lineTakeEnabled, h]⟩
  · refine .inr ⟨h, ?_⟩
    have : lineTakeEnabled s = false := by
      simpa [lineTakeEnabled] using h
    simp [lineTake, this]

end Sys2Proof.Machine
end

