-- ==== Sys2Proof/Tests/Slice0.lean ====
section
/-! SUPPORT. Tests of the model and witnesses for the statements.  The expected results are those of 95_test_vectors.md
(the vector's name stands at the test) or of the rule named there.  Each test runs one step on a small state built here.
A witness theorem shows states and operands that meet the hypotheses of one statement, clause by clause. -/

namespace Sys2Proof.Tests.Slice0

open Sys2Proof Sys2Proof.Machine

/-! ### States and observations -/

/-- The hardware-reset state after HOST wrote `v` to CTRL. -/
def withCtrl (v : Word) : State := writeCtrl v State.reset

/-- The transmit FIFO storage with the bytes `bs` written from index 0. -/
def cellsOf (bs : List Byte) : List Host.Cell := (List.range bs.length).zip bs

/-- `s` with the live bytes `bs`, from index 0. -/
def holding (bs : List Byte) (s : State) : State :=
  { s with fifo := ⟨cellsOf bs, BitVec.ofNat 16 bs.length, 0, 0⟩ }

/-- CTRL 0x5: EN, LRC, UART, RAW. -/
def uart : State := withCtrl 0x5

/-- CTRL 0x15: EN, LRC, UART, T1. -/
def t1 : State := withCtrl 0x15

/-- CTRL 0x9: EN, LRC, USB, RAW. -/
def usb : State := withCtrl 0x9

/-- CTRL 0x5 with an I-block of LEN 2 open and its header in the FIFO (V-ENC-1 after ENC_I). -/
def blockOpen : State := { holding [0, 0, 2] uart with enc := ⟨true, 2, 2⟩, edc := ⟨2, .lrc⟩ }

/-- TXFIFO_DEPTH 260 and CTRL 0x7 with `n` live bytes (V-FIFO-7, V-EDC-6). -/
def filled (n : Nat) : State :=
  let s := State.resetWith { Config.Params.reference with txFifoDepth := 260 } false
  { writeCtrl 0x7 s with fifo := ⟨[], BitVec.ofNat 16 n, 0, 0⟩ }

/-- A UART send of the two bytes 01, 02 in progress (V-FIFO-8). -/
def sending : State := { holding [1, 2] uart with tx := ⟨true, .uart, 2, 0⟩ }

/-- A USB send in progress, its message not yet accepted (V-CCID-1). -/
def usbSending : State :=
  { usb with
    usbOut := some [0x62, 0, 0, 0, 0, 0, 0, 0, 0, 0], tx := ⟨true, .usb, 0, 0⟩, usbSeq := ⟨1, 0, true⟩ }

/-- CTRL 0x9 with LAST_VALID = 1 and LAST = 0: a bulk-in message with sequence number 0 is the answer. -/
def usbWaiting : State := { usb with usbSeq := ⟨1, 0, true⟩ }

/-- The parser of `s` in receive state `x` with `n` bytes received. -/
def parserAt (x : RxState) (n : Half) (s : State) : State := { s with rx := { s.rx with state := x, count := n } }

/-- A complete R-block `00 81 00 81` but for its last byte (V-DEC-1). -/
def lastByteDue : State :=
  { parserAt .edc 3 t1 with rxbuf := [(0, 0), (1, 0x81), (2, 0)]
                            rx := ⟨.edc, 3, false, false, 0x81, .lrc, 0⟩ }

/-- What `f` sees of the next state, if the answer is one. -/
def seen {α : Type} (r : Result) (f : State → α) : Option α :=
  match r with
  | .next t => some (f t)
  | .fault _ => none
  | .refused _ => none

/-- CMD_STATUS and CMD_RESULT after HOST writes `w` to CMD. -/
def outcome (w : Word) (s : State) : Option (Byte × Half) := seen (writeCmd w s) fun t => (t.cmdStatus.code, t.cmdResult)

/-- The number of the first condition that holds, as `ChecksThen` finds it. -/
def firstOf (conditions : State → List Bool) (s : State) : Option Nat := (conditions s).findIdx? id

/-- The answer is a next state. -/
def isNext (r : Result) : Bool := (seen r fun _ => ()).isSome

/-! ### Well-formedness -/

theorem test_wellFormed_refuses_tmrStart_tid3 : (Instr.tmrStart 3 5).wellFormed = false := by decide

theorem test_wellFormed_refuses_tmrStop_tid3 : (Instr.tmrStop 3).wellFormed = false := by decide

theorem test_wellFormed_accepts_tid2 : (Instr.tmrStart 2 0).wellFormed = true := by decide

/-! ### Decoding: words of 95_test_vectors.md, or written from the row of R102 -/

theorem test_decode_nop : decode 0x00000000 = .ok .nop := by decide
theorem test_decode_softReset : decode 0x00000001 = .ok .softReset := by decide
theorem test_decode_cfgDefaults : decode 0x00000002 = .ok .cfgDefaults := by decide
theorem test_decode_fifoPush : decode 0x00003B10 = .ok (.fifoPush 0x3B) := by decide
theorem test_decode_fifoPop : decode 0x00000011 = .ok .fifoPop := by decide
theorem test_decode_fifoPeek : decode 0x00020012 = .ok (.fifoPeek 2) := by decide
theorem test_decode_fifoRemove : decode 0x00070013 = .ok (.fifoRemove 7) := by decide
theorem test_decode_fifoFlush : decode 0x00000014 = .ok .fifoFlush := by decide
theorem test_decode_edcInit : decode 0x00000020 = .ok .edcInit := by decide
theorem test_decode_edcFeed : decode 0x00003B21 = .ok (.edcFeed 0x3B) := by decide
theorem test_decode_edcEmit : decode 0x00000022 = .ok .edcEmit := by decide
theorem test_decode_encI : decode 0x00050230 = .ok (.encI false true 5) := by decide
theorem test_decode_encI_2 : decode 0x00020130 = .ok (.encI true false 2) := by decide
theorem test_decode_encR : decode 0x00001031 = .ok (.encR 0 true) := by decide
theorem test_decode_encR_2 : decode 0x00000131 = .ok (.encR 1 false) := by decide
theorem test_decode_encS : decode 0x00012132 = .ok (.encS 1 true 1) := by decide
theorem test_decode_encS_2 : decode 0x00000132 = .ok (.encS 1 false 0) := by decide
theorem test_decode_encData : decode 0x0000FE33 = .ok (.encData 0xFE) := by decide
theorem test_decode_encAbort : decode 0x00000034 = .ok .encAbort := by decide
theorem test_decode_rxRestart : decode 0x00000040 = .ok .rxRestart := by decide
theorem test_decode_rxRelease : decode 0x00000041 = .ok .rxRelease := by decide
theorem test_decode_rxPush : decode 0x00008142 = .ok (.rxPush 0x81) := by decide
theorem test_decode_tmrStart : decode 0x03E80250 = .ok (.tmrStart 2 1000) := by decide
theorem test_decode_tmrStop : decode 0x00000051 = .ok (.tmrStop 0) := by decide
theorem test_decode_tmrStop_2 : decode 0x00000251 = .ok (.tmrStop 2) := by decide
theorem test_decode_tick : decode 0x000A0052 = .ok (.tick 10) := by decide
theorem test_decode_txSend : decode 0x00060060 = .ok (.txSend 6) := by decide
theorem test_decode_txStop : decode 0x00000061 = .ok .txStop := by decide
theorem test_decode_ccidPowerOn : decode 0x00000170 = .ok (.ccidPowerOn 1) := by decide
theorem test_decode_ccidPowerOff : decode 0x00000071 = .ok .ccidPowerOff := by decide
theorem test_decode_ccidGetParams : decode 0x00000072 = .ok .ccidGetParams := by decide
theorem test_decode_ccidSetParams : decode 0x00070173 = .ok (.ccidSetParams true 7) := by decide

/-- V-SYS-3, V-SYS-4, V-SYS-6. -/
theorem test_decode_rejects : decode 0x00000100 = .error (.reservedBits 0x00) ∧
    decode 0x00000003 = .error .unknownOpcode ∧ decode 0x000000FF = .error .unknownOpcode ∧
    decode 0x00010011 = .error (.reservedBits 0x11) ∧ decode 0x00000430 = .error (.reservedBits 0x30) ∧
    decode 0x01000030 = .error (.reservedBits 0x30) := by decide

/-- V-ENC-5, R107: the words of ENC_S and TMR_START, from the encoder. -/
theorem test_encode : encode (.encS 1 true 1) = 0x00012132 ∧ encode (.tmrStart 1 5) = 0x00050150 := by decide

/-! ### The CRC table of R152, as the spec prints it, and the values of 41_edc.md -/

theorem test_crcTab_0 : (List.range 64).map (fun k => crcTab (BitVec.ofNat 8 (0 + k))) =
    [0x0000, 0x1189, 0x2312, 0x329B, 0x4624, 0x57AD, 0x6536, 0x74BF, 0x8C48, 0x9DC1, 0xAF5A, 0xBED3, 0xCA6C, 0xDBE5, 0xE97E, 0xF8F7] ++
    [0x1081, 0x0108, 0x3393, 0x221A, 0x56A5, 0x472C, 0x75B7, 0x643E, 0x9CC9, 0x8D40, 0xBFDB, 0xAE52, 0xDAED, 0xCB64, 0xF9FF, 0xE876] ++
    [0x2102, 0x308B, 0x0210, 0x1399, 0x6726, 0x76AF, 0x4434, 0x55BD, 0xAD4A, 0xBCC3, 0x8E58, 0x9FD1, 0xEB6E, 0xFAE7, 0xC87C, 0xD9F5] ++
    [0x3183, 0x200A, 0x1291, 0x0318, 0x77A7, 0x662E, 0x54B5, 0x453C, 0xBDCB, 0xAC42, 0x9ED9, 0x8F50, 0xFBEF, 0xEA66, 0xD8FD, 0xC974] := by decide +kernel

theorem test_crcTab_1 : (List.range 64).map (fun k => crcTab (BitVec.ofNat 8 (64 + k))) =
    [0x4204, 0x538D, 0x6116, 0x709F, 0x0420, 0x15A9, 0x2732, 0x36BB, 0xCE4C, 0xDFC5, 0xED5E, 0xFCD7, 0x8868, 0x99E1, 0xAB7A, 0xBAF3] ++
    [0x5285, 0x430C, 0x7197, 0x601E, 0x14A1, 0x0528, 0x37B3, 0x263A, 0xDECD, 0xCF44, 0xFDDF, 0xEC56, 0x98E9, 0x8960, 0xBBFB, 0xAA72] ++
    [0x6306, 0x728F, 0x4014, 0x519D, 0x2522, 0x34AB, 0x0630, 0x17B9, 0xEF4E, 0xFEC7, 0xCC5C, 0xDDD5, 0xA96A, 0xB8E3, 0x8A78, 0x9BF1] ++
    [0x7387, 0x620E, 0x5095, 0x411C, 0x35A3, 0x242A, 0x16B1, 0x0738, 0xFFCF, 0xEE46, 0xDCDD, 0xCD54, 0xB9EB, 0xA862, 0x9AF9, 0x8B70] := by decide +kernel

theorem test_crcTab_2 : (List.range 64).map (fun k => crcTab (BitVec.ofNat 8 (128 + k))) =
    [0x8408, 0x9581, 0xA71A, 0xB693, 0xC22C, 0xD3A5, 0xE13E, 0xF0B7, 0x0840, 0x19C9, 0x2B52, 0x3ADB, 0x4E64, 0x5FED, 0x6D76, 0x7CFF] ++
    [0x9489, 0x8500, 0xB79B, 0xA612, 0xD2AD, 0xC324, 0xF1BF, 0xE036, 0x18C1, 0x0948, 0x3BD3, 0x2A5A, 0x5EE5, 0x4F6C, 0x7DF7, 0x6C7E] ++
    [0xA50A, 0xB483, 0x8618, 0x9791, 0xE32E, 0xF2A7, 0xC03C, 0xD1B5, 0x2942, 0x38CB, 0x0A50, 0x1BD9, 0x6F66, 0x7EEF, 0x4C74, 0x5DFD] ++
    [0xB58B, 0xA402, 0x9699, 0x8710, 0xF3AF, 0xE226, 0xD0BD, 0xC134, 0x39C3, 0x284A, 0x1AD1, 0x0B58, 0x7FE7, 0x6E6E, 0x5CF5, 0x4D7C] := by decide +kernel

theorem test_crcTab_3 : (List.range 64).map (fun k => crcTab (BitVec.ofNat 8 (192 + k))) =
    [0xC60C, 0xD785, 0xE51E, 0xF497, 0x8028, 0x91A1, 0xA33A, 0xB2B3, 0x4A44, 0x5BCD, 0x6956, 0x78DF, 0x0C60, 0x1DE9, 0x2F72, 0x3EFB] ++
    [0xD68D, 0xC704, 0xF59F, 0xE416, 0x90A9, 0x8120, 0xB3BB, 0xA232, 0x5AC5, 0x4B4C, 0x79D7, 0x685E, 0x1CE1, 0x0D68, 0x3FF3, 0x2E7A] ++
    [0xE70E, 0xF687, 0xC41C, 0xD595, 0xA12A, 0xB0A3, 0x8238, 0x93B1, 0x6B46, 0x7ACF, 0x4854, 0x59DD, 0x2D62, 0x3CEB, 0x0E70, 0x1FF9] ++
    [0xF78F, 0xE606, 0xD49D, 0xC514, 0xB1AB, 0xA022, 0x92B9, 0x8330, 0x7BC7, 0x6A4E, 0x58D5, 0x495C, 0x3DE3, 0x2C6A, 0x1EF1, 0x0F78] := by decide +kernel

/-- V-EDC-1: the check value of "123456789". -/
theorem test_crc_check_value :
    edcFeedAll .crc 0xFFFF [0x31, 0x32, 0x33, 0x34, 0x35, 0x36, 0x37, 0x38, 0x39] = 0x6F91 := by decide +kernel

/-- V-EDC-2, rows 13 and 8. -/
theorem test_edc_values : edcFeedAll .lrc 0 [0x00, 0x40, 0x05, 0x00, 0xA4, 0x04, 0x00, 0x00] = 0xE5 ∧
    edcFeedAll .crc 0xFFFF [0x00, 0x40, 0x05, 0x00, 0xA4, 0x04, 0x00, 0x00] = 0x1CBD ∧
    edcFeedAll .crc 0xFFFF [0x00, 0xC1, 0x01, 0xFE] = 0x544E := by decide +kernel

/-- V-UART-1: characters of the two conventions. -/
theorem test_lineEncode : lineEncode 0x3B .direct = (0x3B, true) ∧ lineEncode 0x3B .inverse = (0x23, false) ∧
    lineEncode 0x3F .inverse = (0x03, true) ∧ lineEncode 0x01 .inverse = (0x7F, false) := by decide

/-! ### System commands -/

/-- V-SYS-2. -/
theorem test_nop : seen (writeCmd 0x00000000 (State.reset.failedWith .eDisabled)) (fun t => (t.cmdStatus, t.irqPend)) =
    some (.ok, 0x0800) := by decide

/-- V-SYS-7. -/
theorem test_softReset : seen (writeCmd 0x00000001 (sending.raise .rxDone))
    (fun t => (t.used, t.tx.busy, t.irqPend, Reg.status.read t, Reg.ctrl.read t)) = some (0, false, 0, 7, 5) := by
  decide

/-- V-SYS-8. -/
theorem test_cfgDefaults : seen (writeCmd 0x00000002 { uart with ifs := ⟨0xFE, 0xFE⟩ }) (Reg.ifs.read ·) =
    some 0x00002020 := by decide

/-! ### Transmit FIFO -/

/-- V-FIFO-1. -/
theorem test_fifoPush : seen (writeCmd 0x00003B10 uart)
    (fun t => (t.cmdStatus, Reg.fifoLevel.read t, Reg.fifoCommit.read t, Reg.status.read t)) =
    some (.ok, 0x03FE0001, 1, 7) := by decide

/-- V-FIFO-7. -/
theorem test_fifoPush_full : outcome 0x0000EE10 (filled 259) = some (3, 0) := by decide

/-- V-FIFO-6. -/
theorem test_fifoPop_wraps : seen (writeCmd 0x00000011 { uart with fifo := ⟨[(0, 0x88), (1023, 0x77)], 1, 1023, 0⟩ })
    (fun t => (t.cmdResult, t.fifo.tail, t.used)) = some (0x77, 0, 1) := by decide

/-- V-FIFO-3. -/
theorem test_fifoPop_empty : seen (writeCmd 0x00000011 uart) (fun t => (t.cmdStatus, t.irqPend)) =
    some (.eEmpty, 0x0800) := by decide

/-- V-FIFO-4. -/
theorem test_fifoPeek : outcome 0x00020012 (holding [0, 0x40, 5] uart) = some (0, 5) ∧
    outcome 0x00030012 (holding [0, 0x40, 5] uart) = some (4, 0) := by decide

/-- V-FIFO-5. -/
theorem test_fifoRemove_wraps : seen (writeCmd 0x00070013 { uart with fifo := ⟨[], 6, 1020, 0⟩ })
    (fun t => (t.fifo.tail, t.used)) = some (3, 3) := by decide

/-- V-FIFO-8, V-FIFO-10. -/
theorem test_fifoFlush : outcome 0x00000014 sending = some (7, 0) ∧ outcome 0x00000014 blockOpen = some (6, 0) ∧
    seen (writeCmd 0x00000014 (holding [1] uart)) (·.used) = some 0 := by decide

/-! ### Error-detection codes -/

/-- V-EDC-1. -/
theorem test_edcInit : seen (writeCmd 0x00000020 (withCtrl 0x7)) (fun t => (t.cmdResult, Reg.edcAcc.read t)) =
    some (0xFFFF, 0x0001FFFF) := by decide

/-- V-EDC-2, row 8 stepwise. -/
theorem test_edcFeed : outcome 0x0000C121 { uart with edc := ⟨0x0F87, .crc⟩ } = some (0, 0x273D) := by decide

/-- V-EDC-4. -/
theorem test_edcEmit : seen (writeCmd 0x00000022 { uart with edc := ⟨0x1CBD, .crc⟩ }) (fun t => (t.live, t.cmdResult)) =
    some ([0xBD, 0x1C], 2) := by decide

/-! ### Block encoder -/

/-- V-ENC-3: LEN 0 under CRC is a whole block. -/
theorem test_encI_empty : seen (writeCmd 0x00000030 (withCtrl 0x7)) (fun t => (t.live, t.cmdResult, t.enc.isOpen)) =
    some ([0, 0, 0, 0x33, 0x39], 5, false) := by decide

/-- V-ENC-2: the header of `ENC_I ns=1, len=5`. -/
theorem test_encI_opens : seen (writeCmd 0x00050230 (withCtrl 0x7)) (fun t => (t.live, t.enc, t.cmdResult)) =
    some ([0, 0x40, 5], ⟨true, 5, 5⟩, 0) := by decide

/-- V-ENC-7, V-ENC-8. -/
theorem test_encR : seen (writeCmd 0x00001031 uart) (fun t => (t.live, t.cmdResult)) = some ([0, 0x90, 0, 0x90], 4) ∧
    seen (writeCmd 0x00000131 (withCtrl 0x7)) (·.live) = some [0, 0x81, 0, 0x27, 0xAC] := by decide

/-- V-ENC-6, V-ENC-11. -/
theorem test_encS : seen (writeCmd 0x00000032 (withCtrl 0x7)) (·.live) = some [0, 0xC0, 0, 0x99, 0xF3] ∧
    outcome 0x00020132 uart = some (5, 0) := by decide

/-- V-ENC-1: the first INF byte. -/
theorem test_encData : seen (writeCmd 0x00000133 blockOpen) (fun t => (t.live, t.cmdResult, t.enc.remain)) =
    some ([0, 0, 2, 1], 0, 1) := by decide

/-- V-ENC-1: the last INF byte, after 00 00 02 01. -/
theorem test_encData_last : seen (writeCmd 0x00000233
      { holding [0, 0, 2, 1] uart with enc := ⟨true, 1, 2⟩, edc := ⟨3, .lrc⟩ })
    (fun t => (t.live, t.cmdResult, t.enc.isOpen)) = some ([0, 0, 2, 1, 2, 1], 6, false) := by decide

/-- R176: the header of the open block is taken back. -/
theorem test_encAbort : seen (writeCmd 0x00000034 blockOpen) (fun t => (t.used, t.enc.isOpen, t.enc.remain, t.edc.acc)) =
    some (0, false, 0, 2) := by decide

/-! ### Receive path -/

/-- V-DEC-25: a frame in progress is dropped. -/
theorem test_rxRestart : seen (writeCmd 0x00000040 lastByteDue)
    (fun t => (Reg.status.read t, t.rx.count, Reg.rxInfo.read t)) = some (1, 0, 0) := by decide

/-- V-DEC-13, V-DEC-14. -/
theorem test_rxRelease : seen (writeCmd 0x00000041 (parserAt .done 4 t1)) (fun t => (t.rx.state, t.rx.count)) =
    some (.addr, 0) ∧ outcome 0x00000041 t1 = some (6, 0) := by decide

/-- V-DEC-21: the last byte of 00 81 00 81. -/
theorem test_rxPush_completes : seen (writeCmd 0x00008142 lastByteDue)
    (fun t => (Reg.rxInfo.read t, t.rx.count, t.irqPend, Reg.status.read t)) = some (0x21050081, 4, 1, 6) := by decide

/-- V-DEC-8: LEN 0x21 above IFSD 0x20. -/
theorem test_rxPush_lenOverIfsd : seen (writeCmd 0x00002142 (parserAt .len 2 t1))
    (fun t => (t.irqPend, Reg.rxErrCause.read t, t.rx.state, t.rx.count)) = some (2, 2, .skip, 0) := by decide

/-! ### Timers -/

/-- V-TMR-1: TMR_START, and TID 3 (V-TMR-3). -/
theorem test_tmrStart : seen (writeCmd 0x00050150 uart) (fun t => (Reg.tmrRem1.read t, Reg.status.read t)) =
    some (5, 0x87) ∧ outcome 0x00050350 uart = some (2, 0) := by decide

/-- V-TMR-4. -/
theorem test_tmrStop : seen (writeCmd 0x00000251 (uart.startTimer .rsp 100)) (fun t => (Reg.tmrRem2.read t, Reg.status.read t)) =
    some (0, 7) := by decide

/-- V-TMR-2: the first call does not expire the channel, though it brings it to 0. -/
theorem test_tick_first : seen (writeCmd 0xFFFF0052 (uart.startTimer .rsp 3))
    (fun t => (t.cmdResult, Reg.tmrRem2.read t, t.irqPend, Reg.status.read t)) = some (0, 0, 0, 0x107) := by decide

/-- V-TMR-2: the second call does. -/
theorem test_tick_second : seen (writeCmd 0x00010052 { uart with tmr := { uart.tmr with rsp := ⟨0, true, false⟩ } })
    (fun t => (t.cmdResult, t.irqPend, t.tmr.rsp.run)) = some (4, 0x100, false) := by decide

/-! ### Transmit path -/

/-- V-UART-3, and the checks of V-UART-6. -/
theorem test_txSend_uart : seen (writeCmd 0x00060060 (holding [0, 0, 2, 1, 2, 1] uart))
    (fun t => (Reg.status.read t, Reg.txStatus.read t)) = some (0xF, 0x00060003) ∧
    outcome 0x00000060 (holding [1] uart) = some (2, 0) ∧ outcome 0x00020060 (holding [1] uart) = some (4, 0) := by decide

/-- V-CCID-5. -/
theorem test_txSend_usb : seen (writeCmd 0x00060060 { holding [0, 0, 2, 1, 2, 1] usb with usbSeq := ⟨5, 0, false⟩ })
    (·.usbOut) = some (some [0x6F, 6, 0, 0, 0, 0, 5, 0, 0, 0, 0, 0, 2, 1, 2, 1]) := by decide

/-- V-UART-6, V-CCID-16. -/
theorem test_txStop : seen (writeCmd 0x00000061 sending) (fun t => (t.tx.busy, t.tx.remain, t.irqPend)) =
    some (false, 0, 0) ∧ seen (writeCmd 0x00000061 usbSending) (fun t => (t.usbOut, t.tx.busy, t.usbSeq.next)) =
    some (none, false, 1) := by decide

/-- V-UART-4: one byte taken, then a refusal. -/
theorem test_lineTake : seen (agentStep (.lineTake true) sending) (fun t => (t.output, t.tx)) =
    some (some (.lineChar 1 true), ⟨true, .uart, 1, 1⟩) ∧
    seen (agentStep (.lineTake false) { sending with tx := ⟨true, .uart, 1, 1⟩ }) (fun t => (t.tx, t.irqPend)) =
    some (⟨false, .uart, 1, 1⟩, 0x20) := by decide

/-! ### CCID commands -/

/-- V-CCID-1, V-CCID-15. -/
theorem test_ccidPowerOn : seen (writeCmd 0x00000070 usb)
    (fun t => (t.usbOut, Reg.usbSeq.read t, Reg.txStatus.read t, Reg.status.read t)) =
    some (some [0x62, 0, 0, 0, 0, 0, 0, 0, 0, 0], 0x00010001, 5, 0xF) ∧ outcome 0x00000070 uart = some (8, 0) := by decide

/-- V-CCID-6: the sequence number wraps. -/
theorem test_ccidPowerOn_wraps : seen (writeCmd 0x00000170 { usb with usbSeq := ⟨0xFF, 0, false⟩ })
    (fun t => (t.usbOut, t.usbSeq)) = some (some [0x62, 0, 0, 0, 0, 0, 0xFF, 1, 0, 0], ⟨0, 0xFF, true⟩) := by decide

/-- V-CCID-2. -/
theorem test_ccidPowerOff : seen (writeCmd 0x00000071 { usb with usbCfg := ⟨1, false⟩, usbSeq := ⟨7, 0, false⟩ })
    (fun t => (t.usbOut, t.usbSeq.next)) = some (some [0x63, 0, 0, 0, 0, 1, 7, 0, 0, 0], 8) := by decide

/-- V-CCID-3, V-CCID-16. -/
theorem test_ccidGetParams : seen (writeCmd 0x00000072 { usb with usbSeq := ⟨2, 0, false⟩ }) (·.usbOut) =
    some (some [0x6C, 0, 0, 0, 0, 0, 2, 0, 0, 0]) ∧ outcome 0x00000072 usbSending = some (7, 0) := by decide

/-- V-CCID-4, V-CCID-18. -/
theorem test_ccidSetParams :
    seen (writeCmd 0x00070173 { holding [0x11, 0x10, 0, 0x15, 0, 0xFE, 0] usb with usbSeq := ⟨3, 0, false⟩ }) (·.usbOut) =
    some (some [0x61, 7, 0, 0, 0, 0, 3, 1, 0, 0, 0x11, 0x10, 0, 0x15, 0, 0xFE, 0]) ∧
    outcome 0x00010173 usb = some (4, 0) := by decide

/-! ### The environment's steps and the bus -/

/-- V-UART-2. -/
theorem test_lineRx : seen (agentStep (.lineRx 0x03 true) uart) (fun t => (t.rxByte 0, Reg.status.read t)) =
    some (0x03, 0x247) ∧
    seen (agentStep (.lineRx 0x03 true) (withCtrl 0x45)) (fun t => (t.rxByte 0, Reg.status.read t)) =
    some (0x3F, 0x47) := by decide

/-- V-UART-8, the fourth sample. -/
theorem test_presence : seen (writeCmd 0x000A0052 { uart with pinLevel := true, debCnt := 3 })
    (fun t => (t.present, t.irqPend, t.debCnt)) = some (true, 0x200, 0) := by decide

/-- V-CCID-7, V-CCID-8. -/
theorem test_usbIn : seen (agentStep (.usbIn [0x80, 2, 0, 0, 0, 0, 0, 0, 0, 0, 0x3B, 0]) usbWaiting)
    (fun t => (t.rxByte 0, t.rxByte 1, t.rx.count, t.irqPend, t.ccidRsp.rsp0)) = some (0x3B, 0, 2, 0x1000, 0x280) ∧
    seen (agentStep (.usbIn [0x80, 2, 0, 0]) usbWaiting) (fun t => (t.irqPend, Reg.usbErrCause.read t)) =
    some (0x2000, 1) := by decide

/-- V-CCID-17; R263: the message taken is the output. -/
theorem test_usbAccept : seen (agentStep (.usbAccept false) usbSending)
    (fun t => (t.irqPend, t.tx.busy, t.usbOut, t.output)) =
    some (0x20, false, none, some (.bulkOut [0x62, 0, 0, 0, 0, 0, 0, 0, 0, 0])) := by decide

/-- V-CCID-14. -/
theorem test_usbInt : seen (agentStep (.usbInt [0x50, 3]) usb) (fun t => (t.present, t.irqPend)) = some (true, 0x200) ∧
    seen (agentStep (.usbInt [0x50, 2]) { usb with present := true }) (fun t => (t.present, t.irqPend)) =
    some (false, 0x400) := by decide

/-- V-SYS-9, V-SYS-10, V-UART-11, V-SYS-13. -/
theorem test_registers : seen (agentStep (.busWrite 0x4000000C 4 0x0000FF10) uart) (Reg.ifs.read ·) = some 0x2010 ∧
    seen (agentStep (.busWrite 0x40000004 4 0x0000000D) uart) (Reg.ctrl.read ·) = some 0x5 ∧
    seen (agentStep (.busWrite 0x40000004 4 0x00000009) sending) (Reg.ctrl.read ·) = some 0x5 ∧
    seen (agentStep (.busRead 0x40000020 4) uart) (·.output) = some (some (.busData 4 0)) := by decide

/-- R84: a 2-byte read of the RXBUF window, low byte first. -/
theorem test_rxbuf_window : seen (agentStep (.busRead 0x40000202 2) { uart with rxbuf := [(2, 0x34), (3, 0x12)] }) (·.output) =
    some (some (.busData 2 0x1234)) := by decide

/-- One step from the schedule: placing a word makes it the next command. -/
theorem test_step : seen (step (uart.withFetchWord 32 0x00003B10)) (fun t => (t.live, t.pending)) = some ([0x3B], []) := by
  decide

/-! ### Witnesses: encoding and commands as a whole -/

/-- One word and state for each clause: no such opcode, disabled, a reserved bit, TID 3, and a command (with CTRL.EN = 0
for NOP). -/
theorem witness_CommandWordChecks :
    reservedBits (fieldOp 0x00000003) = none ∧ reservedBits (fieldOp 0x000000FF) = none ∧
    (reservedBits (fieldOp 0x00000010) = some 0xFFFF0000 ∧ State.reset.ctrl.en = false ∧ 3 ≤ (fieldOp 0x00000010).toNat) ∧
    (reservedBits (fieldOp 0x00000102) = some 0xFFFFFF00 ∧ (fieldOp 0x00000102).toNat < 3 ∧
      (0x00000102#32 &&& 0xFFFFFF00) ≠ 0) ∧
    (reservedBits (fieldOp 0x00050350) = some 0x0000FC00 ∧ uart.ctrl.en = true ∧ (0x00050350#32 &&& 0x0000FC00) = 0 ∧
      (0x00050350#32).extractLsb' 8 2 = 3) ∧
    (reservedBits (fieldOp 0x00003B10) = some 0xFFFF0000 ∧ uart.ctrl.en = true ∧ (0x00003B10#32 &&& 0xFFFF0000) = 0) := by
  decide

theorem witness_EncodeOfDecode : decode 0x00050230 = .ok (.encI false true 5) ∧
    encode (.encI false true 5) = 0x00050230 := by decide

/-- A passing and a failing command while an event is pending. -/
theorem witness_EveryCommandCompletes : Instr.fifoPop ≠ .softReset ∧ (uart.raise .rxDone).isPending .rxDone = true ∧
    seen (exec .fifoPop (uart.raise .rxDone)) (·.cmdStatus) = some .eEmpty ∧
    seen (exec .fifoPop (holding [1] (uart.raise .rxDone))) (·.cmdStatus) = some .ok := by decide

theorem witness_StepRunsDecodedCommand :
    (uart.withFetchWord 32 0x00003B10).pending =
      .busWrite ((uart.withFetchWord 32 0x00003B10).params.base + 0x020) 4 0x00003B10 :: [] ∧
    decode 0x00003B10 = .ok (.fifoPush 0x3B) ∧ decodeTableWord 32 0x00003B10 = some (.fifoPush 0x3B) := by decide

/-- One step for each alternative. -/
theorem witness_OnlyBusErrorsFault : isNext (agentStep (.pin true) uart) = true ∧
    agentStep (.busRead 0x3FFFFFFF 1) uart = .refused .outsideWindow ∧
    agentStep (.busRead 0x40001000 1) uart = .refused .outsideWindow ∧
    agentStep (.busRead 0x40000080 4) uart = .fault .busError ∧
    agentStep (.lineTake true) uart = .refused .lineTakeNotEnabled ∧
    agentStep (.usbAccept true) uart = .refused .usbAcceptNotEnabled := ⟨by decide, rfl, rfl, rfl, rfl, rfl⟩

theorem reset_inv : State.reset.Inv :=
  ⟨by decide, by decide, by decide, by decide, by decide, by decide, by decide, by decide⟩

/-- A well-kept state with a UART send in progress, and a step from it. -/
theorem witness_StepKeepsInv : sending.Inv ∧
    isNext (step { sending with pending := [.lineTake true] }) = true ∧
    ({ sending with pending := [.lineTake true] } : State).Inv :=
  ⟨⟨by decide, by decide, by decide, by decide, by decide, by decide, by decide, by decide⟩, by decide,
    ⟨by decide, by decide, by decide, by decide, by decide, by decide, by decide, by decide⟩⟩

/-- One step for each way a pending event stops being pending. -/
theorem witness_EventsStayPending : (uart.raise .rxDone).isPending .rxDone = true ∧
    [AgentStep.hardwareReset, .busWrite 0x40000018 4 1, .busWrite 0x40000020 4 (encode .softReset),
      .busWrite 0x40000004 4 0].map (fun a => seen (agentStep a (uart.raise .rxDone)) (·.isPending .rxDone)) =
    [some false, some false, some false, some false] := by decide

theorem witness_DisabledDropsEnvironment : State.reset.Inv ∧ State.reset.ctrl.en = false ∧
    AgentStep.lineRx 0 false ≠ .hardwareReset ∧ (∀ addr size, AgentStep.lineRx 0 false ≠ .busRead addr size) ∧
    (∀ addr size v, AgentStep.lineRx 0 false ≠ .busWrite addr size v) :=
  ⟨reset_inv, rfl, by decide, fun _ _ h => AgentStep.noConfusion h, fun _ _ _ h => AgentStep.noConfusion h⟩

theorem witness_HardwareResetState : sending.params.legal = true ∧ (filled 5).params.legal = true := by decide

/-- A disabling write of CTRL while a send is in progress. -/
theorem witness_SoftResetClears : sending.ctrl.en = true ∧ (0x0#32).getLsbD 0 = false ∧
    isNext (busWrite 0x40000004 4 0x0 sending) = true := by decide

/-! ### Witnesses: the bus -/

/-- Each clause at the ends of its range. -/
theorem witness_BusErrors : [(0x080, 4), (0x1FF, 1), (0x400, 1), (0xFFF, 1), (0x000, 1), (0x07C, 8), (0x201, 2),
      (0x002, 4), (0x3FE, 4), (0x200, 8)].map (fun a => decide (a.1 < 4096 ∧
        ((0x080 ≤ a.1 ∧ a.1 < 0x200) ∨ 0x400 ≤ a.1 ∨ (a.1 < 0x080 ∧ a.2 ≠ 4) ∨ a.1 % a.2 ≠ 0 ∨ 8 ≤ a.2))) =
    List.replicate 10 true := by decide

/-- Both ends of the window, for each width. -/
theorem witness_RxbufWindow : [(0, 1), (511, 1), (0, 2), (510, 2), (0, 4), (508, 4)].map (fun a =>
      decide (a.1 < 512 ∧ (a.2 = 1 ∨ a.2 = 2 ∨ a.2 = 4) ∧ a.1 % a.2 = 0)) = List.replicate 6 true := by decide

theorem witness_AccessSideEffects : isNext (busRead 0x40000014 4 uart) = true ∧
    isNext (busRead 0x400003FF 1 { uart with rxbuf := [(511, 7)] }) = true := by decide

theorem witness_RegisterReads : (holding [1, 2] uart).FifoOk ∧ (holding [1, 2] uart).live.length = 2 := by decide

/-- Values at and beside the ends of each checked range: IFSC, IFSD, IBT_MS, N, ETU, CLKDIV. -/
theorem witness_ConfigurationWrites :
    [0x0101, 0xFEFE, 0x00FF, 0xFF00].map (fun v => seen (busWrite 0x4000000C 4 v uart) (Reg.ifs.read ·)) =
      [some 0x0101, some 0xFEFE, some 0x2020, some 0x2020] ∧
    [0x0, 0x1].map (fun v => seen (busWrite 0x40000010 4 v uart) (·.tmoIbt)) = [some 100, some 1] ∧
    [0x000, 0x001].map (fun v => seen (busWrite 0x40000058 4 v uart) (Reg.presCfg.read ·)) = [some 4, some 1] ∧
    [0x00000000, 0x00010001].map (fun v => seen (busWrite 0x40000060 4 v uart) (Reg.uartCfg.read ·)) =
      [some 0x00010174, some 0x00010001] := by decide

/-- A disabling write, a change of RX_MODE, neither, PORT = 3, and a write while a send is in progress. -/
theorem witness_CtrlWrite :
    [0x4, 0x15, 0x9, 0xD].map (fun v => seen (busWrite 0x40000004 4 v uart) fun t => (t.ctrl.en, t.ctrl.rxMode, t.ctrl.port)) =
      [some (false, .raw, .uart), some (true, .t1, .uart), some (true, .raw, .usb), some (true, .raw, .uart)] ∧
    [0x9, 0x8].map (fun v => seen (busWrite 0x40000004 4 v sending) fun t => (t.ctrl.en, t.ctrl.port)) =
      [some (true, .uart), some (false, .usb)] := by decide

/-! ### Witnesses: the transmit FIFO.  Each list has one state for each check, in order, and one that passes them. -/

theorem witness_FifoPushAppends : [State.reset, blockOpen, filled 259, filled 258].map (firstOf fun s =>
      [decide (s.ctrl.en = false), decide (s.enc.isOpen = true), decide (s.free = 0)]) = [some 0, some 1, some 2, none] ∧
    State.reset.FifoOk ∧ blockOpen.FifoOk ∧ (filled 259).FifoOk ∧ (filled 258).FifoOk := by decide

theorem witness_FifoPopRemovesOldest : [State.reset, sending, uart, holding [0x3B] uart].map (firstOf fun s =>
      [decide (s.ctrl.en = false), decide (s.tx.busy = true), decide (s.committed = 0)]) =
      [some 0, some 1, some 2, none] ∧
    (sending.FifoOk ∧ sending.EncOk) ∧ (uart.FifoOk ∧ uart.EncOk) ∧
    (holding [0x3B] uart).FifoOk ∧ (holding [0x3B] uart).EncOk := by decide

theorem witness_FifoPeekReadsLiveByte : [State.reset, holding [1] uart, holding [1, 2] uart].map (firstOf fun s =>
      [decide (s.ctrl.en = false), decide (s.live.length ≤ 1)]) = [some 0, some 1, none] := by decide

theorem witness_FifoRemoveAndFlush :
    [State.reset, sending, holding [1] uart, holding [1, 2] uart].map (firstOf fun s =>
      [decide (s.ctrl.en = false), decide (s.tx.busy = true), decide (s.committed < 2)]) =
      [some 0, some 1, some 2, none] ∧
    [State.reset, blockOpen, sending, uart].map (firstOf fun s =>
      [decide (s.ctrl.en = false), decide (s.enc.isOpen = true), decide (s.tx.busy = true)]) =
      [some 0, some 1, some 2, none] ∧
    blockOpen.FifoOk ∧ blockOpen.EncOk ∧ (holding [1, 2] uart).FifoOk ∧ (holding [1, 2] uart).EncOk := by decide

theorem witness_FifoCapacity : (filled 0).FifoOk ∧ (filled 0).ctrl.en = true ∧ (filled 0).enc.isOpen = false ∧
    (filled 0).fifo.head = (filled 0).fifo.tail ∧ (List.replicate 259 (0x5A : Byte)).length = (filled 0).depth - 1 :=
  ⟨by decide, rfl, rfl, rfl, List.length_replicate⟩

theorem witness_FifoKeepsOrder : uart.FifoOk ∧ uart.enc.isOpen = false ∧
    (∀ i ∈ [Instr.fifoPush 0x3B, .fifoPush 0, .fifoPop], i = .fifoPop ∨ ∃ b, i = .fifoPush b) ∧
    (runResults [.fifoPush 0x3B, .fifoPush 0, .fifoPop] uart).isSome = true := by
  refine ⟨by decide, rfl, ?_, by decide⟩
  intro i hi
  simp only [List.mem_cons, List.not_mem_nil, or_false] at hi
  rcases hi with rfl | rfl | rfl
  · exact .inr ⟨_, rfl⟩
  · exact .inr ⟨_, rfl⟩
  · exact .inl rfl

/-! ### Witnesses: the error-detection codes and the encoder -/

theorem witness_EdcInitAndFeed : [State.reset, blockOpen, uart, withCtrl 0x7].map (firstOf fun s =>
      [decide (s.ctrl.en = false), decide (s.enc.isOpen = true)]) = [some 0, some 1, none, none] ∧
    uart.ctrl.edcKind = .lrc ∧ (withCtrl 0x7).ctrl.edcKind = .crc ∧ uart.edc.latch = .lrc ∧
    ({ uart with edc := ⟨0xFFFF, .crc⟩ } : State).edc.latch = .crc := by decide

/-- With the CRC latched, FREE = 1 is too little and FREE = 2 enough. -/
theorem witness_EdcEmitAppends :
    let crc (s : State) : State := { s with edc := ⟨0xAC27, .crc⟩ }
    [State.reset, blockOpen, crc (filled 258), crc (filled 257)].map (firstOf fun s =>
      [decide (s.ctrl.en = false), decide (s.enc.isOpen = true), decide (s.free < [(0x27 : Byte), 0xAC].length)]) =
      [some 0, some 1, some 2, none] ∧
    (crc (filled 257)).FifoOk ∧ ((crc (filled 257)).edc.latch = .lrc → [(0x27 : Byte), 0xAC] = [0x27]) ∧
    ((crc (filled 257)).edc.latch = .crc → [(0x27 : Byte), 0xAC] =
      [(crc (filled 257)).edc.acc.extractLsb' 0 8, (crc (filled 257)).edc.acc.extractLsb' 8 8]) := by decide

theorem witness_EdcSegmentation : (withCtrl 0x7).ctrl.en = true ∧ (withCtrl 0x7).enc.isOpen = false := by decide

/-- LEN 0xFF, LEN just above IFSC, one byte too little space (R172 under CRC: 3 + 32 + 2), and all checks passed. -/
theorem witness_EncIOpensBlock :
    [(State.reset, 1), (blockOpen, 1), (uart, 0xFF), (uart, 33), (filled (259 - 36), 32), (filled (259 - 37), 32)].map
      (fun p : State × Byte => firstOf (fun s => [decide (s.ctrl.en = false), decide (s.enc.isOpen = true),
        decide (p.2 = 0xFF), decide (s.ifs.ifsc < p.2), decide (s.free < 3 + p.2.toNat + edcLen s.ctrl.edcKind)]) p.1) =
      [some 0, some 1, some 2, some 3, some 4, none] ∧
    uart.FifoOk ∧ (filled (259 - 36)).FifoOk ∧ (filled (259 - 37)).FifoOk := by decide

theorem witness_EncRAndEncSOpenBlocks :
    [State.reset, blockOpen, filled (259 - 4), filled (259 - 5)].map (firstOf fun s => [decide (s.ctrl.en = false),
      decide (s.enc.isOpen = true), decide (s.free < 3 + edcLen s.ctrl.edcKind)]) = [some 0, some 1, some 2, none] ∧
    [(State.reset, 1), (blockOpen, 1), (uart, 2), (filled (259 - 5), 1), (filled (259 - 6), 1)].map
      (fun p : State × Byte => firstOf (fun s => [decide (s.ctrl.en = false), decide (s.enc.isOpen = true),
        decide (1 < p.2), decide (s.free < 3 + p.2.toNat + edcLen s.ctrl.edcKind)]) p.1) =
      [some 0, some 1, some 2, some 3, none] ∧
    (filled (259 - 4)).FifoOk ∧ (filled (259 - 5)).FifoOk ∧ (filled (259 - 6)).FifoOk := by decide

/-- The block with one INF byte to come and with two. -/
theorem witness_EncDataAppends :
    let last : State := { holding [0, 0, 2, 1] uart with enc := ⟨true, 1, 2⟩, edc := ⟨3, .lrc⟩ }
    [State.reset, uart, last, blockOpen].map (firstOf fun s =>
      [decide (s.ctrl.en = false), decide (s.enc.isOpen = false)]) = [some 0, some 1, none, none] ∧
    last.FifoOk ∧ last.EncOk ∧ last.enc.remain = 1 ∧ blockOpen.FifoOk ∧ blockOpen.EncOk ∧ uart.EncOk := by decide

theorem witness_EncAbortDiscards : blockOpen.FifoOk ∧ blockOpen.EncOk ∧ blockOpen.ctrl.en = true ∧
    blockOpen.enc.isOpen = true ∧ blockOpen.committed = 0 ∧ blockOpen.used = 3 := by decide

/-- No INF byte, and as many as IFSC allows in exactly the space they need. -/
theorem witness_EncoderWritesBlock :
    (uart.FifoOk ∧ uart.ConfigOk ∧ uart.ctrl.en = true ∧ uart.enc.isOpen = false ∧
      ([] : List Byte).length ≤ uart.ifs.ifsc.toNat ∧ 3 + ([] : List Byte).length + edcLen uart.ctrl.edcKind ≤ uart.free) ∧
    ((filled (259 - 37)).FifoOk ∧ (filled (259 - 37)).ConfigOk ∧ (filled (259 - 37)).ctrl.en = true ∧
      (filled (259 - 37)).enc.isOpen = false ∧
      (List.replicate 32 (7 : Byte)).length = (filled (259 - 37)).ifs.ifsc.toNat ∧
      3 + (List.replicate 32 (7 : Byte)).length + edcLen (filled (259 - 37)).ctrl.edcKind = (filled (259 - 37)).free) := by
  decide

/-- One block of each kind. -/
theorem witness_RoundTrip :
    (∃ m ns, Instr.encI true false 2 = .encI m ns (BitVec.ofNat 8 [(1 : Byte), 2].length) ∧ ns = false ∧ m = true) ∧
    (∃ c nr, Instr.encR 2 true = .encR c nr ∧ nr = true ∧ (2 : BitVec 5) = 0#1 ++ c) ∧
    (∃ c resp, Instr.encS 1 true 1 = .encS c resp (BitVec.ofNat 8 [(0xFE : Byte)].length) ∧ resp = true ∧ c = 1) ∧
    t1.FifoOk ∧ t1.ConfigOk ∧ t1.ctrl.en = true ∧ t1.ctrl.rxMode = .t1 ∧ t1.rx.state = .addr ∧ t1.enc.isOpen = false ∧
    t1.nad.rx = t1.nad.tx ∧ [(1 : Byte), 2].length ≤ t1.ifs.ifsc.toNat ∧ [(1 : Byte), 2].length ≤ t1.ifs.ifsd.toNat ∧
    3 + [(1 : Byte), 2].length + edcLen t1.ctrl.edcKind ≤ t1.free :=
  ⟨⟨_, _, rfl, rfl, rfl⟩, ⟨_, _, rfl, rfl, rfl⟩, ⟨_, _, rfl, rfl, rfl⟩, by decide⟩

/-! ### Witnesses: the receive path -/

theorem witness_RxRestartAndRelease : [State.reset, t1, parserAt .done 4 t1].map (firstOf fun s =>
      [decide (s.ctrl.en = false), decide (s.rx.state ≠ .done)]) = [some 0, some 1, none] ∧
    [(uart, 0x15), (t1, 0x5), (State.reset, 0x10)].map (fun p : State × Word => decide ((p.1.ctrl.en = true → p.2.getLsbD 0 = true) ∧
      (p.2.getLsbD 4 = true ↔ p.1.ctrl.rxMode = .raw))) = [true, true, true] := by decide

/-- Disabled, each port, an echo expected with LBS_EN 0 and 1, and none expected. -/
theorem witness_ReceivedByteRouting : State.reset.ctrl.en = false ∧
    [withCtrl 0x1, uart, { withCtrl 0x25 with lbsCount := 1 }, withCtrl 0x25, { uart with lbsCount := 1 }, usb].map
      (fun s => (s.ctrl.en, s.ctrl.port, s.ctrl.lbsEn, decide (s.lbsCount = 0))) =
    [(true, .none, false, true), (true, .uart, false, true), (true, .uart, true, false), (true, .uart, true, true),
      (true, .uart, false, false), (true, .usb, false, true)] := by decide

/-- The last byte that fits and the first that does not. -/
theorem witness_RawCapture : uart.ctrl.rxMode = .raw ∧ uart.tmoIbt ≠ 0 ∧ (511#16).toNat < 512 ∧ 512 ≤ (512#16).toNat ∧
    (parserAt .raw 511 uart).ctrl.rxMode = .raw ∧ (parserAt .raw 512 uart).tmoIbt ≠ 0 := by decide

/-- Each state, each node address, and LEN at 0, IFSD, IFSD + 1 and 0xFF. -/
theorem witness_ParserHeader : t1.ctrl.rxMode = .t1 ∧ t1.tmoIbt ≠ 0 ∧ t1.rx.state = .addr ∧ t1.nad.rx = 0x00 ∧
    (0x21 : Byte) ≠ t1.nad.rx ∧ t1.ifs.ifsd = 32 ∧
    [(0x00 : Byte), 32, 33, 0xFF].map (fun b => decide (b = 0xFF) || decide (t1.ifs.ifsd < b)) =
      [false, false, true, true] ∧
    [RxState.skip, .pcb, .len, .done].map (fun x => (parserAt x 2 t1).rx.state) = [.skip, .pcb, .len, .done] := by decide

/-- The last INF byte and the one before; the last EDC byte and, under CRC, the one before. -/
theorem witness_ParserPayload : t1.ctrl.rxMode = .t1 ∧ t1.tmoIbt ≠ 0 ∧
    [({ parserAt .inf 3 t1 with rx := ⟨.inf, 3, false, false, 0, .lrc, 2⟩ } : State),
      { t1 with rx := ⟨.inf, 4, false, false, 0, .lrc, 2⟩ }].map
        (fun s => decide ((s.rx.count + 1).toNat = 3 + s.rx.len.toNat)) = [false, true] ∧
    [lastByteDue, { t1 with rx := ⟨.edc, 3, false, false, 0, .crc, 0⟩ }].map
        (fun s => decide ((s.rx.count + 1).toNat = 3 + s.rx.len.toNat + edcLen s.rx.latch)) = [true, false] ∧
    lastByteDue.rx.state = .edc := by decide

theorem witness_InterByteExpiry : uart.rx.state = .raw ∧ uart.rx.count = 0 ∧ (parserAt .raw 2 uart).rx.count ≠ 0 ∧
    [RxState.skip, .pcb, .len, .inf, .edc, .addr, .done].map (fun x => (parserAt x 2 t1).rx.state) =
      [.skip, .pcb, .len, .inf, .edc, .addr, .done] := by decide

/-- A frame without INF and one whose LEN is IFSD. -/
theorem witness_FrameCompletes : t1.ConfigOk ∧ t1.ctrl.en = true ∧ t1.ctrl.rxMode = .t1 ∧ t1.rx.state = .addr ∧
    ([] : List Byte).length ≤ t1.ifs.ifsd.toNat ∧ (List.replicate 32 (7 : Byte)).length = t1.ifs.ifsd.toNat ∧
    [(0x81 : Byte)].length = edcLen t1.ctrl.edcKind := by decide

/-! ### Witnesses: timers and presence -/

theorem witness_TimerStartStop : [(State.reset, 0), (uart, 3), (uart, 2)].map (fun p : State × BitVec 2 =>
      firstOf (fun s => [decide (s.ctrl.en = false), decide (p.2 = 3)]) p.1) = [some 0, some 1, none] := by decide

/-- No channel running, a first call, a second call that expires the channel and one that just does not. -/
theorem witness_TickCountsDown : uart.ctrl.en = true ∧ (0 : Half) ≠ 10 ∧
    [({ uart with tmr := ⟨⟨5, true, true⟩, .stopped, ⟨10, true, false⟩⟩ } : State),
      { uart with tmr := ⟨.stopped, ⟨11, true, false⟩, .stopped⟩ }].map (fun s =>
        [Channel.ibt, .atr, .rsp].map fun c =>
          (s.tmr.get c).run && !(s.tmr.get c).first && decide ((s.tmr.get c).rem.toNat ≤ (10 : Half).toNat)) =
      [[false, false, true], [false, false, false]] := by decide

/-- For each channel, with a sum below and at the value, and with one TICK; channel 0 on the UART port with the level
present, with no card, and with one TICK too few for a removal (N = 4). -/
theorem witness_TimerExpiryTime : uart.ctrl.en = true ∧ channelOf 1 = some .atr ∧ channelOf 2 = some .rsp ∧
    channelOf 0 = some .ibt ∧ usb.ctrl.en = true ∧ usb.ctrl.port ≠ .uart ∧ (10 : Half) ≠ 0 ∧
    (∀ e ∈ [(3 : Half), 3, 3], e ≠ 0) ∧ (∀ e ∈ [(3 : Half), 3, 4], e ≠ 0) ∧ (∀ e ∈ [(100 : Half)], e ≠ 0) ∧
    uart.ctrl.port = .uart ∧ ({ uart with pinLevel := true } : State).pinLevel = uart.presCfg.pol ∧
    uart.present = false ∧ uart.pinLevel ≠ uart.presCfg.pol ∧
    ({ uart with present := true } : State).debCnt.toNat + [(3 : Half), 3, 4].length < uart.presCfg.n.toNat :=
  ⟨rfl, rfl, rfl, rfl, rfl, by decide, by decide, by simp, by simp, by simp, by decide⟩

/-- A matching sample, one before the last of N, the N-th with a card and the N-th without. -/
theorem witness_PresenceSampling :
    [uart, { uart with pinLevel := true, debCnt := 2 }, { uart with pinLevel := true, debCnt := 3 },
      { uart with present := true, debCnt := 3 }].map (fun s =>
        (decide (decide (s.pinLevel = s.presCfg.pol) = s.present), decide (s.debCnt + 1 < s.presCfg.n),
          decide (s.pinLevel = s.presCfg.pol), s.ctrl.port)) =
    [(true, true, false, .uart), (false, true, true, .uart), (false, false, true, .uart),
      (false, false, false, .uart)] := by decide

/-- N - 1 and N TICKs. -/
theorem witness_PresenceDebounce :
    let s : State := { uart with pinLevel := true }
    s.ctrl.en = true ∧ s.ctrl.port = .uart ∧ s.presCfg.n ≠ 0 ∧ s.debCnt = 0 ∧
    decide (s.pinLevel = s.presCfg.pol) ≠ s.present ∧ (∀ e ∈ [(10 : Half), 10, 10, 10], e ≠ 0) ∧
    [(10 : Half), 10, 10].length < s.presCfg.n.toNat ∧ [(10 : Half), 10, 10, 10].length = s.presCfg.n.toNat :=
  ⟨rfl, rfl, by decide, rfl, by decide, by simp, by decide, rfl⟩

/-! ### Witnesses: the ports -/

theorem witness_TxSendStarts :
    [(State.reset, 1), (withCtrl 0x1, 1), (sending, 1), (uart, 0), (holding [1] uart, 2), (holding [1] uart, 1),
      (holding [1] usb, 1)].map (fun p : State × Half => firstOf (fun s => [decide (s.ctrl.en = false),
        decide (s.ctrl.port = .none), decide (s.tx.busy = true), decide (p.2 = 0), decide (s.committed < p.2.toNat)]) p.1) =
    [some 0, some 1, some 2, some 3, some 4, none, none] := by decide

theorem witness_TxStopCancels : [State.reset, uart, sending, usbSending].map (firstOf fun s =>
      [decide (s.ctrl.en = false), decide (s.tx.busy = false)]) = [some 0, some 1, none, none] ∧
    sending.tx.portLatch = .uart ∧ usbSending.tx.portLatch = .usb := by decide

/-- The last byte of a send and one before it. -/
theorem witness_LineTakesByte : sending.tx.busy = true ∧ sending.tx.portLatch = .uart ∧ sending.tx.remain ≠ 1 ∧
    ({ sending with tx := ⟨true, .uart, 1, 1⟩ } : State).tx.remain = 1 := by decide

theorem witness_UartSendDelivers : (holding [1, 2] uart).FifoOk ∧ (holding [1, 2] uart).ctrl.en = true ∧
    (holding [1, 2] uart).ctrl.port = .uart ∧ (holding [1, 2] uart).tx.busy = false ∧ (2 : Half) ≠ 0 ∧
    (2 : Half).toNat ≤ (holding [1, 2] uart).committed := by decide

/-- No echo expected and two. -/
theorem witness_EchoesDiscarded :
    let s : State := { withCtrl 0x25 with lbsCount := 2 }
    s.ctrl.en = true ∧ s.ctrl.port = .uart ∧ s.ctrl.lbsEn = true ∧
    s.lbsCount.toNat = [((0x3B : Byte), true), (0x00, false)].length ∧
    (withCtrl 0x25).lbsCount.toNat = ([] : List (Byte × Bool)).length := by decide

theorem witness_CcidCommandsSend :
    [State.reset, uart, usbSending, usb].map (firstOf fun s =>
      [decide (s.ctrl.en = false), decide (s.ctrl.port ≠ .usb), decide (s.tx.busy = true)]) =
      [some 0, some 1, some 2, none] ∧ usb.committed < (1 : Half).toNat ∧
    ¬(holding [1] usb).committed < (1 : Half).toNat := by decide

theorem witness_UsbAcceptTakesMessage : usbSending.usbOut = some [0x62, 0, 0, 0, 0, 0, 0, 0, 0, 0] := by decide

/-- One message for each outcome: 9 bytes, a length one too great, another slot, another sequence number, a type beside
the known ones, 0x81, 0x80 and 0x82; and a disabled block and another port. -/
theorem witness_BulkInChecks : State.reset.ctrl.en = false ∧ (uart.ctrl.en = true ∧ uart.ctrl.port ≠ .usb) ∧
    ((withCtrl 0x1).ctrl.en = true ∧ (withCtrl 0x1).ctrl.port ≠ .usb) ∧ usbWaiting.ctrl.en = true ∧ usbWaiting.ctrl.port = .usb ∧
    ([0x80, 0, 0, 0, 0, 0, 0, 0, 0] : List Byte).length < 10 ∧
    ([[0x80, 1, 0, 0, 0, 0, 0, 0, 0, 0], [0x80, 0, 0, 0, 0, 1, 0, 0, 0, 0], [0x80, 0, 0, 0, 0, 0, 1, 0, 0, 0],
      [0x83, 0, 0, 0, 0, 0, 0, 0, 0, 0], [0x81, 0, 0, 0, 0, 0, 0, 0, 0, 0], [0x80, 1, 0, 0, 0, 0, 0, 0, 0, 0, 7],
      [0x82, 0, 0, 0, 0, 0, 0, 0, 0, 0]] : List (List Byte)).map (fun m =>
        (decide (10 ≤ m.length), bulkInError m usbWaiting, m.getD 0 0)) =
    [(true, some .length, 0x80), (true, some .slot, 0x80), (true, some .seq, 0x80), (true, some .type, 0x83),
      (true, none, 0x81), (true, none, 0x80), (true, none, 0x82)] := by decide

/-- A message that reports a card, one that reports what STATUS.PRESENT already says, one of another type, one too
short for the slot; and a disabled block and another port. -/
theorem witness_UsbPresence : State.reset.ctrl.en = false ∧ (uart.ctrl.en = true ∧ uart.ctrl.port ≠ .usb) ∧ usb.ctrl.en = true ∧ usb.ctrl.port = .usb ∧
    ([([0x50, 1], 0), ([0x50, 0], 0), ([0x51, 1], 0), ([0x50, 1], 4)] : List (List Byte × Nat)).map (fun p =>
      (decide (2 + p.2 / 4 ≤ p.1.length ∧ p.1.getD 0 0 = 0x50),
        (p.1.getD (1 + p.2 / 4) 0).getLsbD (2 * (p.2 % 4)) != usb.present)) =
    [(true, true), (true, false), (false, true), (false, false)] := by decide

theorem witness_TransportAgnostic : usbWaiting.ctrl.en = true ∧ usbWaiting.ctrl.port = .usb ∧
    usbWaiting.usbSeq.lastValid = true ∧ (∀ p ∈ [[(0x3B : Byte)], [], [0x00, 0x01]], p.length < 2 ^ 32) := by decide

end Sys2Proof.Tests.Slice0
end

section
/-! PROOFS. Laws of the model that both the invariant and the events rest on: what a result answers as a property of its
next state, what each kind of step asks of that property, and the operations said as one equation. -/

namespace Sys2Proof.Machine

/-! ### What a result answers -/

/-- Whatever next state the result answers satisfies `P`. -/
def AnswersIn (P : State → Prop) (r : Result) : Prop := ∀ t, r = .next t → P t

variable {P : State → Prop} {s t effect : State} {checks : List (Bool × CmdCode)}

@[simp] theorem answersIn_next : AnswersIn P (.next s) ↔ P s :=
  ⟨fun h => h s rfl, fun h _ e => Host.Outcome.next.inj e ▸ h⟩

@[simp] theorem answersIn_fault (r : Fault) : AnswersIn P (.fault r) ↔ True := by simp [AnswersIn]

@[simp] theorem answersIn_refused (r : Refusal) : AnswersIn P (.refused r) ↔ True := by simp [AnswersIn]

/-- A command answers in `P` when every failed state is in `P`, and so is its effect once no check fails. -/
theorem command_answersIn (hfail : ∀ c, P (s.failedWith c))
    (heffect : (∀ p ∈ checks, p.1 = false) → P effect.pass) : AnswersIn P (command s checks effect) := by
  rcases command_cases s checks effect with ⟨hnone, e⟩ | ⟨c, -, -, e⟩ <;> rw [e, answersIn_next]
  · exact heffect ((firstFailing_none_iff _).1 hnone)
  · exact hfail c

theorem commandEnabled_answersIn (hfail : ∀ c, P (s.failedWith c))
    (heffect : s.ctrl.en = true → (∀ p ∈ checks, p.1 = false) → P effect.pass) :
    AnswersIn P (commandEnabled s checks effect) :=
  command_answersIn hfail fun h => by
    obtain ⟨hen, hrest⟩ := List.forall_mem_cons.1 h
    exact heffect (by simpa using hen) hrest

/-! ### Counting without wrapping -/

theorem toNat_pos_of_ne_zero {n : Nat} {x : BitVec n} (h : x ≠ 0) : 1 ≤ x.toNat :=
  Nat.one_le_iff_ne_zero.2 fun h0 => h (BitVec.eq_of_toNat_eq (by simpa using h0))

theorem toNat_pred {n : Nat} {x : BitVec n} (h : x ≠ 0) : (x - 1).toNat = x.toNat - 1 := by
  have hpos := toNat_pos_of_ne_zero h
  have hone : (1 : BitVec n).toNat = 1 := Nat.mod_eq_of_lt (hpos.trans_lt x.isLt)
  rw [BitVec.toNat_sub_of_le (by rwa [BitVec.le_def, hone]), hone]

theorem half_toNat_succ {x : Half} (h : x.toNat < 65535) : (x + 1).toNat = x.toNat + 1 := by
  rw [BitVec.toNat_add, show (1 : Half).toNat = 1 from rfl]
  omega

/-- The committed bytes are fewer than the storage bytes. -/
theorem State.committed_lt {s : State} (h : s.FifoOk) : s.committed < s.depth := by
  have hpos : 0 < s.depth := by have := h.depth_pos; omega
  unfold State.committed State.used
  split <;> exact Nat.mod_lt _ hpos

/-! ### Operations as one equation -/

/-- R244, R246: everything a byte the line took does. -/
theorem lineTaken_eq (s : State) : lineTaken s =
    let t : State := { s with
      tx := ⟨s.tx.busy, s.tx.portLatch, s.tx.remain - 1, s.tx.cursor + 1⟩
      output := some (.lineChar (sentChar s).1 (sentChar s).2)
      lbsCount := (countEcho s).lbsCount }
    if s.tx.remain - 1 = 0 then ({ t with tx := { t.tx with busy := false } } : State).raise .txDone else t := by
  let u : State := { s with
    tx := { s.tx with cursor := s.tx.cursor + 1, remain := s.tx.remain - 1 }
    output := some (.lineChar (sentChar s).1 (sentChar s).2) }
  have hecho : countEcho u = { u with lbsCount := (countEcho s).lbsCount } := by
    unfold countEcho
    by_cases hc : s.ctrl.lbsEn = true ∧ s.lbsCount ≠ 0xFFFF
    · rw [if_pos hc, if_pos hc]
    · rw [if_neg hc, if_neg hc]
  have e : lineTaken s = if (countEcho u).tx.remain = 0 then
      ({ countEcho u with tx := { (countEcho u).tx with busy := false } } : State).raise .txDone else countEcho u := rfl
  rw [e, hecho]

/-- R291: everything soft_reset does. -/
theorem softReset_eq (s : State) : softReset s =
    { s with
      fifo := ⟨s.fifo.cells, 0, 0, 0⟩, enc := ⟨false, 0, 0⟩, edc := ⟨0, .lrc⟩, tx := ⟨false, .none, 0, 0⟩
      usbOut := none, lbsCount := 0
      rx := ⟨if s.ctrl.rxMode = .raw then .raw else .addr, 0, false, false, 0, .lrc, 0⟩
      rxInfo := RxInfo.zero, rxErrCause := .none, tmr := ⟨.stopped, .stopped, .stopped⟩
      usbSeq := ⟨s.usbSeq.next, 0, false⟩, ccidRsp := ⟨0, 0, 0⟩, usbErrCause := .none
      irqPend := 0, cmdResult := 0, cmdStatus := .ok } := by
  unfold softReset
  dsimp only
  rw [restartRx_eq]
  rfl

/-- R24 (1): a write of `v` clears CTRL.EN. -/
abbrev State.disables (s : State) (v : Word) : Prop := s.ctrl.en = true ∧ v.getLsbD 0 = false

/-- R24 (3), log 13: PORT after a write of `v` to CTRL; it stays during a send, unless the write ends the send. -/
def State.portWritten (s : State) (v : Word) : Port :=
  if s.tx.busy = true ∧ ¬s.disables v then s.ctrl.port else (s.ctrl.written v).port

/-- The fields CTRL has after a write of `v`. -/
def State.ctrlWritten (s : State) (v : Word) : Ctrl := { s.ctrl.written v with port := s.portWritten v }

/-- R23, R24: a write of CTRL sets the fields; when it clears EN it applies a soft reset, which leaves nothing to do for
the other two side effects, and else it restarts the receive path when RX_MODE changed. -/
theorem writeCtrl_eq (s : State) (v : Word) : writeCtrl v s =
    let t : State := { s with ctrl := s.ctrlWritten v }
    if s.disables v then softReset t else if s.ctrl.rxMode ≠ (s.ctrlWritten v).rxMode then restartRx t else t := by
  unfold writeCtrl
  dsimp only
  by_cases hd : s.disables v
  · have hw : s.ctrlWritten v = s.ctrl.written v := by
      rw [State.ctrlWritten, State.portWritten, if_neg fun h => h.2 hd]
    have hdis (u : State) : ctrlDisable s.ctrl (s.ctrl.written v) u = softReset u := if_pos hd
    have hrestart (u : State) : restartRx (softReset u) = softReset u := by rw [softReset_eq, restartRx_eq]; rfl
    have hkeep (u : State) : ctrlKeepPort s.ctrl (softReset u) = softReset u := by rw [softReset_eq]; rfl
    rw [if_pos hd, hw, hdis, ctrlModeChange, hrestart, ite_self, hkeep]
  · have hw : s.ctrlWritten v =
        { s.ctrl.written v with port := if s.tx.busy = true then s.ctrl.port else (s.ctrl.written v).port } := by
      simp only [State.ctrlWritten, State.portWritten, hd, not_false_eq_true, and_true]
    have hdis (u : State) : ctrlDisable s.ctrl (s.ctrl.written v) u = u := if_neg hd
    rw [if_neg hd, hw, hdis]
    by_cases hb : s.tx.busy = true <;> by_cases hm : s.ctrl.rxMode = (s.ctrl.written v).rxMode <;>
      simp [ctrlModeChange, ctrlKeepPort, restartRx_eq, hb, hm]

/-- R23, R24: none of the side effects changes a field of CTRL. -/
theorem writeCtrl_ctrl (s : State) (v : Word) : (writeCtrl v s).ctrl = s.ctrlWritten v := by
  rw [writeCtrl_eq]
  dsimp only
  split
  · rw [softReset_eq]
  · split
    · rw [restartRx_eq]
    · rfl

theorem abandonUartSend_ctrl (s : State) : (abandonUartSend s).ctrl = s.ctrl := by
  unfold abandonUartSend
  split <;> rfl

theorem dropFrameInProgress_ctrl (s : State) : (dropFrameInProgress s).ctrl = s.ctrl := by
  unfold dropFrameInProgress
  split
  · cases s.rx.state <;> rfl
  · rfl

/-- R224: the expiry of a channel leaves CTRL as it is. -/
theorem expireIf_ctrl (expired : Bool) (c : Channel) (s : State) : (expireIf expired c s).ctrl = s.ctrl := by
  unfold expireIf
  split
  · cases c with
    | ibt =>
      obtain ⟨⟨e, -, -⟩, -, -⟩ := onIbtExpiry_only (s.raise .ibtExp)
      show (Machine.onIbtExpiry (s.raise .ibtExp)).ctrl = s.ctrl
      rw [e]
      rfl
    | atr | rsp => rfl
  · rfl

/-! ### Legal values (R6, R22, R26) -/

/-- R6: the parameters' default values are legal values of the fields they reset. -/
theorem params_defaults_legal {p : Config.Params} (h : p.legal = true) :
    ifsLegal p.ifsDefault = true ∧ p.ibtDefaultMs ≠ 0 ∧ p.presNDefault ≠ 0 ∧ p.etuDefault ≠ 0 ∧
      p.clkdivDefault ≠ 0 := by
  simp only [Config.Params.legal, Bool.and_eq_true, decide_eq_true_eq] at h
  obtain ⟨⟨⟨⟨⟨⟨-, hibt⟩, hifs⟩, hifs'⟩, hn⟩, hetu⟩, hclk⟩ := h
  exact ⟨by simpa [ifsLegal] using ⟨hifs, hifs'⟩, hibt, hn, hetu, hclk⟩

/-- R22: a checked field stays legal. -/
theorem legalOr_legal {n : Nat} {legal : BitVec n → Bool} {old : BitVec n} (h : legal old = true) (new : BitVec n) :
    legal (legalOr legal old new) = true := by
  unfold legalOr
  split
  · assumption
  · exact h

theorem legalOr_ne_zero {n : Nat} {old : BitVec n} (h : old ≠ 0) (new : BitVec n) : legalOr nonZero old new ≠ 0 := by
  simpa [nonZero] using legalOr_legal (legal := nonZero) (by simpa [nonZero] using h) new

/-- R26: the legal IFS values are 1 to 254. -/
theorem ifsLegal_iff (v : Byte) : ifsLegal v = true ↔ 1 ≤ v.toNat ∧ v.toNat ≤ 254 := by
  have hlt := v.isLt
  have h0 : v = 0 ↔ v.toNat = 0 := ⟨fun h => by rw [h]; rfl, fun h => BitVec.eq_of_toNat_eq h⟩
  have hff : v = 0xFF ↔ v.toNat = 255 := ⟨fun h => by rw [h]; rfl, fun h => BitVec.eq_of_toNat_eq h⟩
  simp only [ifsLegal, Bool.and_eq_true, decide_eq_true_eq, ne_eq, h0, hff]
  omega

theorem legalOr_ifsLegal (old v : Byte) :
    legalOr ifsLegal old v = if 1 ≤ v.toNat ∧ v.toNat ≤ 254 then v else old := by
  simp only [legalOr, ifsLegal_iff]

theorem legalOr_nonZero {n : Nat} (old v : BitVec n) : legalOr nonZero old v = if v = 0 then old else v := by
  by_cases h : v = 0 <;> simp [legalOr, nonZero, h]

/-- R23: the port of a number in range has that number. -/
theorem Port.ofCode_code (c : BitVec 2) (old : Port) :
    (c = 3 → (Port.ofCode c).getD old = old) ∧ (c ≠ 3 → ((Port.ofCode c).getD old).code = c) := by
  have : c = 0 ∨ c = 1 ∨ c = 2 ∨ c = 3 := by revert c; decide
  rcases this with rfl | rfl | rfl | rfl <;> simp [Port.ofCode, Port.code]

/-! ### Words and addresses -/

theorem whenZero_eq_ok {op : Byte} {z : Bool} {i j : Instr} : whenZero op z i = .ok j ↔ z = true ∧ i = j := by
  cases z <;> simp [whenZero]

/-- R102: SOFT_RESET has one word. -/
theorem encode_of_decode_softReset {w : Word} (h : decode w = .ok .softReset) : w = encode .softReset := by
  obtain ⟨hop, hz⟩ : fieldOp w = 0x01 ∧ (fieldA w == 0 && fieldB w == 0) = true := by
    unfold decode decodeFields at h
    split at h <;> simp_all [whenZero_eq_ok]
  simp only [Bool.and_eq_true, beq_iff_eq] at hz
  rw [← cmdWord_fields w, hop, hz.1, hz.2]
  rfl

/-- R81: only the aligned 32-bit access at a register's offset reaches it. -/
theorem accessTarget_eq_reg {off size : Nat} {r : Reg} (h : accessTarget off size = some (.reg r)) :
    off = r.offset ∧ size = 4 := by
  unfold accessTarget at h
  split at h
  · split at h
    · next hal =>
      obtain ⟨r', hfind, hr⟩ := Option.map_eq_some_iff.1 h
      obtain rfl : r' = r := Target.reg.inj hr
      have := List.find?_some hfind
      exact ⟨(by simpa using this : _ = off).symm, hal.1⟩
    · simp at h
  · split at h
    · split at h <;> simp at h
    · simp at h

/-- Everything a bus write can be that answers a next state. -/
theorem busWrite_next {addr size : Nat} {v : Word} (h : busWrite addr size v s = .next t) :
    t = s ∨ ∃ r : Reg, addr = s.params.base + r.offset ∧ size = 4 ∧ r.write v s = .next t := by
  rcases s.offsetOf_cases addr with ⟨hoff, -⟩ | ⟨off, -, haddr, hoff⟩
  · simp [busWrite, hoff] at h
  · cases htarget : accessTarget off size with
    | none => simp [busWrite, hoff, htarget] at h
    | some target =>
      cases target with
      | reg r =>
        obtain ⟨rfl, hsize⟩ := accessTarget_eq_reg htarget
        exact .inr ⟨r, haddr, hsize, by simpa [busWrite, hoff, htarget] using h⟩
      | rxbuf k => exact .inl (by simpa [busWrite, hoff, htarget] using h.symm)

/-! ### What each kind of step answers -/

/-- R82, R84: a read answers with its data as the output. -/
theorem busRead_answersIn (h : ∀ o, P { s with output := some o }) (addr size : Nat) :
    AnswersIn P (busRead addr size s) := by
  unfold busRead
  split
  · simp
  · split
    · simp
    · exact answersIn_next.2 (h _)
    · exact answersIn_next.2 (h _)

/-- R82, R84: a write reaches a register at its own address, or is ignored. -/
theorem busWrite_answersIn {addr size : Nat} {v : Word} (h : P s)
    (hreg : ∀ r : Reg, addr = s.params.base + r.offset → size = 4 → AnswersIn P (r.write v s)) :
    AnswersIn P (busWrite addr size v s) := fun t ht => by
  rcases busWrite_next ht with rfl | ⟨r, haddr, hsize, hwrite⟩
  · exact h
  · exact hreg r haddr hsize t hwrite

/-- R244: a LINE_TAKE that is a step takes or refuses a byte of the UART send. -/
theorem lineTake_answersIn {ok : Bool}
    (h : s.tx.busy = true → s.tx.portLatch = .uart → P (if ok then lineTaken s else lineRefused s)) :
    AnswersIn P (lineTake ok s) := by
  rcases lineTake_cases ok s with ⟨hb, hl, e⟩ | ⟨-, e⟩ <;> rw [e]
  · exact answersIn_next.2 (h hb hl)
  · simp

/-- R263: a USB_ACCEPT that is a step takes the pending message. -/
theorem usbAccept_answersIn {ok : Bool} (h : ∀ m, s.usbOut = some m → P (({ s with
      usbOut := none
      tx := { s.tx with busy := false, remain := 0 }
      output := some (.bulkOut m) } : State).raise (if ok then .txDone else .txFail))) :
    AnswersIn P (usbAccept ok s) := by
  unfold usbAccept
  cases hm : s.usbOut with
  | none => simp
  | some m => exact answersIn_next.2 (h m hm)

end Sys2Proof.Machine
end

section
/-! PROOFS. The invariant, part by part: what each part of the state may become so that the invariant stays. -/

namespace Sys2Proof.Machine

variable {s t : State}

/-! ### Fields the invariant does not look at, and the configuration -/

/-- The invariant says nothing of these fields. -/
theorem State.Inv.congr {nad pinCtrl usbCfg usbSeq irqEn irqPend cmdResult cmdStatus rxInfo rxErrCause present presPin
    debCnt pinLevel lbsCount ccidRsp usbErrCause resets pending output} (h : s.Inv)
    (e : t = { s with
      nad := nad, pinCtrl := pinCtrl, usbCfg := usbCfg, usbSeq := usbSeq, irqEn := irqEn, irqPend := irqPend
      cmdResult := cmdResult, cmdStatus := cmdStatus, rxInfo := rxInfo, rxErrCause := rxErrCause, present := present
      presPin := presPin, debCnt := debCnt, pinLevel := pinLevel, lbsCount := lbsCount, ccidRsp := ccidRsp
      usbErrCause := usbErrCause, resets := resets, pending := pending, output := output }) : t.Inv := by
  subst e
  exact ⟨h.config, h.fifo, h.enc, h.tx, h.rx, h.timers, h.edc, h.quiet⟩

theorem State.Inv.pass (h : s.Inv) : s.pass.Inv := h.congr rfl
theorem State.Inv.setResult (h : s.Inv) (v : Half) : (s.setResult v).Inv := h.congr rfl
theorem State.Inv.failedWith (h : s.Inv) (c : CmdCode) : (s.failedWith c).Inv := h.congr rfl
theorem State.Inv.raise (h : s.Inv) (e : Event) : (s.raise e).Inv := h.congr rfl
theorem State.Inv.takeStep (h : s.Inv) (rest : List AgentStep) : (s.takeStep rest).Inv := h.congr rfl

/-- R330: the clause about a disabled block asks nothing of an enabled one. -/
theorem State.QuietOk.of_enabled (hen : s.ctrl.en = true) : s.QuietOk := fun hq => by simp [hen] at hq

/-- A change of configuration fields to legal values keeps the invariant. -/
theorem State.Inv.configChange {ifs tmoIbt presCfg uartCfg} (h : s.Inv)
    (e : t = { s with ifs := ifs, tmoIbt := tmoIbt, presCfg := presCfg, uartCfg := uartCfg }) (hc : t.ConfigOk) :
    t.Inv := by
  subst e
  exact ⟨hc, h.fifo, h.enc, h.tx, h.rx, h.timers, h.edc, h.quiet⟩

/-- A send in progress shows that the block is enabled (R330). -/
theorem State.Inv.enabled_of_busy (h : s.Inv) (hb : s.tx.busy = true) : s.ctrl.en = true := by
  by_contra hen
  obtain ⟨-, -, hb', -⟩ := h.quiet (by simpa using hen)
  simp [hb'] at hb

/-! ### The transmit FIFO and the encoder -/

theorem State.FifoOk.congr (h : s.FifoOk) (hf : t.fifo = s.fifo) (hp : t.params = s.params) : t.FifoOk := by
  unfold State.FifoOk State.depth at *
  rwa [hf, hp]

theorem State.FifoOk.pushAll (h : s.FifoOk) (bs : List Byte) : (s.pushAll bs).FifoOk := by
  induction bs generalizing s with
  | nil => exact h
  | cons b rest ih => exact ih (h.push b)

/-- While no block is open nothing is owed. -/
theorem State.EncOk.of_closed (ho : s.enc.isOpen = false) (hr : s.enc.remain = 0) : s.EncOk :=
  ⟨fun h => by simp [ho] at h, fun _ => hr⟩

/-- With the LRC kind, the accumulator's high byte is 0 (R40). -/
def AccOk (k : EdcKind) (acc : Half) : Prop := k = .lrc → acc.extractLsb' 8 8 = 0

theorem AccOk.init (k : EdcKind) : AccOk k (edcInit k) := fun h => by subst h; rfl

theorem AccOk.zero (k : EdcKind) : AccOk k 0 := fun _ => by decide

theorem AccOk.feed {k : EdcKind} {acc : Half} (h : AccOk k acc) (b : Byte) : AccOk k (edcFeed k acc b) := by
  intro hk
  have hacc := h hk
  subst hk
  have hb : (b.setWidth 16).extractLsb' 8 8 = 0 := by
    apply BitVec.eq_of_getLsbD_eq
    intro i hi
    simp
  simp only [edcFeed, BitVec.extractLsb'_xor, hacc, hb]
  decide

theorem AccOk.feedAll {k : EdcKind} {acc : Half} (h : AccOk k acc) (bs : List Byte) :
    AccOk k (edcFeedAll k acc bs) := by
  induction bs generalizing acc with
  | nil => exact h
  | cons b rest ih => exact ih (h.feed b)

theorem State.Inv.accOk (h : s.Inv) : AccOk s.edc.latch s.edc.acc := h.edc.1

/-- A change of the FIFO, the encoder and the accumulator that takes no committed byte from a send in progress. -/
theorem State.Inv.fifoChange {fifo enc edc cmdResult cmdStatus} (h : s.Inv) (hen : s.ctrl.en = true)
    (e : t = { s with fifo := fifo, enc := enc, edc := edc, cmdResult := cmdResult, cmdStatus := cmdStatus })
    (hf : t.FifoOk) (he : t.EncOk) (hc : s.tx.busy = true → s.committed ≤ t.committed)
    (hacc : AccOk t.edc.latch t.edc.acc) : t.Inv := by
  obtain ⟨hport, huart, hout⟩ := h.tx
  subst e
  refine ⟨h.config, hf, he, ⟨hport, fun hb hl => ?_, hout⟩, h.rx, h.timers, ⟨hacc, h.edc.2⟩, .of_enabled hen⟩
  obtain ⟨hr, hle⟩ := huart hb hl
  exact ⟨hr, hle.trans (hc hb)⟩

/-- The same when no block is open afterwards. -/
theorem State.Inv.fifoClosed {fifo enc edc cmdResult cmdStatus} (h : s.Inv) (hen : s.ctrl.en = true)
    (e : t = { s with fifo := fifo, enc := enc, edc := edc, cmdResult := cmdResult, cmdStatus := cmdStatus })
    (hf : t.FifoOk) (ho : t.enc.isOpen = false) (hr : t.enc.remain = 0)
    (hc : s.tx.busy = true → s.committed ≤ t.used) (hacc : AccOk t.edc.latch t.edc.acc) : t.Inv :=
  h.fifoChange hen e hf (.of_closed ho hr) (fun hb => by rw [State.committed_of_closed ho]; exact hc hb) hacc

/-- A FIFO after pushing bytes that fit, told of any state that has it. -/
theorem State.FifoOk.after_pushAll (h : s.FifoOk) {w : List Byte} (hw : w.length ≤ s.free)
    (hf : t.fifo = (s.pushAll w).fifo) (hp : t.params = s.params) :
    t.FifoOk ∧ t.used = s.used + w.length ∧ t.free + w.length = s.free := by
  obtain ⟨hok, -, hused, hfree, -⟩ := State.pushAll_spec h w hw
  have hp' : t.params = (s.pushAll w).params := by rw [hp, (s.pushAll_frame w).1]
  have hu : t.used = (s.pushAll w).used := by simp only [State.used, State.depth, hf, hp']
  refine ⟨hok.congr hf hp', hu.trans hused, ?_⟩
  rw [← hfree, State.free, State.free, hu, State.depth, State.depth, hp']

theorem State.Inv.pushAll (h : s.Inv) (hen : s.ctrl.en = true) (ho : s.enc.isOpen = false) {bs : List Byte}
    (hf : bs.length ≤ s.free) : (s.pushAll bs).Inv := by
  obtain ⟨e, -, -⟩ := s.pushAll_frame bs
  have hparams : (s.pushAll bs).params = s.params := by rw [e]
  have henc : (s.pushAll bs).enc = s.enc := by rw [e]
  have hedc : (s.pushAll bs).edc = s.edc := by rw [e]
  obtain ⟨hok, hused, -⟩ := h.fifo.after_pushAll hf rfl hparams
  refine h.fifoClosed hen e hok (by rw [henc, ho]) (by rw [henc]; exact h.enc.2 ho) (fun _ => ?_)
    (by rw [hedc]; exact h.accOk)
  rw [State.committed_of_closed ho, hused]
  exact Nat.le_add_right _ _

/-- Dropping committed bytes keeps what an open block owes. -/
theorem State.EncOk.dropOldest (hf : s.FifoOk) (h : s.EncOk) {n : Nat} (hn : n ≤ s.committed) :
    (s.dropOldest n).EncOk := by
  obtain ⟨-, hhead, -⟩ := id hf
  have hc := State.committed_dropOldest hf n hn
  have hu : (s.dropOldest n).used + n = s.used :=
    State.distance_dropOldest hf n s.fifo.head hhead (hn.trans (State.committed_le h))
  have h1 := s.used_add_free hf
  have h2 := (s.dropOldest n).used_add_free (hf.dropOldest n)
  have hd : (s.dropOldest n).depth = s.depth := rfl
  refine ⟨fun ho => ?_, h.2⟩
  obtain ⟨hr, hrl, hl, hcount, hspace⟩ := h.1 ho
  simp only [State.dropOldest_enc, State.dropOldest_edc]
  exact ⟨hr, hrl, hl, by omega, by omega⟩

theorem State.Inv.dropOldest (h : s.Inv) (hen : s.ctrl.en = true) (hb : s.tx.busy = false) {n : Nat}
    (hn : n ≤ s.committed) : (s.dropOldest n).Inv :=
  h.fifoChange hen rfl (h.fifo.dropOldest n) (h.enc.dropOldest h.fifo hn) (by simp [hb]) h.accOk

/-- R136: an empty FIFO, while no block is open and no send in progress. -/
theorem State.Inv.flush (h : s.Inv) (hen : s.ctrl.en = true) (ho : s.enc.isOpen = false) (hb : s.tx.busy = false) :
    ({ s with fifo := { s.fifo with head := 0, tail := 0, blkStart := 0 } } : State).Inv := by
  have hd := h.fifo.depth_pos
  obtain ⟨hp, -, -, -, hw, hi⟩ := h.fifo
  have h0 : (0 : Half).toNat < s.depth := by simp; omega
  exact h.fifoChange hen rfl ⟨hp, h0, h0, h0, hw, hi⟩ (.of_closed ho (h.enc.2 ho)) (by simp [hb]) h.accOk

/-- R154, R155: a new accumulator value, while no block is open. -/
theorem State.Inv.edcChange {edc} (h : s.Inv) (hen : s.ctrl.en = true) (ho : s.enc.isOpen = false)
    (hacc : AccOk edc.latch edc.acc) : ({ s with edc := edc } : State).Inv :=
  h.fifoChange hen rfl h.fifo (.of_closed ho (h.enc.2 ho)) (fun _ => Nat.le_refl _) hacc

/-- Opening a block keeps the storage in its canonical form. -/
theorem State.FifoOk.openBlock (h : s.FifoOk) (pcb len : Byte) : (openBlock pcb len s).FifoOk := by
  let u : State := { s.startEdc with
    fifo := { s.fifo with blkStart := s.fifo.head }, enc := { s.enc with len := len } }
  obtain ⟨hp, hhead, htail, -, hcells⟩ := h
  have hu : u.FifoOk := ⟨hp, hhead, htail, hhead, hcells⟩
  have hheader : (pushFeed (pushFeed (pushFeed u s.nad.tx) pcb) len).FifoOk := ((hu.push _).push _).push _
  unfold Machine.openBlock
  split
  · rw [closeBlock_eq]
    exact (hheader.pushAll _).congr rfl (congrArg State.params (State.pushAll_frame _ _).1).symm
  · exact hheader

/-- R170: opening a block in a FIFO with the space for it. -/
theorem State.Inv.openBlock (h : s.Inv) (hen : s.ctrl.en = true) (ho : s.enc.isOpen = false) (pcb : Byte) {len : Byte}
    (hlen : len ≠ 0xFF) (hspace : s.blockSize len ≤ s.free) : (openBlock pcb len s).pass.Inv := by
  have hok : (Machine.openBlock pcb len s).pass.FifoOk := h.fifo.openBlock pcb len
  obtain ⟨e, hlive, htail, hblk, -, -⟩ := openBlock_spec h.fifo pcb len hspace
  generalize (Machine.openBlock pcb len s).pass = t at *
  have henc : t.enc = ⟨decide (len ≠ 0), len, len⟩ := congrArg State.enc e
  have hedc : t.edc = ⟨edcFeedAll s.ctrl.edcKind (edcInit s.ctrl.edcKind) [s.nad.tx, pcb, len], s.ctrl.edcKind⟩ :=
    congrArg State.edc e
  have hdepth : t.depth = s.depth := by rw [e]; rfl
  have hacc : AccOk t.edc.latch t.edc.acc := by rw [hedc]; exact (AccOk.init _).feedAll _
  have hused := congrArg List.length hlive
  rw [List.length_append, State.live_length, State.live_length] at hused
  have hsum := s.used_add_free h.fifo
  have hsum' := t.used_add_free hok
  have hclosed := State.committed_of_closed ho
  unfold State.blockSize at hspace
  by_cases hz : len = 0
  · refine h.fifoClosed hen e hok (by simp [henc, hz]) (by simp [henc, hz]) (fun _ => ?_) hacc
    rw [hclosed, hused]
    exact Nat.le_add_right _ _
  · have hto : t.enc.isOpen = true := by simpa [henc] using hz
    have hcommitted : t.committed = s.used := by
      simp [State.committed, State.used, hto, hblk, htail, hdepth]
    simp only [if_neg hz, List.length_cons, List.length_nil] at hused
    refine h.fifoChange hen e hok ⟨fun _ => ?_, fun ho' => by simp [hto] at ho'⟩ (fun _ => by omega) hacc
    simp only [henc, hedc]
    refine ⟨hz, Nat.le_refl _, hlen, ?_, ?_⟩ <;> omega

/-- R175: one INF byte of the open block. -/
theorem State.Inv.encodeData (h : s.Inv) (hen : s.ctrl.en = true) (ho : s.enc.isOpen = true) (b : Byte) :
    (encodeData b s).Inv := by
  obtain ⟨hr, hrl, hl, hcount, hspace⟩ := h.enc.1 ho
  have hpos := (edcLen_pos s.edc.latch).1
  have hr1 := toNat_pos_of_ne_zero hr
  have hsub := toNat_pred hr
  by_cases hlast : s.enc.remain - 1 = 0
  · have e := encodeData_last s b hlast
    generalize hw : b :: edcBytes s.edc.latch (edcFeed s.edc.latch s.edc.acc b) = w at e
    have hwlen : w.length = 1 + edcLen s.edc.latch := by rw [← hw, List.length_cons, edcBytes_length, Nat.add_comm]
    generalize Machine.encodeData b s = t at *
    obtain ⟨hok, hused, -⟩ := h.fifo.after_pushAll (t := t) (w := w) (by omega) (by rw [e]) (by rw [e])
    have hle := State.committed_le h.enc
    exact h.fifoClosed hen e hok (by rw [e]) (by rw [e]) (fun _ => by omega) (by rw [e]; exact h.accOk.feed b)
  · have e := encodeData_more s b hlast
    generalize Machine.encodeData b s = t at *
    obtain ⟨hok, hused, hfree⟩ := h.fifo.after_pushAll (t := t) (w := [b])
      (by rw [List.length_singleton]; omega) (by rw [e]; rfl) (by rw [e])
    rw [List.length_singleton] at hused hfree
    have henc : t.enc = ⟨true, s.enc.remain - 1, s.enc.len⟩ := by rw [e, ← ho]
    have hedc : t.edc = ⟨edcFeed s.edc.latch s.edc.acc b, s.edc.latch⟩ := by rw [e]
    have hcommitted : t.committed = s.committed := by
      simp only [State.committed, henc, ho, if_true]
      rw [e]
      rfl
    refine h.fifoChange hen e hok ⟨fun _ => ?_, fun ho' => by simp [henc] at ho'⟩ (fun _ => hcommitted.ge)
      (by rw [hedc]; exact h.accOk.feed b)
    simp only [henc, hedc, hsub, hcommitted]
    refine ⟨hlast, ?_, hl, ?_, ?_⟩ <;> omega

/-- R176: the open block given up. -/
theorem State.Inv.abortBlock (h : s.Inv) (hen : s.ctrl.en = true) (ho : s.enc.isOpen = true) :
    ({ s with
        fifo := { s.fifo with head := s.fifo.blkStart }
        enc := { s.enc with isOpen := false, remain := 0 } } : State).Inv := by
  obtain ⟨hp, -, ht, hb, hcells⟩ := h.fifo
  exact h.fifoClosed hen rfl ⟨hp, hb, ht, hb, hcells⟩ rfl rfl
    (fun _ => by simp only [State.committed, ho, if_true]; exact Nat.le_refl _) h.accOk

end Sys2Proof.Machine
end

section
/-! PROOFS. The invariant across the transmitter and the timers. -/

namespace Sys2Proof.Machine

variable {s t : State}

/-! ### The transmitter -/

/-- A change of the send in progress and of the pending message, while the block is enabled. -/
theorem State.Inv.txChange {tx usbOut usbSeq lbsCount irqPend output} (h : s.Inv) (hen : s.ctrl.en = true)
    (e : t = { s with
      tx := tx, usbOut := usbOut, usbSeq := usbSeq, lbsCount := lbsCount, irqPend := irqPend, output := output })
    (htx : t.TxOk) : t.Inv := by
  subst e
  exact ⟨h.config, h.fifo, h.enc, htx, h.rx, h.timers, h.edc, .of_enabled hen⟩

/-- R262, R263: no send in progress, and so no message pending. -/
theorem State.TxOk.of_idle (hb : s.tx.busy = false) (ho : s.usbOut = none) : s.TxOk := by simp [State.TxOk, hb, ho]

/-- While a send is in progress on the UART port, or none is, no message is pending. -/
theorem State.TxOk.usbOut_none (h : s.TxOk) (hn : ¬(s.tx.busy = true ∧ s.tx.portLatch = .usb)) : s.usbOut = none := by
  obtain ⟨-, -, hout⟩ := h
  exact Option.not_isSome_iff_eq_none.1 fun hs => hn (hout.1 hs)

/-- R265: a USB send from an idle transmitter on the USB port. -/
theorem State.Inv.usbSend (h : s.Inv) (hen : s.ctrl.en = true) (hp : s.ctrl.port = .usb) (kind : BulkOutKind)
    (n : Half) : (usbSend kind n s).Inv := by
  rw [usbSend_eq]
  exact h.txChange hen rfl (by simp [State.TxOk, hp])

/-- R245: a send of committed bytes from an idle transmitter, on the selected port. -/
theorem State.Inv.startSend (h : s.Inv) (hen : s.ctrl.en = true) {n : Half} (hp : s.ctrl.port ≠ .none)
    (hb : s.tx.busy = false) (hn : n ≠ 0) (hc : n.toNat ≤ s.committed) : (startSend n s).Inv := by
  unfold Machine.startSend
  split
  · next huart =>
    have hout := h.tx.usbOut_none (by simp [hb])
    refine h.txChange hen rfl ⟨fun _ => ⟨huart, by simp [uartSend]⟩, fun _ _ => ⟨hn, ?_⟩, by simp [uartSend, hout]⟩
    show 0 + n.toNat ≤ s.committed
    omega
  · next huart =>
    have husb : s.ctrl.port = .usb := by cases hs : s.ctrl.port <;> simp_all
    exact h.usbSend hen husb _ n

/-- R247: the send in progress given up, with its message. -/
theorem State.Inv.stopSend (h : s.Inv) (hen : s.ctrl.en = true) :
    ({ withdrawMessage s with tx := { s.tx with busy := false, remain := 0 } } : State).Inv := by
  unfold withdrawMessage
  split
  · exact h.txChange hen rfl (.of_idle rfl rfl)
  · next husb => exact h.txChange hen rfl (.of_idle rfl (h.tx.usbOut_none fun hs => husb hs.2))

/-- R244, R246: a byte the line took leaves a shorter rest over the same committed bytes, or no send. -/
theorem State.Inv.lineTaken (h : s.Inv) (hb : s.tx.busy = true) (hl : s.tx.portLatch = .uart) :
    (lineTaken s).Inv := by
  have hen := h.enabled_of_busy hb
  have hlt := State.committed_lt h.fifo
  have hdepth := h.fifo.depth_pos
  obtain ⟨hport, huart, -⟩ := h.tx
  obtain ⟨hr, hle⟩ := huart hb hl
  have hout := h.tx.usbOut_none (by simp [hl])
  have hr1 := toNat_pos_of_ne_zero hr
  have hsub := toNat_pred hr
  have hadd : (s.tx.cursor + 1).toNat = s.tx.cursor.toNat + 1 := half_toNat_succ (by omega)
  rw [lineTaken_eq]
  split
  · exact h.txChange hen rfl (.of_idle rfl hout)
  · next hmore =>
    refine h.txChange hen rfl ⟨hport, fun _ _ => ⟨hmore, ?_⟩, by simp [hout, hl]⟩
    show (s.tx.cursor + 1).toNat + (s.tx.remain - 1).toNat ≤ s.committed
    omega

theorem State.Inv.lineRefused (h : s.Inv) (hb : s.tx.busy = true) (hl : s.tx.portLatch = .uart) :
    (lineRefused s).Inv :=
  h.txChange (h.enabled_of_busy hb) rfl (.of_idle rfl (h.tx.usbOut_none (by simp [hl])))

/-- R263: the port took the pending message. -/
theorem State.Inv.acceptMessage (h : s.Inv) {m : List Byte} (hm : s.usbOut = some m) (ok : Bool) :
    (({ s with
      usbOut := none
      tx := { s.tx with busy := false, remain := 0 }
      output := some (.bulkOut m) } : State).raise (if ok then .txDone else .txFail)).Inv := by
  obtain ⟨-, -, hout⟩ := h.tx
  obtain ⟨hb, -⟩ := hout.1 (by simp [hm])
  exact h.txChange (h.enabled_of_busy hb) rfl (.of_idle rfl rfl)

/-! ### The timers -/

theorem Countdown.stopped_ok : Countdown.stopped.Ok := fun _ => ⟨rfl, rfl⟩

theorem Timers.set_ok {m : Timers} (h : m.ibt.Ok ∧ m.atr.Ok ∧ m.rsp.Ok) (c : Channel) {v : Countdown} (hv : v.Ok) :
    (m.set c v).ibt.Ok ∧ (m.set c v).atr.Ok ∧ (m.set c v).rsp.Ok := by
  obtain ⟨h0, h1, h2⟩ := h
  cases c with
  | ibt => exact ⟨hv, h1, h2⟩
  | atr => exact ⟨h0, hv, h2⟩
  | rsp => exact ⟨h0, h1, hv⟩

/-- New timer values, each of a running or a stopped channel, while the block is enabled. -/
theorem State.Inv.timerChange (h : s.Inv) (hen : s.ctrl.en = true) {m : Timers}
    (hm : m.ibt.Ok ∧ m.atr.Ok ∧ m.rsp.Ok) : ({ s with tmr := m } : State).Inv :=
  ⟨h.config, h.fifo, h.enc, h.tx, h.rx, hm, h.edc, .of_enabled hen⟩

theorem State.Inv.stopTimer (h : s.Inv) (hen : s.ctrl.en = true) (c : Channel) : (s.stopTimer c).Inv :=
  h.timerChange hen (Timers.set_ok h.timers c Countdown.stopped_ok)

theorem State.Inv.startTimer (h : s.Inv) (hen : s.ctrl.en = true) (c : Channel) (v : Half) :
    (s.startTimer c v).Inv := by
  unfold State.startTimer
  split
  · exact h.stopTimer hen c
  · exact h.timerChange hen (Timers.set_ok h.timers c fun hr => by simp at hr)

theorem State.Inv.startTid (h : s.Inv) (hen : s.ctrl.en = true) (tid : BitVec 2) (ms : Half) :
    (startTid tid ms s).Inv := by
  unfold Machine.startTid
  cases channelOf tid with
  | none => exact h
  | some c => exact h.startTimer hen c ms

theorem State.Inv.stopTid (h : s.Inv) (hen : s.ctrl.en = true) (tid : BitVec 2) : (stopTid tid s).Inv := by
  unfold Machine.stopTid
  cases channelOf tid with
  | none => exact h
  | some c => exact h.stopTimer hen c

/-- R222: a channel that stops in a countdown has reached 0. -/
theorem countdown_ok {c : Countdown} (h : c.Ok) (e : Half) : (countdown c e).1.Ok := by
  rw [countdown_eq]
  split
  · exact h
  · intro hr
    have hexp : c.rem.toNat ≤ e.toNat := by
      simp only [Bool.not_eq_false', Bool.and_eq_true, decide_eq_true_eq] at hr
      exact hr.2
    exact ⟨(satSub_eq_zero _ _).2 hexp, rfl⟩

end Sys2Proof.Machine
end

section
/-! PROOFS. The invariant across the receive path (43_decoder.md): what each state's byte makes of RX_COUNT, the receive
buffer and the accumulator. -/

namespace Sys2Proof.Machine

variable {s t : State}

/-- What RX_COUNT counts in each receive state (R191, R193 to R200). -/
def Receiver.CountOk (r : Receiver) : Prop :=
  match r.state with
  | .raw => r.count.toNat ≤ Config.rxbufSize
  | .skip | .addr => r.count = 0
  | .pcb => r.count = 1
  | .len => r.count = 2
  | .inf => r.len ≠ 0xFF ∧ 3 ≤ r.count.toNat ∧ r.count.toNat < 3 + r.len.toNat
  | .edc => r.len ≠ 0xFF ∧ 3 + r.len.toNat ≤ r.count.toNat ∧ r.count.toNat < 3 + r.len.toNat + edcLen r.latch
  | .done => r.len ≠ 0xFF ∧ r.count.toNat = 3 + r.len.toNat + edcLen r.latch

/-- The part of the invariant that a received byte works on, the timer apart. -/
structure State.FrameOk (s : State) : Prop where
  wf : Memory.wf s.rxbuf = true
  within : Memory.within Config.rxbufSize s.rxbuf = true
  mode : s.rx.state = .raw ↔ s.ctrl.rxMode = .raw
  count : s.rx.CountOk
  acc : AccOk s.rx.latch s.rx.acc

theorem State.frameOk_iff : s.FrameOk ↔ s.RxOk ∧ AccOk s.rx.latch s.rx.acc := by
  constructor
  · rintro ⟨hw, hi, hm, hc, hacc⟩
    refine ⟨⟨hw, hi, hm, ?_⟩, hacc⟩
    unfold Receiver.CountOk at hc
    cases hs : s.rx.state <;> simp_all
  · rintro ⟨⟨hw, hi, hm, hc⟩, hacc⟩
    refine ⟨hw, hi, hm, ?_, hacc⟩
    unfold Receiver.CountOk
    cases hs : s.rx.state <;> simp_all

theorem State.Inv.frameOk (h : s.Inv) : s.FrameOk := State.frameOk_iff.2 ⟨h.rx, h.edc.2⟩

/-- The receive path's part of the invariant, with the inter-byte timer. -/
structure State.ReceiveOk (s : State) : Prop where
  frame : s.FrameOk
  ibt : s.tmr.ibt.Ok

/-- What writes the receive path alone keeps the invariant when it keeps the receive path's part. -/
theorem OnlyReceivePath.inv (ho : OnlyReceivePath s t) (h : s.Inv) (hen : s.ctrl.en = true) (hok : t.ReceiveOk) :
    t.Inv := by
  obtain ⟨hf, hibt⟩ := hok
  obtain ⟨hrx, hacc⟩ := State.frameOk_iff.1 hf
  obtain ⟨e, hatr, hrsp⟩ := ho
  obtain ⟨-, htatr, htrsp⟩ := h.timers
  have htimers : t.TimersOk := ⟨hibt, by rw [hatr]; exact htatr, by rw [hrsp]; exact htrsp⟩
  generalize t.rx = r, t.rxbuf = buf, t.rxInfo = i, t.rxErrCause = c, t.tmr = m, t.irqPend = p at e
  subst e
  exact ⟨h.config, h.fifo, h.enc, h.tx, hrx, htimers, ⟨h.accOk, hacc⟩, .of_enabled hen⟩

theorem State.Inv.receiveOk (h : s.Inv) : s.ReceiveOk := ⟨h.frameOk, h.timers.1⟩

/-- R227: after a byte the inter-byte timer runs, or is stopped where the interval is 0. -/
theorem State.FrameOk.restartIbt (h : s.FrameOk) : s.restartIbt.ReceiveOk := by
  refine ⟨⟨?_, ?_, ?_, ?_, ?_⟩, ?_⟩
  · simpa using h.wf
  · simpa using h.within
  · simpa using h.mode
  · simpa using h.count
  · simpa using h.acc
  · unfold State.restartIbt State.startTimer
    split
    · exact Countdown.stopped_ok
    · intro hr
      simp [Timers.set] at hr

/-- In T1 mode a frame state is told by its count and its accumulator. -/
theorem State.FrameOk.of_t1 (hw : Memory.wf s.rxbuf = true) (hi : Memory.within Config.rxbufSize s.rxbuf = true)
    (hm : s.ctrl.rxMode = .t1) (hx : s.rx.state ≠ .raw) (hc : s.rx.CountOk) (ha : AccOk s.rx.latch s.rx.acc) :
    s.FrameOk :=
  ⟨hw, hi, by simp [hm, hx], hc, ha⟩

/-- Storing a byte in the receive buffer keeps the storage canonical. -/
theorem State.FrameOk.write (h : s.FrameOk) {k : Nat} (hk : k < Config.rxbufSize) (b : Byte) :
    Memory.wf (Memory.write s.rxbuf k b) = true ∧
    Memory.within Config.rxbufSize (Memory.write s.rxbuf k b) = true :=
  ⟨Memory.wf_write _ _ _ h.wf, Memory.within_write _ _ _ _ h.within hk⟩

/-- RX_COUNT below the buffer's size counts up without wrapping. -/
theorem count_succ {n : Half} (h : n.toNat < Config.rxbufSize) : (n + 1).toNat = n.toNat + 1 :=
  half_toNat_succ (h.trans (by decide))

theorem rawCapture_receiveOk (h : s.FrameOk) (hm : s.ctrl.rxMode = .raw) (b : Byte) (perr : Bool) :
    (rawCapture b perr s).ReceiveOk := by
  have hraw : s.rx.state = .raw := h.mode.2 hm
  unfold rawCapture
  apply State.FrameOk.restartIbt
  split
  · next hroom =>
    obtain ⟨hw, hi⟩ := h.write hroom b
    have hstored : (s.storeRx b).FrameOk := by
      refine ⟨hw, hi, h.mode, ?_, h.acc⟩
      have hle : (s.rx.count + 1).toNat ≤ Config.rxbufSize := by rw [count_succ hroom]; exact hroom
      simpa [Receiver.CountOk, hraw] using hle
    split
    · exact ⟨hstored.wf, hstored.within, hstored.mode, hstored.count, hstored.acc⟩
    · exact hstored
  · exact ⟨h.wf, h.within, h.mode, h.count, h.acc⟩

variable (hm : s.ctrl.rxMode = .t1) (b : Byte) (perr : Bool)
include hm

theorem parseAddr_receiveOk (h : s.FrameOk) (hs : s.rx.state = .addr) : (parseAddr b perr s).ReceiveOk := by
  unfold parseAddr
  apply State.FrameOk.restartIbt
  split
  · obtain ⟨hw, hi⟩ := h.write (k := 0) (by decide) b
    exact .of_t1 hw hi hm (by simp) (by simp [Receiver.CountOk]) ((AccOk.init _).feed b)
  · have hcount := h.count
    simp only [Receiver.CountOk, hs] at hcount
    exact .of_t1 h.wf h.within hm (by simp) (by simpa [Receiver.CountOk] using hcount) h.acc

theorem parsePcb_receiveOk (h : s.FrameOk) : (parsePcb b perr s).ReceiveOk := by
  obtain ⟨hw, hi⟩ := h.write (k := 1) (by decide) b
  unfold parsePcb
  apply State.FrameOk.restartIbt
  exact .of_t1 hw hi hm (by simp) (by simp [Receiver.CountOk]) (h.acc.feed b)

/-- R199: an aborted frame. -/
theorem abortFrame_receiveOk (hw : Memory.wf s.rxbuf = true) (hi : Memory.within Config.rxbufSize s.rxbuf = true)
    (ha : AccOk s.rx.latch s.rx.acc) (c : RxErrCause) : (abortFrame c s).ReceiveOk := by
  unfold abortFrame
  apply State.FrameOk.restartIbt
  exact .of_t1 hw hi hm (by simp) (by simp [Receiver.CountOk]) ha

theorem parseLen_receiveOk (h : s.FrameOk) : (parseLen b perr s).ReceiveOk := by
  let u := (((s.writeRx 2 b).setRxCount 3).feedRx b).notePerr perr
  let t : State := { u with rx := { u.rx with len := b } }
  have e : parseLen b perr s =
      if b = 0xFF then abortFrame .lenReserved t else if b > s.ifs.ifsd then abortFrame .lenOverIfsd t
      else (t.setRxState (if b = 0 then .edc else .inf)).restartIbt := rfl
  obtain ⟨hw, hi⟩ : Memory.wf t.rxbuf = true ∧ Memory.within Config.rxbufSize t.rxbuf = true :=
    h.write (k := 2) (by decide) b
  have ha : AccOk t.rx.latch t.rx.acc := h.acc.feed b
  have hmt : t.ctrl.rxMode = .t1 := hm
  have hcount : t.rx.count.toNat = 3 := rfl
  have hlen : t.rx.len = b := rfl
  have hpos := (edcLen_pos t.rx.latch).1
  clear_value t
  rw [e]
  split
  · exact abortFrame_receiveOk hmt hw hi ha _
  · next hff =>
    split
    · exact abortFrame_receiveOk hmt hw hi ha _
    · apply State.FrameOk.restartIbt
      split
      · next hz =>
        refine .of_t1 hw hi hmt (by simp) ?_ ha
        simp only [Receiver.CountOk, State.setRxState_rx, hcount, hlen, hz]
        exact ⟨by decide, Nat.le_refl _, Nat.lt_add_of_pos_right hpos⟩
      · next hz =>
        have hb := toNat_pos_of_ne_zero hz
        refine .of_t1 hw hi hmt (by simp) ?_ ha
        simp only [Receiver.CountOk, State.setRxState_rx, hcount, hlen]
        exact ⟨hff, Nat.le_refl _, by omega⟩

theorem parseInf_receiveOk (h : s.FrameOk) (hs : s.rx.state = .inf) : (parseInf b perr s).ReceiveOk := by
  obtain ⟨hff, hlow, hhigh⟩ : s.rx.len ≠ 0xFF ∧ 3 ≤ s.rx.count.toNat ∧ s.rx.count.toNat < 3 + s.rx.len.toNat := by
    simpa only [Receiver.CountOk, hs] using h.count
  have hroom : s.rx.count.toNat < Config.rxbufSize := by
    have := s.rx.len.isLt
    simp only [Config.rxbufSize]
    omega
  let t := ((s.storeRx b).feedRx b).notePerr perr
  have e : parseInf b perr s =
      (if t.rx.count.toNat = 3 + t.rx.len.toNat then t.setRxState .edc else t).restartIbt := rfl
  obtain ⟨hw, hi⟩ : Memory.wf t.rxbuf = true ∧ Memory.within Config.rxbufSize t.rxbuf = true := h.write hroom b
  have ha : AccOk t.rx.latch t.rx.acc := h.acc.feed b
  have hmt : t.ctrl.rxMode = .t1 := hm
  have hst : t.rx.state = .inf := hs
  have hcount : t.rx.count.toNat = s.rx.count.toNat + 1 := count_succ hroom
  have hlen : t.rx.len = s.rx.len := rfl
  have hpos := (edcLen_pos t.rx.latch).1
  clear_value t
  rw [e]
  apply State.FrameOk.restartIbt
  rw [hcount, hlen]
  split
  · next hlast =>
    refine .of_t1 hw hi hmt (by simp) ?_ ha
    simp only [Receiver.CountOk, State.setRxState_rx, hcount, hlen]
    exact ⟨hff, by omega, by omega⟩
  · next hmore =>
    refine .of_t1 hw hi hmt (by simp [hst]) ?_ ha
    simp only [Receiver.CountOk, hst, hcount, hlen]
    exact ⟨hff, by omega, by omega⟩

theorem parseEdc_receiveOk (h : s.FrameOk) (hs : s.rx.state = .edc) : (parseEdc b perr s).ReceiveOk := by
  obtain ⟨hff, hlow, hhigh⟩ : s.rx.len ≠ 0xFF ∧ 3 + s.rx.len.toNat ≤ s.rx.count.toNat ∧
      s.rx.count.toNat < 3 + s.rx.len.toNat + edcLen s.rx.latch := by
    simpa only [Receiver.CountOk, hs] using h.count
  have hroom : s.rx.count.toNat < Config.rxbufSize := by
    have := s.rx.len.isLt
    have := (edcLen_pos s.rx.latch).2
    simp only [Config.rxbufSize]
    omega
  let t := (s.storeRx b).notePerr perr
  have e : parseEdc b perr s =
      if t.rx.count.toNat = 3 + t.rx.len.toNat + edcLen t.rx.latch then completeFrame t else t.restartIbt := rfl
  obtain ⟨hw, hi⟩ : Memory.wf t.rxbuf = true ∧ Memory.within Config.rxbufSize t.rxbuf = true := h.write hroom b
  have ha : AccOk t.rx.latch t.rx.acc := h.acc
  have hmt : t.ctrl.rxMode = .t1 := hm
  have hst : t.rx.state = .edc := hs
  have hcount : t.rx.count.toNat = s.rx.count.toNat + 1 := count_succ hroom
  have hlen : t.rx.len = s.rx.len := rfl
  have hlatch : t.rx.latch = s.rx.latch := rfl
  clear_value t
  rw [e, hcount, hlen, hlatch]
  split
  · next hlast =>
    refine ⟨.of_t1 hw hi hmt (by simp [completeFrame]) ?_ ha, Countdown.stopped_ok⟩
    simp only [completeFrame, Receiver.CountOk, State.raise_rx, State.stopTimer_rx, State.setRxState_rx, hcount, hlen,
      hlatch]
    exact ⟨hff, hlast⟩
  · next hmore =>
    refine (State.FrameOk.of_t1 hw hi hmt (by simp [hst]) ?_ ha).restartIbt
    simp only [Receiver.CountOk, hst, hcount, hlen, hlatch]
    exact ⟨hff, by omega, by omega⟩

theorem parse_receiveOk (h : s.ReceiveOk) : (parse b perr s).ReceiveOk := by
  unfold parse
  cases hs : s.rx.state with
  | skip => exact h.frame.restartIbt
  | addr => exact parseAddr_receiveOk hm b perr h.frame hs
  | pcb => exact parsePcb_receiveOk hm b perr h.frame
  | len => exact parseLen_receiveOk hm b perr h.frame
  | inf => exact parseInf_receiveOk hm b perr h.frame hs
  | edc => exact parseEdc_receiveOk hm b perr h.frame hs
  | done =>
    obtain ⟨⟨hw, hi, hmode, hcount, hacc⟩, hibt⟩ := h
    exact ⟨⟨hw, hi, hmode, hcount, hacc⟩, hibt⟩
  | raw => exact h

end Sys2Proof.Machine
end

section
/-! PROOFS. The invariant across whole deliveries, restarts, resets and ticks. -/

namespace Sys2Proof.Machine

variable {s t : State}

/-! ### Received bytes -/

theorem State.Inv.receiveByte (h : s.Inv) (hen : s.ctrl.en = true) (b : Byte) (perr : Bool) :
    (receiveByte b perr s).Inv := by
  have hok : (Machine.receiveByte b perr s).ReceiveOk := by
    unfold Machine.receiveByte
    cases hm : s.ctrl.rxMode with
    | raw => exact rawCapture_receiveOk h.frameOk hm b perr
    | t1 => exact parse_receiveOk hm b perr h.receiveOk
  exact (receiveByte_only b perr s).inv h hen hok

theorem State.Inv.deliver (h : s.Inv) (b : Byte) (perr : Bool) (src : Source) : (deliver b perr src s).Inv := by
  rcases deliver_cases b perr src s with e | ⟨-, -, -, e⟩ | ⟨hen, e⟩ <;> rw [e]
  · exact h
  · exact h.congr rfl
  · exact h.receiveByte hen b perr

theorem State.Inv.deliverAll (h : s.Inv) (bs : List Byte) : (deliverAll bs s).Inv := by
  induction bs generalizing s with
  | nil => exact h
  | cons b rest ih => exact ih (h.deliver b false .usb)

/-- R204: the expiry of the inter-byte timer. -/
theorem State.Inv.onIbtExpiry (h : s.Inv) (hen : s.ctrl.en = true) : (onIbtExpiry s).Inv := by
  obtain ⟨honly, htmr, -⟩ := onIbtExpiry_only s
  refine honly.inv h hen ⟨?_, by rw [htmr]; exact h.receiveOk.ibt⟩
  have hf := h.frameOk
  have hmode : s.rx.state ≠ .raw → s.ctrl.rxMode ≠ .raw := fun hs hm => hs (hf.mode.2 hm)
  have hcount := hf.count
  unfold Machine.onIbtExpiry
  cases hs : s.rx.state with
  | raw =>
    show (if s.rx.count ≠ 0 then s.raise .rawIdle else s).FrameOk
    split
    · exact ⟨hf.wf, hf.within, hf.mode, hf.count, hf.acc⟩
    · exact hf
  | skip =>
    simp only [Receiver.CountOk, hs] at hcount
    exact ⟨hf.wf, hf.within, by simpa using hmode (by simp [hs]), by simpa [Receiver.CountOk] using hcount, hf.acc⟩
  | addr => exact hf
  | done => exact hf
  | pcb | len | inf | edc =>
    exact ⟨hf.wf, hf.within, by simpa using hmode (by simp [hs]), by simp [Receiver.CountOk], hf.acc⟩

/-- R206: the held frame released. -/
theorem State.Inv.release (h : s.Inv) (hen : s.ctrl.en = true) (hs : s.rx.state = .done) :
    ((s.setRxState .addr).setRxCount 0).Inv := by
  have hf := h.frameOk
  have hm : s.ctrl.rxMode ≠ .raw := fun hm => by simp [hf.mode.2 hm] at hs
  exact OnlyReceivePath.inv (((OnlyReceivePath.refl s).setRxState _).setRxCount _) h hen
    ⟨⟨hf.wf, hf.within, by simpa using hm, by simp [Receiver.CountOk], hf.acc⟩, h.receiveOk.ibt⟩

/-! ### Restarts and resets -/

/-- R205: a restarted receive path, in the mode of any new CTRL fields that leave a send in progress on its port. -/
theorem State.Inv.restartRx_ctrl (h : s.Inv) {c : Ctrl} (hen : c.en = false → s.ctrl.en = false)
    (hport : s.tx.busy = true → c.port = s.ctrl.port) : (restartRx { s with ctrl := c }).Inv := by
  obtain ⟨hlatch, huart, hout⟩ := h.tx
  obtain ⟨-, hatr, hrsp⟩ := h.timers
  have hf := h.frameOk
  have hframe : (restartRx { s with ctrl := c }).FrameOk := by
    rw [restartRx_eq]
    refine ⟨hf.wf, hf.within, ?_, ?_, hf.acc⟩ <;> cases hm : c.rxMode <;> simp [Receiver.CountOk]
  have hrx := (State.frameOk_iff.1 hframe).1
  rw [restartRx_eq] at hrx ⊢
  refine ⟨h.config, h.fifo, h.enc, ⟨fun hb => ?_, huart, hout⟩, hrx, ⟨Countdown.stopped_ok, hatr, hrsp⟩, h.edc,
    fun hq => ?_⟩
  · exact ⟨(hport hb).trans (hlatch hb).1, (hlatch hb).2⟩
  · obtain ⟨hfifo, hopen, hbusy, hmsg, -, -, hatr', hrsp'⟩ := h.quiet (hen hq)
    exact ⟨hfifo, hopen, hbusy, hmsg, rfl, rfl, hatr', hrsp'⟩

theorem State.Inv.restartRx (h : s.Inv) : (restartRx s).Inv := h.restartRx_ctrl (c := s.ctrl) id fun _ => rfl

/-- New CTRL fields that keep the receive mode and leave a send in progress on its port. -/
theorem State.Inv.ctrlChange (h : s.Inv) {c : Ctrl} (hen : c.en = false → s.ctrl.en = false)
    (hport : s.tx.busy = true → c.port = s.ctrl.port) (hmode : c.rxMode = s.ctrl.rxMode) :
    ({ s with ctrl := c } : State).Inv := by
  obtain ⟨hlatch, huart, hout⟩ := h.tx
  have hrx : ({ s with ctrl := c } : State).RxOk := by
    have := h.rx
    simp only [State.RxOk, hmode] at this ⊢
    exact this
  exact ⟨h.config, h.fifo, h.enc, ⟨fun hb => ⟨(hport hb).trans (hlatch hb).1, (hlatch hb).2⟩, huart, hout⟩, hrx,
    h.timers, h.edc, fun hq => h.quiet (hen hq)⟩

/-- A soft reset leaves a well-kept state, whatever was in progress. -/
theorem softReset_inv (hc : s.ConfigOk) (hf : s.FifoOk) (hw : Memory.wf s.rxbuf = true)
    (hi : Memory.within Config.rxbufSize s.rxbuf = true) : (softReset s).Inv := by
  have hd := hf.depth_pos
  obtain ⟨hp, -, -, -, hcells⟩ := hf
  have h0 : (0 : Half).toNat < s.depth := by simp; omega
  have hframe : (softReset s).FrameOk := by
    rw [softReset_eq]
    refine ⟨hw, hi, ?_, ?_, AccOk.zero _⟩ <;> cases s.ctrl.rxMode <;> simp [Receiver.CountOk]
  have hrx := (State.frameOk_iff.1 hframe).1
  rw [softReset_eq] at hrx ⊢
  exact ⟨hc, ⟨hp, h0, h0, h0, hcells⟩, .of_closed rfl rfl, .of_idle rfl rfl, hrx,
    ⟨Countdown.stopped_ok, Countdown.stopped_ok, Countdown.stopped_ok⟩, ⟨AccOk.zero _, AccOk.zero _⟩,
    fun _ => ⟨rfl, rfl, rfl, rfl, rfl, rfl, rfl, rfl⟩⟩

/-- R292. -/
theorem State.Inv.cfgDefaults (h : s.Inv) : (cfgDefaults s).Inv := by
  obtain ⟨hp, -⟩ := h.config
  obtain ⟨hifs, hibt, hn, hetu, hclk⟩ := params_defaults_legal hp
  have hconfig : (Machine.cfgDefaults s).ConfigOk := ⟨hp, hifs, hifs, hibt, hn, hetu, hclk⟩
  exact ⟨hconfig, h.fifo, h.enc, h.tx, h.rx, h.timers, h.edc, h.quiet⟩

theorem hardwareReset_frameOk (s : State) : (hardwareReset s).FrameOk where
  wf := rfl
  within := rfl
  mode := ⟨fun _ => rfl, fun _ => rfl⟩
  count := by simp [Receiver.CountOk, hardwareReset, State.resetWith]
  acc := AccOk.zero _

/-- R331: the reset state of any legal parameters is well kept. -/
theorem hardwareReset_inv (hf : s.FifoOk) : (hardwareReset s).Inv := by
  have hd := hf.depth_pos
  obtain ⟨hp, -⟩ := hf
  obtain ⟨hifs, hibt, hn, hetu, hclk⟩ := params_defaults_legal hp
  have h0 : (0 : Half).toNat < s.depth := by simp; omega
  exact ⟨⟨hp, hifs, hifs, hibt, hn, hetu, hclk⟩, ⟨hp, h0, h0, h0, rfl, rfl⟩, .of_closed rfl rfl, .of_idle rfl rfl,
    (State.frameOk_iff.1 (hardwareReset_frameOk s)).1,
    ⟨Countdown.stopped_ok, Countdown.stopped_ok, Countdown.stopped_ok⟩, ⟨AccOk.zero _, AccOk.zero _⟩,
    fun _ => ⟨rfl, rfl, rfl, rfl, rfl, rfl, rfl, rfl⟩⟩

/-! ### Presence and TICK -/

/-- R250: a UART send given up on a removal. -/
theorem State.Inv.abandonUartSend (h : s.Inv) (hen : s.ctrl.en = true) : (abandonUartSend s).Inv := by
  unfold Machine.abandonUartSend
  split
  · next hsend => exact h.txChange hen rfl (.of_idle rfl (h.tx.usbOut_none (by simp [hsend.2])))
  · exact h

/-- R250: a frame dropped on a removal. -/
theorem State.Inv.dropFrameInProgress (h : s.Inv) (hen : s.ctrl.en = true) : (dropFrameInProgress s).Inv := by
  have hf := h.frameOk
  unfold Machine.dropFrameInProgress
  split
  · next hm =>
    cases hs : s.rx.state with
    | addr | done | raw => exact h
    | skip | pcb | len | inf | edc =>
      exact OnlyReceivePath.inv (s := s) ⟨rfl, rfl, rfl⟩ h hen
        ⟨.of_t1 hf.wf hf.within hm (by simp) (by simp [Receiver.CountOk]) hf.acc, h.receiveOk.ibt⟩
  · exact h

theorem State.Inv.removal (h : s.Inv) (hen : s.ctrl.en = true) : (removal s).Inv := by
  unfold Machine.removal
  dsimp only
  split
  · have hpins : ({ s.raise .cardOut with pinCtrl := ⟨false, false, false⟩ } : State).Inv := h.congr rfl
    have hsend := hpins.abandonUartSend hen
    have hecho : ({ Machine.abandonUartSend ({ s.raise .cardOut with pinCtrl := ⟨false, false, false⟩ } : State) with
      lbsCount := 0 } : State).Inv := hsend.congr rfl
    refine (hecho.dropFrameInProgress ?_).stopTimer ?_ .ibt
    · exact (congrArg Ctrl.en (abandonUartSend_ctrl _)).trans hen
    · rw [dropFrameInProgress_ctrl]
      exact (congrArg Ctrl.en (abandonUartSend_ctrl _)).trans hen
  · exact h.raise _

/-- R249. -/
theorem State.Inv.presenceSample (h : s.Inv) (hen : s.ctrl.en = true) : (presenceSample s).Inv := by
  unfold Machine.presenceSample
  dsimp only
  split
  · exact h.congr rfl
  · split
    · have hpresent : ({ s with presPin := s.presenceLevel, present := s.presenceLevel, debCnt := 0 } : State).Inv :=
        h.congr rfl
      split
      · exact hpresent.raise _
      · exact hpresent.removal hen
    · exact h.congr rfl

theorem State.Inv.sampleIfUart (h : s.Inv) (hen : s.ctrl.en = true) :
    (sampleIfUart s).Inv ∧ (sampleIfUart s).ctrl.en = true := by
  unfold Machine.sampleIfUart
  split
  · exact ⟨h.presenceSample hen, by rw [presenceSample_only]; exact hen⟩
  · exact ⟨h, hen⟩

theorem State.Inv.expireIf (h : s.Inv) (hen : s.ctrl.en = true) (expired : Bool) (c : Channel) :
    (expireIf expired c s).Inv := by
  unfold Machine.expireIf
  split
  · cases c with
    | ibt => exact (h.raise _).onIbtExpiry hen
    | atr | rsp => exact h.raise _
  · exact h

/-- R222. -/
theorem State.Inv.tick (h : s.Inv) (hen : s.ctrl.en = true) (e : Half) : (tick e s).Inv := by
  unfold Machine.tick
  split
  · exact h.setResult 0
  · obtain ⟨hsample, hen'⟩ := h.sampleIfUart hen
    dsimp only
    generalize Machine.sampleIfUart s = u at hsample hen' ⊢
    obtain ⟨hibt, hatr, hrsp⟩ := hsample.timers
    have hcount := hsample.timerChange (m := ⟨(countdown u.tmr.ibt e).1, (countdown u.tmr.atr e).1,
      (countdown u.tmr.rsp e).1⟩) hen' ⟨countdown_ok hibt e, countdown_ok hatr e, countdown_ok hrsp e⟩
    refine State.Inv.setResult ?_ _
    exact ((hcount.expireIf hen' _ .ibt).expireIf (by rw [expireIf_ctrl]; exact hen') _ .atr).expireIf
      (by rw [expireIf_ctrl, expireIf_ctrl]; exact hen') _ .rsp

/-! ### Messages of the USB port -/

/-- R264, R266. -/
theorem State.Inv.bulkIn (h : s.Inv) (m : List Byte) : (bulkIn m s).Inv := by
  have herror (u : State) (hu : u.Inv) (c : UsbErrCause) : (usbError c u).Inv := hu.congr rfl
  unfold Machine.bulkIn
  split
  · exact h
  · split
    · exact herror s h _
    · have hrsp : ({ s with ccidRsp := headerOf m } : State).Inv := h.congr rfl
      dsimp only
      split
      · exact herror _ hrsp _
      · refine State.Inv.raise ?_ _
        split
        · exact hrsp.deliverAll _
        · exact hrsp

/-- R267. -/
theorem State.Inv.usbInt (h : s.Inv) (m : List Byte) : (usbInt m s).Inv := by
  unfold Machine.usbInt
  dsimp only
  repeat' split
  all_goals exact h.congr rfl

end Sys2Proof.Machine
end

section
/-! PROOFS. Every command, every write and every step keeps the invariant. -/

namespace Sys2Proof.Machine

variable {s : State}

/-- The CCID commands, whose first check is that the USB port is selected (R268 to R271). -/
theorem usbCommand_answersIn_inv (h : s.Inv) (kind : BulkOutKind) (n : Half) (checks : List (Bool × CmdCode)) :
    AnswersIn State.Inv (commandEnabled s ((decide (s.ctrl.port ≠ .usb), .ePort) :: checks)
      ((usbSend kind n s).setResult 0)) :=
  commandEnabled_answersIn h.failedWith fun hen hc => by
    obtain ⟨hp, -⟩ := List.forall_mem_cons.1 hc
    exact ((h.usbSend hen (by simpa using hp) kind n).setResult _).pass

theorem exec_answersIn_inv (h : s.Inv) (i : Instr) : AnswersIn State.Inv (exec i s) := by
  have hfail := h.failedWith
  cases i with
  | nop =>
    show AnswersIn _ (execNop s)
    exact command_answersIn hfail fun _ => (h.setResult _).pass
  | softReset =>
    show AnswersIn _ (execSoftReset s)
    exact command_answersIn hfail fun _ => (softReset_inv h.config h.fifo h.frameOk.wf h.frameOk.within).pass
  | cfgDefaults =>
    show AnswersIn _ (execCfgDefaults s)
    exact command_answersIn hfail fun _ => (h.cfgDefaults.setResult _).pass
  | fifoPush b =>
    refine commandEnabled_answersIn hfail fun hen hc => ?_
    obtain ⟨ho, hroom⟩ : s.enc.isOpen = false ∧ ¬s.free = 0 := by simpa using hc
    exact ((h.pushAll hen ho (bs := [b]) (by rw [List.length_singleton]; omega)).setResult _).pass
  | fifoPop =>
    refine commandEnabled_answersIn hfail fun hen hc => ?_
    obtain ⟨hb, hsome⟩ : s.tx.busy = false ∧ ¬s.committed = 0 := by simpa using hc
    exact ((h.dropOldest hen hb (n := 1) (by omega)).setResult _).pass
  | fifoPeek offset => exact commandEnabled_answersIn hfail fun _ _ => (h.setResult _).pass
  | fifoRemove n =>
    refine commandEnabled_answersIn hfail fun hen hc => ?_
    obtain ⟨hb, hn⟩ : s.tx.busy = false ∧ n.toNat ≤ s.committed := by simpa using hc
    exact ((h.dropOldest hen hb hn).setResult _).pass
  | fifoFlush =>
    refine commandEnabled_answersIn hfail fun hen hc => ?_
    obtain ⟨ho, hb⟩ : s.enc.isOpen = false ∧ s.tx.busy = false := by simpa using hc
    exact ((h.flush hen ho hb).setResult _).pass
  | edcInit =>
    refine commandEnabled_answersIn hfail fun hen hc => ?_
    have ho : s.enc.isOpen = false := by simpa using hc
    exact ((h.edcChange (edc := s.startEdc.edc) hen ho (AccOk.init _)).setResult _).pass
  | edcFeed b =>
    refine commandEnabled_answersIn hfail fun hen hc => ?_
    have ho : s.enc.isOpen = false := by simpa using hc
    exact ((h.edcChange (edc := (s.feed b).edc) hen ho (h.accOk.feed b)).setResult _).pass
  | edcEmit =>
    refine commandEnabled_answersIn hfail fun hen hc => ?_
    obtain ⟨ho, hroom⟩ : s.enc.isOpen = false ∧ edcLen s.edc.latch ≤ s.free := by simpa using hc
    exact ((h.pushAll hen ho (by rw [edcBytes_length]; exact hroom)).setResult _).pass
  | encI m ns len =>
    refine commandEnabled_answersIn hfail fun hen hc => ?_
    obtain ⟨ho, hlen, -, hroom⟩ : s.enc.isOpen = false ∧ len ≠ 0xFF ∧ len ≤ s.ifs.ifsc ∧ s.blockSize len ≤ s.free := by
      simpa using hc
    exact h.openBlock hen ho _ hlen hroom
  | encR code nr =>
    refine commandEnabled_answersIn hfail fun hen hc => ?_
    obtain ⟨ho, hroom⟩ : s.enc.isOpen = false ∧ s.blockSize 0 ≤ s.free := by simpa using hc
    exact h.openBlock hen ho _ (by decide) hroom
  | encS scmd resp len =>
    refine commandEnabled_answersIn hfail fun hen hc => ?_
    obtain ⟨ho, hlen, hroom⟩ : s.enc.isOpen = false ∧ len ≤ 1 ∧ s.blockSize len ≤ s.free := by simpa using hc
    exact h.openBlock hen ho _ (fun hff => by subst hff; exact absurd hlen (by decide)) hroom
  | encData b =>
    refine commandEnabled_answersIn hfail fun hen hc => ?_
    have ho : s.enc.isOpen = true := by simpa using hc
    exact (h.encodeData hen ho b).pass
  | encAbort =>
    refine commandEnabled_answersIn hfail fun hen hc => ?_
    have ho : s.enc.isOpen = true := by simpa using hc
    exact ((h.abortBlock hen ho).setResult _).pass
  | rxRestart => exact commandEnabled_answersIn hfail fun _ _ => (h.restartRx.setResult _).pass
  | rxRelease =>
    refine commandEnabled_answersIn hfail fun hen hc => ?_
    have hs : s.rx.state = .done := by simpa using hc
    exact ((h.release hen hs).setResult _).pass
  | rxPush b => exact commandEnabled_answersIn hfail fun _ _ => ((h.deliver b false .sw).setResult _).pass
  | tmrStart tid ms => exact commandEnabled_answersIn hfail fun hen _ => ((h.startTid hen tid ms).setResult _).pass
  | tmrStop tid => exact commandEnabled_answersIn hfail fun hen _ => ((h.stopTid hen tid).setResult _).pass
  | tick ms => exact commandEnabled_answersIn hfail fun hen _ => (h.tick hen ms).pass
  | txSend n =>
    refine commandEnabled_answersIn hfail fun hen hc => ?_
    obtain ⟨hp, hb, hn, hle⟩ : s.ctrl.port ≠ .none ∧ s.tx.busy = false ∧ n ≠ 0 ∧ n.toNat ≤ s.committed := by
      simpa using hc
    exact ((h.startSend hen hp hb hn hle).setResult _).pass
  | txStop => exact commandEnabled_answersIn hfail fun hen _ => ((h.stopSend hen).setResult _).pass
  | ccidPowerOn psel => exact usbCommand_answersIn_inv h (.powerOn psel) 0 _
  | ccidPowerOff => exact usbCommand_answersIn_inv h .powerOff 0 _
  | ccidGetParams => exact usbCommand_answersIn_inv h .getParams 0 _
  | ccidSetParams proto n => exact usbCommand_answersIn_inv h (.setParams proto) n _

theorem writeCmd_answersIn_inv (h : s.Inv) (v : Word) : AnswersIn State.Inv (writeCmd v s) := by
  unfold writeCmd
  split
  · exact exec_answersIn_inv h _
  · exact answersIn_next.2 (h.failedWith _)
  · split <;> exact answersIn_next.2 (h.failedWith _)

/-- R23, R24. -/
theorem State.Inv.writeCtrl (h : s.Inv) (v : Word) : (writeCtrl v s).Inv := by
  rw [writeCtrl_eq]
  dsimp only
  split
  · exact softReset_inv h.config h.fifo h.frameOk.wf h.frameOk.within
  · next hd =>
    have hen : (s.ctrlWritten v).en = false → s.ctrl.en = false := fun hv => by
      by_contra hs
      exact hd ⟨by simpa using hs, hv⟩
    have hport : s.tx.busy = true → (s.ctrlWritten v).port = s.ctrl.port := fun hb => if_pos ⟨hb, hd⟩
    split
    · exact h.restartRx_ctrl hen hport
    · next hsame => exact h.ctrlChange hen hport (not_not.1 hsame).symm

theorem Reg.write_answersIn_inv (h : s.Inv) (r : Reg) (v : Word) : AnswersIn State.Inv (r.write v s) := by
  obtain ⟨hp, hifsc, hifsd, hibt, hn, hetu, hclk⟩ := h.config
  cases r with
  | ctrl => exact answersIn_next.2 (h.writeCtrl v)
  | cmd => exact writeCmd_answersIn_inv h v
  | nad | irqPend | irqEn | pinCtrl | usbCfg | usbSeq => exact answersIn_next.2 (h.congr rfl)
  | ifs =>
    exact answersIn_next.2 (h.configChange rfl
      ⟨hp, legalOr_legal hifsc _, legalOr_legal hifsd _, hibt, hn, hetu, hclk⟩)
  | tmoIbt =>
    exact answersIn_next.2 (h.configChange rfl ⟨hp, hifsc, hifsd, legalOr_ne_zero hibt _, hn, hetu, hclk⟩)
  | presCfg =>
    exact answersIn_next.2 (h.configChange rfl ⟨hp, hifsc, hifsd, hibt, legalOr_ne_zero hn _, hetu, hclk⟩)
  | uartCfg =>
    exact answersIn_next.2 (h.configChange rfl
      ⟨hp, hifsc, hifsd, hibt, hn, legalOr_ne_zero hetu _, legalOr_ne_zero hclk _⟩)
  | id | status | cmdResult | cmdStatus | edcAcc | fifoLevel | fifoCommit | encStatus | txStatus | rxInfo | rxErrCause
  | rxCount | tmrRem0 | tmrRem1 | tmrRem2 | lbsCount | ccidRsp0 | ccidRsp1 | ccidRsp2 | usbErrCause =>
    exact answersIn_next.2 h

theorem agentStep_answersIn_inv (h : s.Inv) (a : AgentStep) : AnswersIn State.Inv (agentStep a s) := by
  cases a with
  | busRead addr size => exact busRead_answersIn (fun _ => h.congr rfl) addr size
  | busWrite addr size v => exact busWrite_answersIn h fun r _ _ => Reg.write_answersIn_inv h r v
  | lineRx d8 p => exact answersIn_next.2 (h.deliver _ _ .uart)
  | lineTake ok =>
    refine lineTake_answersIn fun hb hl => ?_
    cases ok with
    | true => exact h.lineTaken hb hl
    | false => exact h.lineRefused hb hl
  | usbAccept ok => exact usbAccept_answersIn fun m hm => h.acceptMessage hm ok
  | usbIn m => exact answersIn_next.2 (h.bulkIn m)
  | usbInt m => exact answersIn_next.2 (h.usbInt m)
  | pin level => exact answersIn_next.2 (h.congr rfl)
  | hardwareReset => exact answersIn_next.2 (hardwareReset_inv h.fifo)

end Sys2Proof.Machine

open Sys2Proof Sys2Proof.Machine

/-- Settles O9: the invariant holds part by part across every command, register write and environment step. -/
theorem stepKeepsInv : Obligations.StepKeepsInv := by
  intro s t h e
  cases hp : s.pending with
  | nil =>
    rw [step_nil s hp] at e
    exact answersIn_next.2 (h.takeStep _) t e
  | cons a rest =>
    rw [step_cons s a rest hp] at e
    exact agentStep_answersIn_inv (h.takeStep rest) a t e

end

section
/-! PROOFS. Pending events (60_exceptions.md R301, 10_state.md R39): every operation keeps them,
but for the four that are named. -/

namespace Sys2Proof.Machine

variable {s t u : State}

/-- Every event pending in `s` is pending in `t`. -/
def KeepsPending (s t : State) : Prop := ∀ e, s.isPending e = true → t.isPending e = true

theorem KeepsPending.of_eq (h : t.irqPend = s.irqPend) : KeepsPending s t := fun e he => by
  rwa [State.isPending, h]

theorem KeepsPending.refl (s : State) : KeepsPending s s := .of_eq rfl

theorem KeepsPending.trans (h1 : KeepsPending s t) (h2 : KeepsPending t u) : KeepsPending s u :=
  fun e he => h2 e (h1 e he)

theorem KeepsPending.congr (h : KeepsPending s t) (e : u.irqPend = t.irqPend) : KeepsPending s u := h.trans (.of_eq e)

theorem KeepsPending.raise (h : KeepsPending s t) (e : Event) : KeepsPending s (t.raise e) := fun e' he => by
  have := h e' he
  simp only [State.isPending, State.raise_irqPend, BitVec.getLsbD_or, Bool.or_eq_true] at this ⊢
  exact .inl this

theorem KeepsPending.ite {c : Prop} [Decidable c] (h1 : KeepsPending s t) (h2 : KeepsPending s u) :
    KeepsPending s (if c then t else u) := by
  split
  · exact h1
  · exact h2

theorem KeepsPending.failedWith (s : State) (c : CmdCode) : KeepsPending s (s.failedWith c) :=
  (KeepsPending.of_eq (t := { s with cmdStatus := c, cmdResult := 0 }) rfl).raise .cmdErr

/-! ### The transmit side -/

theorem KeepsPending.pushAll (s : State) (bs : List Byte) : KeepsPending s (s.pushAll bs) :=
  .of_eq (by rw [(s.pushAll_frame bs).1])

theorem KeepsPending.pushFeed (h : KeepsPending s t) (b : Byte) : KeepsPending s (pushFeed t b) := h.congr rfl

theorem KeepsPending.closeBlock (h : KeepsPending s t) : KeepsPending s (closeBlock t) :=
  h.congr (by rw [closeBlock_eq])

theorem KeepsPending.openBlock (s : State) (pcb len : Byte) : KeepsPending s (openBlock pcb len s) := by
  let u : State := { s.startEdc with
    fifo := { s.fifo with blkStart := s.fifo.head }, enc := { s.enc with len := len } }
  have hu : KeepsPending s u := .of_eq rfl
  have hheader := ((hu.pushFeed s.nad.tx).pushFeed pcb).pushFeed len
  exact .ite hheader.closeBlock (hheader.congr rfl)

theorem KeepsPending.encodeData (s : State) (b : Byte) : KeepsPending s (encodeData b s) := by
  by_cases hlast : s.enc.remain - 1 = 0
  · exact .of_eq (by rw [encodeData_last s b hlast])
  · exact .of_eq (by rw [encodeData_more s b hlast])

theorem KeepsPending.usbSend (kind : BulkOutKind) (n : Half) (s : State) : KeepsPending s (usbSend kind n s) :=
  .of_eq (by rw [usbSend_eq])

theorem KeepsPending.startSend (n : Half) (s : State) : KeepsPending s (startSend n s) :=
  .ite (.of_eq rfl) (.usbSend _ _ _)

theorem KeepsPending.withdrawMessage (s : State) : KeepsPending s (withdrawMessage s) := .ite (.of_eq rfl) (.refl s)

theorem KeepsPending.lineTaken (s : State) : KeepsPending s (lineTaken s) := by
  rw [lineTaken_eq]
  dsimp only
  split
  · exact .raise (.of_eq rfl) .txDone
  · exact .of_eq rfl

/-! ### The timers and the receive path -/

theorem KeepsPending.startTimer (s : State) (c : Channel) (v : Half) : KeepsPending s (s.startTimer c v) :=
  .ite (.of_eq rfl) (.of_eq rfl)

theorem KeepsPending.restartIbt (h : KeepsPending s t) : KeepsPending s t.restartIbt :=
  h.trans (.startTimer t .ibt t.tmoIbt)

theorem KeepsPending.startTid (tid : BitVec 2) (ms : Half) (s : State) : KeepsPending s (startTid tid ms s) := by
  unfold Machine.startTid
  cases channelOf tid with
  | none => exact .refl s
  | some c => exact .startTimer s c ms

theorem KeepsPending.stopTid (tid : BitVec 2) (s : State) : KeepsPending s (stopTid tid s) := by
  unfold Machine.stopTid
  cases channelOf tid with
  | none => exact .refl s
  | some c => exact .of_eq rfl

theorem KeepsPending.abortFrame (h : KeepsPending s t) (c : RxErrCause) : KeepsPending s (abortFrame c t) :=
  .restartIbt (.congr (.raise (h.congr (u := { t with rxErrCause := c }) rfl) .rxErr) rfl)

theorem KeepsPending.completeFrame (h : KeepsPending s t) : KeepsPending s (completeFrame t) :=
  .raise (h.congr rfl) .rxDone

theorem KeepsPending.rawCapture (b : Byte) (perr : Bool) (s : State) : KeepsPending s (rawCapture b perr s) :=
  .restartIbt (.ite (.ite (.of_eq rfl) (.of_eq rfl)) ((KeepsPending.refl s).raise .rxOvf))

theorem KeepsPending.parseAddr (b : Byte) (perr : Bool) (s : State) : KeepsPending s (parseAddr b perr s) := by
  unfold Machine.parseAddr
  apply KeepsPending.restartIbt
  split <;> exact .of_eq rfl

theorem KeepsPending.parsePcb (b : Byte) (perr : Bool) (s : State) : KeepsPending s (parsePcb b perr s) :=
  .restartIbt (.of_eq (by simp))

theorem KeepsPending.parseLen (b : Byte) (perr : Bool) (s : State) : KeepsPending s (parseLen b perr s) := by
  unfold Machine.parseLen
  dsimp only
  split
  · exact .abortFrame (.of_eq (by simp)) _
  · split
    · exact .abortFrame (.of_eq (by simp)) _
    · exact .restartIbt (.of_eq (by simp))

theorem KeepsPending.parseInf (b : Byte) (perr : Bool) (s : State) : KeepsPending s (parseInf b perr s) := by
  unfold Machine.parseInf
  apply KeepsPending.restartIbt
  split <;> exact .of_eq (by simp)

theorem KeepsPending.parseEdc (b : Byte) (perr : Bool) (s : State) : KeepsPending s (parseEdc b perr s) := by
  unfold Machine.parseEdc
  dsimp only
  split
  · exact .completeFrame (.of_eq (by simp))
  · exact .restartIbt (.of_eq (by simp))

theorem KeepsPending.parse (b : Byte) (perr : Bool) (s : State) : KeepsPending s (parse b perr s) := by
  unfold Machine.parse
  split
  · exact .parseAddr b perr s
  · exact .restartIbt (.refl s)
  · exact .parsePcb b perr s
  · exact .parseLen b perr s
  · exact .parseInf b perr s
  · exact .parseEdc b perr s
  · exact (KeepsPending.refl s).raise .rxOvf
  · exact .refl s

theorem KeepsPending.deliver (b : Byte) (perr : Bool) (src : Source) (s : State) :
    KeepsPending s (deliver b perr src s) := by
  rcases deliver_cases b perr src s with e | ⟨-, -, -, e⟩ | ⟨-, e⟩ <;> rw [e]
  · exact .refl s
  · exact .of_eq rfl
  · unfold receiveByte
    cases s.ctrl.rxMode with
    | raw => exact .rawCapture b perr s
    | t1 => exact .parse b perr s

theorem KeepsPending.deliverAll (bs : List Byte) (s : State) : KeepsPending s (deliverAll bs s) := by
  induction bs generalizing s with
  | nil => exact .refl s
  | cons b rest ih => exact (KeepsPending.deliver b false .usb s).trans (ih _)

theorem KeepsPending.restartRx (s : State) : KeepsPending s (restartRx s) := .of_eq (by rw [restartRx_eq])

theorem KeepsPending.onIbtExpiry (h : KeepsPending s t) : KeepsPending s (onIbtExpiry t) := by
  unfold Machine.onIbtExpiry
  cases t.rx.state with
  | raw => exact .ite (h.raise .rawIdle) h
  | skip => exact h.congr rfl
  | pcb | len | inf | edc => exact .congr (.raise (h.congr (u := { t with rxErrCause := _ }) rfl) .rxErr) rfl
  | addr | done => exact h

/-! ### Presence, TICK and the USB port -/

theorem KeepsPending.removal (h : KeepsPending s t) : KeepsPending s (removal t) := by
  have hdrop (u : State) : KeepsPending u (dropFrameInProgress u) := by
    unfold dropFrameInProgress
    repeat' split
    all_goals exact .of_eq rfl
  have habandon (u : State) : KeepsPending u (abandonUartSend u) := .ite (.of_eq rfl) (.refl u)
  have hraised := h.raise .cardOut
  refine .ite (.congr (.trans ?_ (hdrop _)) rfl) hraised
  exact .congr ((hraised.congr (u := { t.raise .cardOut with pinCtrl := ⟨false, false, false⟩ }) rfl).trans
    (habandon _)) rfl

theorem KeepsPending.presenceSample (s : State) : KeepsPending s (presenceSample s) := by
  unfold Machine.presenceSample
  dsimp only
  split
  · exact .of_eq rfl
  · split
    · split
      · exact .raise (.of_eq rfl) .cardIn
      · exact .removal (.of_eq rfl)
    · exact .of_eq rfl

theorem KeepsPending.expireIf (h : KeepsPending s t) (expired : Bool) (c : Channel) :
    KeepsPending s (expireIf expired c t) := by
  refine .ite ?_ h
  cases c with
  | ibt => exact (h.raise _).onIbtExpiry
  | atr | rsp => exact h.raise _

theorem KeepsPending.tick (e : Half) (s : State) : KeepsPending s (tick e s) := by
  have hsample : KeepsPending s (sampleIfUart s) := .ite (.presenceSample s) (.refl s)
  have hcount (m : Timers) : KeepsPending s { sampleIfUart s with tmr := m } := hsample.congr rfl
  exact .ite (.of_eq rfl) (.congr ((((hcount _).expireIf _ .ibt).expireIf _ .atr).expireIf _ .rsp) rfl)

theorem KeepsPending.bulkIn (m : List Byte) (s : State) : KeepsPending s (bulkIn m s) := by
  have herror {u : State} (h : KeepsPending s u) (c : UsbErrCause) : KeepsPending s (usbError c u) :=
    .raise (h.congr (u := { u with usbErrCause := c }) rfl) .usbErr
  have hrsp : KeepsPending s { s with ccidRsp := headerOf m } := .of_eq rfl
  refine .ite (.refl s) (.ite (herror (.refl s) _) ?_)
  dsimp only
  split
  · exact herror hrsp _
  · exact .raise (.ite (hrsp.trans (.deliverAll _ _)) hrsp) .usbResp

theorem KeepsPending.usbInt (m : List Byte) (s : State) : KeepsPending s (usbInt m s) :=
  .ite (.refl s) (.ite (.ite (.raise (.of_eq rfl) _) (.refl s)) (.refl s))

/-! ### Commands, writes and steps -/

/-- R301: no command but SOFT_RESET clears a pending event. -/
theorem exec_answersIn_pending (s : State) {i : Instr} (hi : i ≠ .softReset) :
    AnswersIn (KeepsPending s) (exec i s) := by
  have hfail := KeepsPending.failedWith s
  have hdone {checks : List (Bool × CmdCode)} {effect : State} (h : KeepsPending s effect) :
      AnswersIn (KeepsPending s) (commandEnabled s checks effect) :=
    commandEnabled_answersIn hfail fun _ _ => h.congr rfl
  cases i with
  | softReset => exact absurd rfl hi
  | nop =>
    exact command_answersIn (checks := []) (effect := s.setResult 0) hfail fun _ => .of_eq rfl
  | cfgDefaults =>
    exact command_answersIn (checks := []) (effect := (cfgDefaults s).setResult 0) hfail fun _ => .of_eq rfl
  | fifoPush | fifoPop | fifoPeek | fifoRemove | fifoFlush | edcInit | edcFeed | encAbort | rxRelease =>
    exact hdone (.of_eq rfl)
  | edcEmit => exact hdone (.congr (.pushAll s _) rfl)
  | encI | encR | encS => exact hdone (.openBlock s _ _)
  | encData b => exact hdone (.encodeData s b)
  | rxRestart => exact hdone (.congr (.restartRx s) rfl)
  | rxPush b => exact hdone (.congr (.deliver b false .sw s) rfl)
  | tmrStart tid ms => exact hdone (.congr (.startTid tid ms s) rfl)
  | tmrStop tid => exact hdone (.congr (.stopTid tid s) rfl)
  | tick ms => exact hdone (.tick ms s)
  | txSend n => exact hdone (.congr (.startSend n s) rfl)
  | txStop => exact hdone (.congr (.withdrawMessage s) rfl)
  | ccidPowerOn psel => exact hdone (.congr (.usbSend (.powerOn psel) 0 s) rfl)
  | ccidPowerOff => exact hdone (.congr (.usbSend .powerOff 0 s) rfl)
  | ccidGetParams => exact hdone (.congr (.usbSend .getParams 0 s) rfl)
  | ccidSetParams proto n => exact hdone (.congr (.usbSend (.setParams proto) n s) rfl)

/-- A write of CMD clears a pending event only with the word of SOFT_RESET. -/
theorem writeCmd_answersIn_pending (s : State) {v : Word} (hv : v ≠ encode .softReset) :
    AnswersIn (KeepsPending s) (writeCmd v s) := by
  unfold writeCmd
  split
  · next i hi => exact exec_answersIn_pending s fun hs => hv (encode_of_decode_softReset (hs ▸ hi))
  · exact answersIn_next.2 (.failedWith s _)
  · split <;> exact answersIn_next.2 (.failedWith s _)

/-- A write of CTRL clears a pending event only when it clears EN. -/
theorem KeepsPending.writeCtrl {v : Word} (h : ¬s.disables v) : KeepsPending s (writeCtrl v s) := by
  rw [writeCtrl_eq]
  dsimp only
  rw [if_neg h]
  exact .ite (.trans (t := { s with ctrl := s.ctrlWritten v }) (.of_eq rfl) (.restartRx _)) (.of_eq rfl)

/-- Of the writes of a register, only those of IRQ_PEND, CMD and CTRL can clear a pending event. -/
theorem Reg.write_answersIn_pending (s : State) (v : Word) {r : Reg} (hp : r ≠ .irqPend)
    (hcmd : r = .cmd → v ≠ encode .softReset) (hctrl : r = .ctrl → ¬s.disables v) :
    AnswersIn (KeepsPending s) (r.write v s) := by
  cases r with
  | irqPend => exact absurd rfl hp
  | cmd => exact writeCmd_answersIn_pending s (hcmd rfl)
  | ctrl => exact answersIn_next.2 (.writeCtrl (hctrl rfl))
  | id | nad | ifs | tmoIbt | status | irqEn | cmdResult | cmdStatus | edcAcc | fifoLevel | fifoCommit | encStatus
  | txStatus | rxInfo | rxErrCause | rxCount | tmrRem0 | tmrRem1 | tmrRem2 | presCfg | pinCtrl | uartCfg | lbsCount
  | usbCfg | usbSeq | ccidRsp0 | ccidRsp1 | ccidRsp2 | usbErrCause => exact answersIn_next.2 (.of_eq rfl)

/-- R39: a write of IRQ_PEND clears the bits written 1 and keeps the others. -/
theorem isPending_write_irqPend (h : Reg.irqPend.write v s = .next t) (e : Event) :
    t.isPending e = (s.isPending e && !v.getLsbD e.bit) := by
  obtain rfl : { s with irqPend := s.irqPend &&& ~~~(v.extractLsb' 0 14) } = t := Host.Outcome.next.inj h
  have hbit : e.bit < 14 := by cases e <;> decide
  simp [State.isPending, hbit]

end Sys2Proof.Machine

open Sys2Proof Sys2Proof.Machine

/-- Settles O10: of the steps, only the four named ones reach an operation that clears a bit of IRQ_PEND. -/
theorem eventsStayPending : Obligations.EventsStayPending := by
  intro a s t e hstep hset hclear
  have hlost : ¬KeepsPending s t := fun h => by simp [h e hset] at hclear
  have hkeeps (h : AnswersIn (KeepsPending s) (agentStep a s)) : False := hlost (h t hstep)
  cases a with
  | hardwareReset => exact .inl rfl
  | busRead addr size => exact (hkeeps (busRead_answersIn (fun _ => .of_eq rfl) addr size)).elim
  | lineRx d8 p => exact (hkeeps (answersIn_next.2 (.deliver _ _ .uart s))).elim
  | lineTake ok => exact (hkeeps (lineTake_answersIn fun _ _ => .ite (.lineTaken s) (.raise (.of_eq rfl) .txFail))).elim
  | usbAccept ok => exact (hkeeps (usbAccept_answersIn fun _ _ => .raise (.of_eq rfl) _)).elim
  | usbIn m => exact (hkeeps (answersIn_next.2 (.bulkIn m s))).elim
  | usbInt m => exact (hkeeps (answersIn_next.2 (.usbInt m s))).elim
  | pin level => exact (hkeeps (answersIn_next.2 (.of_eq rfl))).elim
  | busWrite addr size v =>
    rcases busWrite_next hstep with rfl | ⟨r, rfl, rfl, hwrite⟩
    · exact (hlost (.refl _)).elim
    · by_cases hp : r = .irqPend
      · subst hp
        rw [isPending_write_irqPend hwrite, hset, Bool.true_and, Bool.not_eq_false'] at hclear
        exact .inr (.inl ⟨v, rfl, hclear⟩)
      · by_cases hcmd : r = .cmd ∧ v = encode .softReset
        · obtain ⟨rfl, rfl⟩ := hcmd
          exact .inr (.inr (.inl rfl))
        · by_cases hctrl : r = .ctrl ∧ s.disables v
          · obtain ⟨rfl, hen, hv⟩ := hctrl
            exact .inr (.inr (.inr ⟨v, rfl, hen, hv⟩))
          · have hkept := Reg.write_answersIn_pending s v hp (fun hr hv => hcmd ⟨hr, hv⟩) fun hr hd => hctrl ⟨hr, hd⟩
            exact (hlost (hkept t hwrite)).elim

end

section
/-! PROOFS. Writes and reads of registers (10_state.md R21 to R51). -/

namespace Sys2Proof.Machine

/-! ### Reads -/

@[simp] theorem EdcKind.toBit_eq_true (k : EdcKind) : k.toBit = true ↔ k = .crc := by cases k <;> simp [EdcKind.toBit]

@[simp] theorem RxMode.toBit_eq_true (m : RxMode) : m.toBit = true ↔ m = .t1 := by cases m <;> simp [RxMode.toBit]

@[simp] theorem Convention.toBit_eq_true (c : Convention) : c.toBit = true ↔ c = .inverse := by
  cases c <;> simp [Convention.toBit]

@[simp] theorem Event.bit_lt (e : Event) : e.bit < 14 := by cases e <;> decide

/-- The two halves of a word. -/
theorem extract_halves (hi lo : Half) :
    (hi ++ lo).extractLsb' 0 16 = lo ∧ (hi ++ lo).extractLsb' 16 16 = hi :=
  ⟨(BitVec.extractLsb'_append_eq_of_add_le (by decide)).trans BitVec.extractLsb'_eq_self,
    (BitVec.extractLsb'_append_eq_of_le (by decide)).trans BitVec.extractLsb'_eq_self⟩

/-- R130: FIFO_LEVEL and FIFO_COMMIT count the live, the free and the committed bytes, none of which overflows
its 16 bits. -/
theorem fifoLevel_counts {s : State} (h : s.FifoOk) :
    ((Reg.fifoLevel.read s).extractLsb' 0 16).toNat = s.live.length ∧
    ((Reg.fifoLevel.read s).extractLsb' 16 16).toNat = s.depth - 1 - s.live.length ∧
    ((Reg.fifoCommit.read s).extractLsb' 0 16).toNat = s.committed := by
  have hd := h.depth_pos
  have hsum := s.used_add_free h
  have hcommitted := State.committed_lt h
  have hused : (Reg.fifoLevel.read s).extractLsb' 0 16 = BitVec.ofNat 16 s.used := (extract_halves _ _).1
  have hfree : (Reg.fifoLevel.read s).extractLsb' 16 16 = BitVec.ofNat 16 s.free := (extract_halves _ _).2
  have hcommit : (Reg.fifoCommit.read s).extractLsb' 0 16 = BitVec.ofNat 16 s.committed := (extract_halves _ _).1
  have hfield {n : Nat} (hn : n < 65536) : (BitVec.ofNat 16 n).toNat = n := by
    rw [BitVec.toNat_ofNat, Nat.mod_eq_of_lt hn]
  rw [hused, hfree, hcommit, hfield (by omega), hfield (by omega), hfield (by omega), State.live_length]
  exact ⟨rfl, rfl, rfl⟩

end Sys2Proof.Machine

open Sys2Proof Sys2Proof.Machine

/-- Settles O18: each register's write is its field update, with the range checks said by `legalOr_ifsLegal` and
`legalOr_nonZero`. -/
theorem configurationWrites : Obligations.ConfigurationWrites := by
  intro s v
  refine ⟨⟨_, busWrite_reg s .nad v, rfl, rfl, rfl⟩, ⟨_, busWrite_reg s .ifs v, rfl, ?_, ?_⟩,
    ⟨_, busWrite_reg s .tmoIbt v, rfl, ?_⟩, ⟨_, busWrite_reg s .irqEn v, rfl, rfl⟩,
    ⟨_, busWrite_reg s .presCfg v, rfl, ?_, rfl⟩, ⟨_, busWrite_reg s .pinCtrl v, rfl, rfl, rfl, rfl⟩,
    ⟨_, busWrite_reg s .uartCfg v, rfl, ?_, ?_⟩, ⟨_, busWrite_reg s .usbCfg v, rfl, rfl, rfl⟩,
    ⟨_, busWrite_reg s .usbSeq v, rfl⟩⟩
  · exact legalOr_ifsLegal _ _
  · exact legalOr_ifsLegal _ _
  · exact legalOr_nonZero _ _
  · exact legalOr_nonZero _ _
  · exact legalOr_nonZero _ _
  · exact legalOr_nonZero _ _

/-- Settles O19: the fields by `writeCtrl_ctrl`, the side effects by `writeCtrl_eq`. -/
theorem ctrlWrite : Obligations.CtrlWrite := by
  intro s v
  have hctrl := writeCtrl_ctrl s v
  have e := writeCtrl_eq s v
  refine ⟨writeCtrl v s, busWrite_reg s .ctrl v, ?_⟩
  rw [← hctrl] at e
  generalize writeCtrl v s = t at *
  have hport : t.ctrl.port = s.portWritten v := by rw [hctrl]; rfl
  obtain ⟨hkeep, htake⟩ := Port.ofCode_code (v.extractLsb' 2 2) s.ctrl.port
  refine ⟨by rw [hctrl]; rfl, by rw [hctrl]; rfl, by rw [hctrl]; rfl, by rw [hctrl]; rfl, by rw [hctrl]; rfl,
    fun hd => e.trans (if_pos hd), fun hd hm => e.trans ((if_neg hd).trans (if_pos hm.symm)),
    fun hd hm => e.trans ((if_neg hd).trans (if_neg (not_not.2 hm.symm))), fun h => ?_, fun h h3 => ?_⟩
  · rw [hport, State.portWritten]
    split
    · rfl
    · next hfree => exact hkeep (h.resolve_left hfree)
  · rw [hport, State.portWritten, if_neg]
    · exact htake h3
    · rintro ⟨hb, hd⟩
      exact h.elim (fun hb' => by simp [hb'] at hb) hd

/-- Settles O17: offsets and codes are finite tables, a read at a register's offset is `busRead_reg`, and a field of a
register's word is reached by skipping the fields concatenated below it and cutting off those above. -/
theorem registerReads : Obligations.RegisterReads := by
  refine ⟨by decide, by decide, by decide, by decide, by decide, by decide, by decide, by decide, fun s =>
    ⟨busRead_reg s, rfl, rfl, ?ctrl, ?nad, ?ifs, ?tmoIbt, ?status, ?irqPend, ?irqEn, ?cmdResult, ?cmdStatus, ?edcAcc,
      fifoLevel_counts, ?fifoCommitReserved, ?encStatus, ?txStatus, ?rxInfo, ?rxErrCause, ?rxCount, ?tmrRem, ?presCfg,
      ?pinCtrl, ?uartCfg, ?lbsCount, ?usbCfg, ?usbSeq, rfl, rfl, ?ccidRsp2, ?usbErrCause⟩⟩
  case tmrRem =>
    simp [-Nat.reduceAdd, Reg.read, Timers.get, BitVec.extractLsb'_append_eq_of_le,
      BitVec.extractLsb'_append_eq_of_add_le]
  case irqPend =>
    refine ⟨fun e => ?_, by simp [-Nat.reduceAdd, Reg.read, BitVec.extractLsb'_append_eq_of_le]⟩
    simp [-Nat.reduceAdd, Reg.read, State.isPending, BitVec.getLsbD_append]
  all_goals
    simp [-Nat.reduceAdd, -BitVec.getLsbD_eq_getElem, Reg.read, Ctrl.word, State.statusWord, RxInfo.word, bit,
      BitVec.getLsbD_append, BitVec.extractLsb'_append_eq_of_le, BitVec.extractLsb'_append_eq_of_add_le]

end

section
/-! PROOFS. HOST's bus accesses (20_memory.md R80 to R90): what the RXBUF window hands out, that a read has no side effect,
which accesses get a bus error, and the write of CMD as a step. -/

namespace Sys2Proof.Machine

/-! ### What an access addresses -/

/-- R84: a naturally aligned access of 1, 2 or 4 bytes of the window addresses the byte at its offset. -/
theorem accessTarget_window {k n : Nat} (hk : k < 512) (hn : n = 1 ∨ n = 2 ∨ n = 4) (halign : k % n = 0) :
    accessTarget (0x200 + k) n = some (.rxbuf k) := by
  have hbase : (0x200 + k) % n = 0 := by rcases hn with rfl | rfl | rfl <;> omega
  unfold accessTarget
  rw [if_neg (by omega), if_pos (by omega), if_pos ⟨hn, hbase⟩, Nat.add_sub_cancel_left]

/-- R85: what has no target is an unmapped offset, a register access of another width, a misaligned access, or one of 8
bytes or more. -/
theorem accessTarget_none {off size : Nat} (h : (0x080 ≤ off ∧ off < 0x200) ∨ 0x400 ≤ off ∨ (off < 0x080 ∧ size ≠ 4) ∨
    off % size ≠ 0 ∨ 8 ≤ size) : accessTarget off size = none := by
  unfold accessTarget
  split
  · next hreg =>
    refine if_neg ?_
    rintro ⟨rfl, halign⟩
    omega
  · split
    · next hreg hwindow =>
      refine if_neg ?_
      rintro ⟨hsize, halign⟩
      omega
    · rfl

variable {s : State} {off size : Nat}

/-- R85: inside T1C's window an access without a target is the bus error, whether it reads or writes. -/
theorem bus_fault (hoff : off < 4096) (h : accessTarget off size = none) (v : Word) :
    busRead (s.params.base + off) size s = .fault .busError ∧
    busWrite (s.params.base + off) size v s = .fault .busError := by
  simp [busRead, busWrite, s.offsetOf_base off hoff, h]

/-- R84: inside T1C's window an access of received bytes hands them out, or is ignored when it writes. -/
theorem bus_rxbuf {k : Nat} (hoff : off < 4096) (h : accessTarget off size = some (.rxbuf k)) :
    busRead (s.params.base + off) size s = .next { s with output := some (.busData size (s.rxWord k size)) } ∧
    ∀ v, busWrite (s.params.base + off) size v s = .next s := by
  simp [busRead, busWrite, s.offsetOf_base off hoff, h]

/-! ### The word of the RXBUF window -/

/-- R84: bit `i` of the word is bit `i % 8` of byte `i / 8`, and the bits above the `n` bytes are 0. -/
theorem State.rxWord_getLsbD (s : State) (k i : Nat) {n : Nat} (hn : n ≤ 4) :
    (s.rxWord k n).getLsbD i = (decide (i < 8 * n) && (s.rxByte (k + i / 8)).getLsbD (i % 8)) := by
  induction n with
  | zero => simp [State.rxWord]
  | succ n ih =>
    rw [State.rxWord, BitVec.getLsbD_or, ih (by omega), BitVec.getLsbD_shiftLeft, BitVec.getLsbD_setWidth]
    rcases Nat.lt_or_ge i (8 * n) with hlow | hge
    · have : i < 8 * (n + 1) := by omega
      simp [hlow, this]
    · rcases Nat.lt_or_ge i (8 * (n + 1)) with hin | hhigh
      · have hbyte : i / 8 = n := by omega
        have hbit : i % 8 = i - 8 * n := by omega
        have hword : i < 32 := by omega
        have hshift : i - 8 * n < 32 := by omega
        simp [hin, hbyte, hbit, hword, hshift, Nat.not_lt.2 hge]
      · have hbeyond : (s.rxByte (k + n)).getLsbD (i - 8 * n) = false := BitVec.getLsbD_of_ge _ _ (by omega)
        simp [Nat.not_lt.2 hge, Nat.not_lt.2 hhigh, hbeyond]

/-- R84: byte `j` of the word is the received byte at `k + j`. -/
theorem State.rxWord_byte (s : State) (k : Nat) {j n : Nat} (hn : n ≤ 4) (hj : j < n) :
    (s.rxWord k n).extractLsb' (8 * j) 8 = s.rxByte (k + j) := by
  apply BitVec.eq_of_getLsbD_eq
  intro i hi
  have hbyte : (8 * j + i) / 8 = j := by omega
  have hbit : (8 * j + i) % 8 = i := by omega
  have hin : 8 * j + i < 8 * n := by omega
  simp [s.rxWord_getLsbD k _ hn, hi, hbyte, hbit, hin]

/-- R84: the bits above the bytes read are 0. -/
theorem State.rxWord_lt (s : State) (k : Nat) {n : Nat} (hn : n ≤ 4) : (s.rxWord k n).toNat < 2 ^ (8 * n) := by
  refine Nat.lt_pow_two_of_testBit _ fun i hi => ?_
  rw [BitVec.testBit_toNat, s.rxWord_getLsbD k i hn, decide_eq_false (Nat.not_lt.2 hi), Bool.false_and]

/-! ### Reads and the output

No read looks at the data handed out by the step before. -/

theorem Reg.read_withOutput (r : Reg) (s : State) (o : Option Output) : r.read { s with output := o } = r.read s := by
  cases r <;> rfl

theorem State.rxWord_withOutput (s : State) (o : Option Output) (k n : Nat) :
    ({ s with output := o } : State).rxWord k n = s.rxWord k n := by
  induction n with
  | zero => rfl
  | succ n ih => rw [State.rxWord, State.rxWord, ih]; rfl

/-- R86: a read hands out the same data whatever the step before handed out. -/
theorem busRead_withOutput (s : State) (o : Option Output) (addr size : Nat) :
    busRead addr size { s with output := o } = busRead addr size s := by
  have hoff : ({ s with output := o } : State).offsetOf addr = s.offsetOf addr := rfl
  unfold busRead
  simp only [hoff, Reg.read_withOutput, State.rxWord_withOutput]

/-! ### Writes of read-only registers -/

/-- R22, R86: a write of a register without a writable field is ignored. -/
theorem Reg.write_readOnly {r : Reg} (h : r ∈ [Reg.id, .status, .cmdResult, .cmdStatus, .edcAcc, .fifoLevel, .fifoCommit,
    .encStatus, .txStatus, .rxInfo, .rxErrCause, .rxCount, .tmrRem0, .tmrRem1, .tmrRem2, .lbsCount, .ccidRsp0, .ccidRsp1,
    .ccidRsp2, .usbErrCause]) (v : Word) (s : State) : r.write v s = .next s := by
  cases r with
  | ctrl | nad | ifs | tmoIbt | irqPend | irqEn | cmd | presCfg | pinCtrl | uartCfg | usbCfg | usbSeq => simp at h
  | id | status | cmdResult | cmdStatus | edcAcc | fifoLevel | fifoCommit | encStatus | txStatus | rxInfo | rxErrCause
  | rxCount | tmrRem0 | tmrRem1 | tmrRem2 | lbsCount | ccidRsp0 | ccidRsp1 | ccidRsp2 | usbErrCause => rfl

/-! ### The write of CMD as a step -/

/-- R89, R100: when HOST's next access writes the word of a command to CMD, the step runs that command. -/
theorem step_writeCmd {rest : List AgentStep} {w : Word} {i : Instr}
    (hnext : s.pending = .busWrite (s.params.base + 0x020) 4 w :: rest) (hdecode : decode w = .ok i) :
    step s = exec i (s.takeStep rest) := by
  rw [step_cons s _ _ hnext]
  exact (busWrite_cmd (s.takeStep rest) w).trans (writeCmd_decoded _ w i hdecode)

/-- The lanes of a table row's word are put back together before it is decoded. -/
theorem decode_of_decodeTableWord {nbits w : Nat} {i : Instr} (h : decodeTableWord nbits w = some i) :
    decode (tableWord nbits w) = .ok i := by
  rw [decodeTableWord, wordOfLanes_byteLanes] at h
  cases hd : decode (tableWord nbits w) with
  | ok j => simpa [hd, Except.toOption] using h
  | error e => simp [hd, Except.toOption] at h

end Sys2Proof.Machine

open Sys2Proof Sys2Proof.Machine

/-- Settles O15: an aligned access inside the window addresses its bytes, and the word's bits are those of the bytes. -/
theorem rxbufWindow : Obligations.RxbufWindow := by
  intro s k n hk hn halign
  have hn4 : n ≤ 4 := by omega
  obtain ⟨hread, hwrite⟩ := bus_rxbuf (s := s) (off := 0x200 + k) (by omega) (accessTarget_window hk hn halign)
  rw [← Nat.add_assoc] at hread hwrite
  exact ⟨⟨s.rxWord k n, hread, fun _ hj => s.rxWord_byte k hn4 hj, s.rxWord_lt k hn4⟩, hwrite⟩

/-- Settles O16: a read answers with the output alone changed and does not look at it, and a register's write is what
`Reg.write` says of that register. -/
theorem accessSideEffects : Obligations.AccessSideEffects := by
  refine fun s => ⟨fun addr size t ht => ?_, fun r hr v => ?_, busWrite_reg s .cmd⟩
  · have hframe : t = { s with output := t.output } :=
      busRead_answersIn (P := fun t => t = { s with output := t.output }) (fun _ => rfl) addr size t ht
    refine ⟨hframe, ?_⟩
    calc busRead addr size t = busRead addr size { s with output := t.output } := congrArg _ hframe
      _ = busRead addr size s := busRead_withOutput s _ addr size
      _ = .next t := ht
  · rw [busWrite_reg, Reg.write_readOnly hr]

/-- Settles O5: the write is taken off the schedule and runs its command, and `withFetchWord` schedules that write. -/
theorem stepRunsDecodedCommand : Obligations.StepRunsDecodedCommand :=
  ⟨fun _ _ _ _ hnext hdecode => step_writeCmd hnext hdecode,
    fun s w _ h => step_writeCmd (s := s.withFetchWord 32 w) rfl (decode_of_decodeTableWord h)⟩

/-- Settles O14: none of these accesses has a target. -/
theorem busErrors : Obligations.BusErrors := fun _ _ _ v hoff h => bus_fault hoff (accessTarget_none h) v

end

section
/-! PROOFS. The command word (30_encoding.md R100 to R103): the decoder and the encoder are inverse to each other, the
reserved bits as a mask, and the checks of a write of CMD in their order. -/

namespace Sys2Proof

/-! ### Sub-fields of A and B -/

theorem bit1_getLsbD {n : Nat} (x : BitVec n) (k : Nat) : bit1 (x.getLsbD k) = x.extractLsb' k 1 :=
  BitVec.eq_of_getLsbD_eq fun i hi => by
    obtain rfl : i = 0 := by omega
    simp [bit1, -BitVec.getLsbD_eq_getElem]

theorem extract_append_extract {n k : Nat} (x : BitVec (n + k)) : x.extractLsb' k n ++ x.extractLsb' 0 k = x := by
  rw [BitVec.extractLsb'_append_extractLsb'_eq_extractLsb' (Nat.zero_add k).symm, BitVec.extractLsb'_eq_self]

/-- A field whose reserved high bits are 0 is its sub-field. -/
theorem zero_append_low {n k : Nat} {x : BitVec (n + k)} (h : x.extractLsb' k n = 0#n) :
    0#n ++ x.extractLsb' 0 k = x := by
  rw [← h, extract_append_extract]

/-- A field whose reserved high bits are 0 is its two sub-fields. -/
theorem zero_append_mid_low {n l k : Nat} {x : BitVec (n + l + k)} (h : x.extractLsb' (k + l) n = 0#n) :
    0#n ++ x.extractLsb' k l ++ x.extractLsb' 0 k = x := by
  rw [← h, BitVec.extractLsb'_append_extractLsb'_eq_extractLsb' rfl, extract_append_extract]

/-- A field has a 0 under the mask of its `n` high bits exactly when they are all 0. -/
theorem and_highMask {n k : Nat} {x m : BitVec (n + k)} (hm : m = BitVec.allOnes n ++ 0#k) :
    x &&& m = 0#(n + k) ↔ x.extractLsb' k n = 0#n := by
  have hand : x &&& m = x.extractLsb' k n ++ 0#k := by
    calc x &&& m = (x.extractLsb' k n ++ x.extractLsb' 0 k) &&& (BitVec.allOnes n ++ 0#k) := by
          rw [extract_append_extract, hm]
      _ = x.extractLsb' k n ++ 0#k := by rw [BitVec.and_append, BitVec.and_allOnes, BitVec.and_zero]
  rw [hand, ← BitVec.zero_append_zero, BitVec.append_left_inj]

/-! ### Masks of a command word -/

theorem cmdWord_and (op op' a a' : Byte) (b b' : Half) :
    cmdWord op a b &&& cmdWord op' a' b' = cmdWord (op &&& op') (a &&& a') (b &&& b') :=
  (BitVec.and_append (x₁ := b ++ a) (x₂ := b' ++ a')).trans (congrArg (· ++ (op &&& op')) BitVec.and_append)

theorem cmdWord_eq_zero {op a : Byte} {b : Half} : cmdWord op a b = 0 ↔ op = 0 ∧ a = 0 ∧ b = 0 := by
  constructor
  · intro h
    have hop := fieldOp_cmdWord op a b
    have ha := fieldA_cmdWord op a b
    have hb := fieldB_cmdWord op a b
    rw [h] at hop ha hb
    exact ⟨hop.symm, ha.symm, hb.symm⟩
  · rintro ⟨rfl, rfl, rfl⟩
    rfl

/-- A mask that leaves the opcode alone looks at A and at B. -/
theorem cmdWord_and_eq_zero {op a : Byte} {b : Half} {m : Word} (hm : fieldOp m = 0) :
    cmdWord op a b &&& m = 0 ↔ a &&& fieldA m = 0 ∧ b &&& fieldB m = 0 := by
  rw [← cmdWord_fields m, cmdWord_and, cmdWord_eq_zero, hm]
  simp

/-! ### The rows of the opcode map -/

/-- R102: what a row reads from A and B puts them back together. -/
theorem encode_of_decodeFields {op a : Byte} {b : Half} {i : Instr} (h : decodeFields op a b = .ok i) :
    encode i = cmdWord op a b := by
  unfold decodeFields at h
  split at h
  case h_29 => cases h -- the opcodes without a row
  all_goals
    obtain ⟨hz, rfl⟩ := Machine.whenZero_eq_ok.1 h
    simp only [Bool.and_eq_true, beq_iff_eq] at hz
    simp [-BitVec.getLsbD_eq_getElem, encode, hz, bit1_getLsbD, zero_append_low (n := 6) (k := 2),
      zero_append_low (n := 7) (k := 1), zero_append_low (n := 8) (k := 8),
      zero_append_mid_low (n := 6) (l := 1) (k := 1), zero_append_mid_low (n := 3) (l := 1) (k := 4),
      zero_append_mid_low (n := 2) (l := 1) (k := 5)]

theorem encode_of_decode {w : Word} {i : Instr} (h : decode w = .ok i) : encode i = w :=
  (encode_of_decodeFields h).trans (cmdWord_fields w)

/-- R102: an opcode has no row, or its row's command is decoded exactly when the bits under the row's mask are 0. -/
theorem decodeFields_cases (op a : Byte) (b : Half) :
    (Machine.reservedBits op = none ∧ decodeFields op a b = .error .unknownOpcode) ∨
    ∃ m i, Machine.reservedBits op = some m ∧
      decodeFields op a b = whenZero op (decide (cmdWord op a b &&& m = 0)) i := by
  unfold decodeFields
  split
  case h_29 => -- the opcodes without a row
    refine .inl ⟨?_, rfl⟩
    simp only [imp_false] at *
    simp [Machine.reservedBits, *]
  all_goals
    refine .inr ⟨_, _, rfl, congrArg (whenZero _ · _) ?_⟩
    rw [Bool.eq_iff_iff, decide_eq_true_iff, cmdWord_and_eq_zero rfl]
    simp [fieldA, fieldB, and_highMask (n := 8) (k := 0) (m := 0xFF#8) rfl,
      and_highMask (n := 7) (k := 1) (m := 0xFE#8) rfl, and_highMask (n := 6) (k := 2) (m := 0xFC#8) rfl,
      and_highMask (n := 3) (k := 5) (m := 0xE0#8) rfl, and_highMask (n := 2) (k := 6) (m := 0xC0#8) rfl,
      and_highMask (n := 16) (k := 0) (m := 0xFFFF#16) rfl, and_highMask (n := 8) (k := 8) (m := 0xFF00#16) rfl]

/-- R101 steps 1 and 3: what decoding a word answers. -/
theorem decode_cases (w : Word) :
    (Machine.reservedBits (fieldOp w) = none ∧ decode w = .error .unknownOpcode) ∨
    ∃ m i, Machine.reservedBits (fieldOp w) = some m ∧
      decode w = whenZero (fieldOp w) (decide (w &&& m = 0)) i := by
  have h := decodeFields_cases (fieldOp w) (fieldA w) (fieldB w)
  rwa [cmdWord_fields] at h

theorem fieldA_tid (w : Word) : (fieldA w).extractLsb' 0 2 = w.extractLsb' 8 2 := by
  apply BitVec.eq_of_getLsbD_eq
  intro i hi
  have : i < 8 := by omega
  simp [fieldA, hi, this]

theorem allowedWhileDisabled_eq_false (op : Byte) : allowedWhileDisabled op = false ↔ 3 ≤ op.toNat := by
  simp only [allowedWhileDisabled, Bool.or_eq_false_iff, beq_eq_false_iff_ne]
  bv_omega

end Sys2Proof

namespace Sys2Proof.Machine

variable {s : State} {w : Word} {i : Instr}

/-! ### The checks of a write of CMD -/

theorem commandEnabled_of_disabled (hen : s.ctrl.en = false) (checks : List (Bool × CmdCode)) (effect : State) :
    commandEnabled s checks effect = .next (s.failedWith .eDisabled) := by
  simp [commandEnabled, command, firstFailing, hen, State.fail_eq_failedWith]

theorem commandEnabled_of_first_fails (hen : s.ctrl.en = true) (c : CmdCode) (rest : List (Bool × CmdCode))
    (effect : State) : commandEnabled s ((true, c) :: rest) effect = .next (s.failedWith c) := by
  simp [commandEnabled, command, firstFailing, hen, State.fail_eq_failedWith]

/-- R101 step 2: a disabled block refuses every command but the three with the lowest opcodes. -/
theorem exec_of_disabled (hen : s.ctrl.en = false) (hop : 3 ≤ (fieldOp (encode i)).toNat) :
    exec i s = .next (s.failedWith .eDisabled) := by
  cases i with
  | nop | softReset | cfgDefaults => exact absurd hop (by decide)
  | fifoPush | fifoPop | fifoPeek | fifoRemove | fifoFlush | edcInit | edcFeed | edcEmit | encI | encR | encS | encData
  | encAbort | rxRestart | rxRelease | rxPush | tmrStart | tmrStop | tick | txSend | txStop | ccidPowerOn | ccidPowerOff
  | ccidGetParams | ccidSetParams => exact commandEnabled_of_disabled hen _ _

/-- R102, log 14: TID = 3 is out of range. -/
theorem exec_of_tid_outOfRange (hen : s.ctrl.en = true) (hdecode : decode w = .ok i)
    (hop : fieldOp w = 0x50 ∨ fieldOp w = 0x51) (htid : w.extractLsb' 8 2 = 3) :
    exec i s = .next (s.failedWith .eArg) := by
  have hrange : tidInRange ((fieldA w).extractLsb' 0 2) = false := by rw [fieldA_tid, htid]; rfl
  rcases hop with hop | hop <;> rw [decode, hop] at hdecode <;> obtain ⟨-, rfl⟩ := whenZero_eq_ok.1 hdecode
  · rw [exec, execTmrStart, hrange]
    exact commandEnabled_of_first_fails hen _ _ _
  · rw [exec, execTmrStop, hrange]
    exact commandEnabled_of_first_fails hen _ _ _

theorem writeCmd_of_unknownOpcode (h : decode w = .error .unknownOpcode) :
    writeCmd w s = .next (s.failedWith .eOpcode) := by
  rw [writeCmd, h, State.fail_eq_failedWith]

/-- R101: the reserved bits are checked after CTRL.EN. -/
theorem writeCmd_of_reservedBits {op : Byte} (h : decode w = .error (.reservedBits op)) :
    writeCmd w s = .next (s.failedWith (if s.ctrl.en = false ∧ 3 ≤ op.toNat then .eDisabled else .eArg)) := by
  simp only [writeCmd, h, allowedWhileDisabled_eq_false, State.fail_eq_failedWith]
  split <;> rfl

/-- R101 step 2 comes before step 3: a disabled block does not look at the reserved bits. -/
theorem writeCmd_of_disabled (hen : s.ctrl.en = false) (hop : 3 ≤ (fieldOp w).toNat)
    (hdecode : decode w = .error (.reservedBits (fieldOp w)) ∨ decode w = .ok i) :
    writeCmd w s = .next (s.failedWith .eDisabled) := by
  rcases hdecode with hreserved | hok
  · rw [writeCmd_of_reservedBits hreserved, if_pos ⟨hen, hop⟩]
  · rw [writeCmd_decoded s w i hok]
    exact exec_of_disabled hen (by rwa [encode_of_decode hok])

end Sys2Proof.Machine

open Sys2Proof Sys2Proof.Machine

/-- Settles O1: the decoder reads each operand from the place in A or B where the encoder puts it, and finds the zeros
the encoder fills the field with. -/
theorem decodeOfEncode : Obligations.DecodeOfEncode := by
  intro i
  cases i with
  | nop | softReset | cfgDefaults | fifoPop | fifoFlush | edcInit | edcEmit | encAbort | rxRestart | rxRelease | txStop
  | ccidPowerOff | ccidGetParams => rfl
  | fifoPush | fifoPeek | fifoRemove | edcFeed | encData | rxPush | tick | txSend => exact decode_cmdWord _ _ _
  | encI | encR | encS | tmrStart | tmrStop | ccidPowerOn | ccidSetParams =>
    refine (decode_cmdWord _ _ _).trans ?_
    simp [-Nat.reduceAdd, -BitVec.getLsbD_eq_getElem, decodeFields, whenZero, bit1, BitVec.getLsbD_append,
      BitVec.extractLsb'_append_eq_of_le, BitVec.extractLsb'_append_eq_of_add_le]

/-- Settles O2: each row puts back together what it read, and a word is its three fields. -/
theorem encodeOfDecode : Obligations.EncodeOfDecode := fun _ _ h => encode_of_decode h

/-- Settles O3: an opcode without a row is unknown; a row's command is decoded exactly when its masked bits are 0. -/
theorem commandWordChecks : Obligations.CommandWordChecks := by
  intro w s
  rcases decode_cases w with ⟨hnone, hdecode⟩ | ⟨m, i, hrow, hdecode⟩
  · exact ⟨fun _ => writeCmd_of_unknownOpcode hdecode, fun m hm => by simp [hnone] at hm⟩
  · refine ⟨fun hnone => by simp [hrow] at hnone, fun m' hm' => ?_⟩
    obtain rfl : m = m' := Option.some.inj (hrow.symm.trans hm')
    have hok (hz : w &&& m = 0) : decode w = .ok i := by simpa [whenZero, hz] using hdecode
    have hbad (hz : w &&& m ≠ 0) : decode w = .error (.reservedBits (fieldOp w)) := by
      rw [hdecode, decide_eq_false hz]
      rfl
    refine ⟨fun hen hop => writeCmd_of_disabled hen hop ((em _).symm.imp hbad hok), fun hpass =>
      ⟨fun hz => ?reserved, fun hz hop htid => ?tid, fun hz => ?command⟩⟩
    case reserved =>
      have hpassed : ¬(s.ctrl.en = false ∧ 3 ≤ (fieldOp w).toNat) := by
        rintro ⟨hen, hop⟩
        rcases hpass with h | h
        · simp [hen] at h
        · omega
      rw [writeCmd_of_reservedBits (hbad hz), if_neg hpassed]
    case tid =>
      have hen : s.ctrl.en = true := hpass.resolve_right (by rcases hop with h | h <;> simp [h])
      rw [writeCmd_decoded s w i (hok hz)]
      exact exec_of_tid_outOfRange hen (hok hz) hop htid
    case command => exact ⟨i, hok hz, encode_of_decode (hok hz), writeCmd_decoded s w i (hok hz)⟩

/-- Settles O4: the decoder run on each of the twelve words. -/
theorem specWordsDecode : Obligations.SpecWordsDecode := by
  unfold Obligations.SpecWordsDecode
  decide

end

section
/-! PROOFS. The block encoder run over an I-block (42_encoder.md R170 to R175): opening the block, then one INF byte
after another, the last of which closes it. -/

namespace Sys2Proof.Machine

variable {s : State} {n : Nat} {b : Byte}

/-- R170, R171: a block is open with `n` INF bytes to come, and the FIFO has the space for them and for the EDC. -/
structure State.Owes (s : State) (n : Nat) : Prop where
  fifo : s.FifoOk
  enabled : s.ctrl.en = true
  isOpen : s.enc.isOpen = true
  remain : s.enc.remain.toNat = n
  space : n + edcLen s.edc.latch ≤ s.free

theorem State.Owes.exec_encData (h : s.Owes n) (b : Byte) : exec (.encData b) s = .next (encodeData b s).pass :=
  commandEnabled_of_pass s _ _ h.enabled (by simp [h.isOpen])

theorem State.Owes.remain_pred (h : s.Owes (n + 1)) : (s.enc.remain - 1).toNat = n := by
  have hne : s.enc.remain ≠ 0 := fun h0 => by simpa [h0] using h.remain
  rw [toNat_pred hne, h.remain, Nat.add_sub_cancel]

/-- R175: an INF byte that is not the last one. -/
theorem State.Owes.encodeData_more (h : s.Owes (n + 2)) (b : Byte) :
    (encodeData b s).pass.Owes (n + 1) ∧ (encodeData b s).pass.live = s.live ++ [b] ∧
    (encodeData b s).pass.edc = ⟨edcFeed s.edc.latch s.edc.acc b, s.edc.latch⟩ ∧
    (encodeData b s).pass.enc.len = s.enc.len := by
  have hpred := h.remain_pred
  have e := Machine.encodeData_more s b fun h0 => by rw [h0] at hpred; cases hpred
  have hspace := h.space
  generalize Machine.encodeData b s = t at *
  have hfit : [b].length ≤ s.free := by rw [List.length_singleton]; omega
  have hfifo : t.pass.fifo = (s.pushAll [b]).fifo := by rw [e]; rfl
  have hparams : t.pass.params = s.params := by rw [e]; rfl
  obtain ⟨hok, -, hfree⟩ := h.fifo.after_pushAll hfit hfifo hparams
  obtain ⟨hlive, -⟩ := State.fifo_after_pushAll h.fifo [b] hfit hfifo hparams (by rw [e]; rfl)
  have hedc : t.pass.edc = ⟨edcFeed s.edc.latch s.edc.acc b, s.edc.latch⟩ := by rw [e]; rfl
  have henc : t.pass.enc = ⟨s.enc.isOpen, s.enc.remain - 1, s.enc.len⟩ := by rw [e]; rfl
  rw [List.length_singleton] at hfree
  refine ⟨⟨hok, ?_, ?_, ?_, ?_⟩, hlive, hedc, by rw [henc]⟩
  · rw [e]; exact h.enabled
  · rw [henc]; exact h.isOpen
  · rw [henc]; exact hpred
  · rw [hedc]; show n + 1 + edcLen s.edc.latch ≤ _; omega

/-- R171, R175: the last INF byte. -/
theorem State.Owes.encodeData_last (h : s.Owes 1) (b : Byte) :
    (encodeData b s).pass.live = s.live ++ b :: edcBytes s.edc.latch (edcFeed s.edc.latch s.edc.acc b) ∧
    (encodeData b s).pass.enc.isOpen = false ∧
    (encodeData b s).pass.cmdResult = BitVec.ofNat 16 (3 + s.enc.len.toNat + edcLen s.edc.latch) := by
  have e := Machine.encodeData_last s b (BitVec.eq_of_toNat_eq h.remain_pred)
  have hspace := h.space
  generalize Machine.encodeData b s = t at *
  have hfit : (b :: edcBytes s.edc.latch (edcFeed s.edc.latch s.edc.acc b)).length ≤ s.free := by
    rw [List.length_cons, edcBytes_length]; omega
  obtain ⟨hlive, -⟩ := State.fifo_after_pushAll (t := t.pass) h.fifo _ hfit (by rw [e]; rfl) (by rw [e]; rfl)
    (by rw [e]; rfl)
  exact ⟨hlive, by rw [e]; rfl, by rw [e]; rfl⟩

/-- R175: as many ENC_DATA as the open block has INF bytes to come append these and the EDC, and close the block. -/
theorem State.Owes.runOk_encData {rest : List Byte} (h : s.Owes (rest.length + 1)) :
    ∃ t, runOk ((b :: rest).map .encData) s = some t ∧
      t.live = s.live ++ b :: rest ++ edcBytes s.edc.latch (edcFeedAll s.edc.latch s.edc.acc (b :: rest)) ∧
      t.enc.isOpen = false ∧ t.cmdResult = BitVec.ofNat 16 (3 + s.enc.len.toNat + edcLen s.edc.latch) := by
  induction rest generalizing s b with
  | nil =>
    obtain ⟨hlive, hclosed, hresult⟩ := h.encodeData_last b
    exact ⟨_, runOk_cons _ _ _ _ (h.exec_encData b) rfl, by simpa using hlive, hclosed, hresult⟩
  | cons c rest ih =>
    obtain ⟨hmore, hlive, hedc, hlen⟩ := h.encodeData_more b
    obtain ⟨t, hrun, hlive', hclosed, hresult⟩ := ih (b := c) hmore
    refine ⟨t, (runOk_cons _ _ _ _ (h.exec_encData b) rfl).trans hrun, ?_, hclosed, ?_⟩
    · rw [hlive', hlive, hedc]
      simp
    · rw [hresult, hlen, hedc]

/-- R172: ENC_I passes its checks and opens the block. -/
theorem exec_encI (hen : s.ctrl.en = true) (ho : s.enc.isOpen = false) {len : Byte} (hmax : len ≠ 0xFF)
    (hifs : len ≤ s.ifs.ifsc) (hspace : s.blockSize len ≤ s.free) (m ns : Bool) :
    exec (.encI m ns len) s = .next (openBlock (pcbI m ns) len s).pass :=
  commandEnabled_of_pass s _ _ hen (by simpa [ho] using ⟨hmax, hifs, hspace⟩)

/-- R170: a block just opened with INF bytes to come owes all of them. -/
theorem openBlock_owes (hf : s.FifoOk) (hen : s.ctrl.en = true) (pcb : Byte) {len : Byte} (hlen : len ≠ 0)
    (hspace : s.blockSize len ≤ s.free) : (openBlock pcb len s).pass.Owes len.toNat := by
  have hok : (openBlock pcb len s).pass.FifoOk := hf.openBlock pcb len
  obtain ⟨e, hlive, -⟩ := openBlock_spec hf pcb len hspace
  generalize (openBlock pcb len s).pass = t at *
  have henc : t.enc = ⟨decide (len ≠ 0), len, len⟩ := congrArg State.enc e
  have hdepth : t.depth = s.depth := by rw [e]; rfl
  have hlatch : t.edc.latch = s.ctrl.edcKind := by rw [e]
  have hused := congrArg List.length hlive
  simp only [if_neg hlen, List.length_append, State.live_length, List.length_cons, List.length_nil] at hused
  have hsum := s.used_add_free hf
  have hsum' := t.used_add_free hok
  unfold State.blockSize at hspace
  exact ⟨hok, by rw [e]; exact hen, by rw [henc]; exact decide_eq_true hlen, by rw [henc], by rw [hlatch]; omega⟩

end Sys2Proof.Machine

open Sys2Proof Sys2Proof.Machine

/-- Settles O33: ENC_I closes a block without INF at once, and else opens one that ENC_DATA fills and closes. -/
theorem encoderWritesBlock : Obligations.EncoderWritesBlock := by
  intro s m ns inf hf hc hen ho hifs hspace
  obtain ⟨-, hifsc, -⟩ := hc
  obtain ⟨-, hmax⟩ := (ifsLegal_iff _).1 hifsc
  have hedcLen := (edcLen_pos s.ctrl.edcKind).2
  have hlen : (BitVec.ofNat 8 inf.length).toNat = inf.length := by rw [BitVec.toNat_ofNat, Nat.mod_eq_of_lt (by omega)]
  have hblock : s.blockSize (BitVec.ofNat 8 inf.length) ≤ s.free := by rw [State.blockSize, hlen]; exact hspace
  have hexec := exec_encI hen ho (len := BitVec.ofNat 8 inf.length)
    (fun h => by rw [h, show (0xFF : Byte).toNat = 255 from rfl] at hlen; omega)
    (by rw [BitVec.le_def, hlen]; exact hifs) hblock m ns
  obtain ⟨e, hlive, -⟩ := openBlock_spec hf (pcbI m ns) _ hblock
  suffices h : ∃ t, runOk (inf.map .encData) (openBlock (pcbI m ns) (BitVec.ofNat 8 inf.length) s).pass = some t ∧
      t.live = s.live ++ blockBytes s.ctrl.edcKind s.nad.tx (pcbI m ns) inf ∧ t.enc.isOpen = false ∧
      t.cmdResult = BitVec.ofNat 16 (3 + inf.length + edcLen s.ctrl.edcKind) by
    obtain ⟨t, hrun, hbytes, hclosed, hresult⟩ := h
    refine ⟨t, (runOk_cons _ _ _ _ hexec rfl).trans hrun, hbytes, hclosed, ?_, ?_⟩
    · rw [State.committed_of_closed hclosed, State.live_length]
    · rw [hresult, BitVec.toNat_ofNat, Nat.mod_eq_of_lt (by omega)]
  cases inf with
  | nil => exact ⟨_, rfl, hlive, congrArg (·.enc.isOpen) e, congrArg State.cmdResult e⟩
  | cons b rest =>
    have hne : BitVec.ofNat 8 (b :: rest).length ≠ 0 := fun h => by rw [h] at hlen; cases hlen
    have howes := openBlock_owes hf hen (pcbI m ns) hne hblock
    rw [hlen] at howes
    obtain ⟨t, hrun, hbytes, hclosed, hresult⟩ := howes.runOk_encData (b := b)
    refine ⟨t, hrun, ?_, hclosed, ?_⟩
    · rw [hbytes, hlive, if_neg hne, e]
      simp [blockBytes]
    · rw [hresult, e, hlen]
end

section
/-! PROOFS. The transmit FIFO commands (40_fifo.md R130 to R138): each one by its checks and its effect on the live bytes,
then runs of pushes and pops. -/

namespace Sys2Proof.Machine

variable {s t effect : State} {checks : List (Bool × CmdCode)} {b : Byte} {k : Nat}

/-! ### The live bytes -/

theorem State.used_of_head_eq_tail (h : s.fifo.head = s.fifo.tail) : s.used = 0 := by
  rw [State.used, indexDistance, h, Nat.add_sub_cancel_left, Nat.mod_self]

theorem State.live_of_used_zero (h : s.used = 0) : s.live = [] :=
  List.eq_nil_of_length_eq_zero (s.live_length.trans h)

theorem State.live_getElem (hk : k < s.live.length) : s.live[k] = s.at k := by simp [State.live, State.oldest]

/-- The oldest byte is the one at tail, and dropping it leaves the rest. -/
theorem State.live_eq_cons (h : s.FifoOk) (hpos : 0 < s.used) :
    s.live = s.fifoByte s.fifo.tail.toNat :: (s.dropOldest 1).live := by
  obtain ⟨-, -, htail, -⟩ := id h
  have hat : s.at 0 = s.fifoByte s.fifo.tail.toNat := by rw [State.at, Nat.add_zero, Nat.mod_eq_of_lt htail]
  have hlen : 0 < s.live.length := s.live_length ▸ hpos
  rw [State.live_dropOldest h 1 hpos, ← hat, ← State.live_getElem hlen]
  exact (List.cons_getElem_drop_succ (h := hlen)).symm

/-! ### Commands that end with CMD_STATUS = OK -/

/-- R303: a command that ended with OK passed every check and is its effect. -/
theorem commandEnabled_ok (hcodes : ∀ p ∈ checks, p.2 ≠ .ok) (h : commandEnabled s checks effect = .next t)
    (hok : t.cmdStatus = .ok) : (∀ p ∈ checks, p.1 = false) ∧ t = effect.pass := by
  rcases commandEnabled_cases s checks effect with ⟨-, hnone, e⟩ | ⟨-, e⟩ | ⟨c, -, hmem, -, e⟩ <;>
    obtain rfl := Host.Outcome.next.inj (h.symm.trans e)
  · exact ⟨(firstFailing_none_iff _).1 hnone, rfl⟩
  · cases hok
  · exact absurd hok (hcodes _ hmem)

/-! ### Filling the FIFO -/

/-- FIFO_PUSH fails at most for want of space: the block is enabled and no block is open (R132). -/
structure State.TakesPushes (s : State) : Prop where
  fifo : s.FifoOk
  enabled : s.ctrl.en = true
  closed : s.enc.isOpen = false

theorem State.TakesPushes.exec_fifoPush (h : s.TakesPushes) (hfree : 0 < s.free) (b : Byte) :
    exec (.fifoPush b) s = .next ((s.push b).setResult 0).pass :=
  commandEnabled_of_pass s _ _ h.enabled (by simpa [h.closed] using hfree.ne')

theorem State.TakesPushes.exec_fifoPush_full (h : s.TakesPushes) (hfree : s.free = 0) (b : Byte) :
    exec (.fifoPush b) s = .next (s.failedWith .eFull) := by
  show commandEnabled s _ _ = _
  simp [commandEnabled, command, firstFailing, h.enabled, h.closed, hfree, State.fail_eq_failedWith]

theorem State.TakesPushes.push (h : s.TakesPushes) (b : Byte) : ((s.push b).setResult 0).pass.TakesPushes :=
  ⟨h.fifo.push b, h.enabled, h.closed⟩

/-- R137: pushes that fit all succeed, each using up one free place. -/
theorem State.TakesPushes.runOk_fifoPush (h : s.TakesPushes) {bs : List Byte} (hfit : bs.length ≤ s.free) :
    ∃ t, runOk (bs.map .fifoPush) s = some t ∧ t.TakesPushes ∧ t.live = s.live ++ bs ∧ t.free + bs.length = s.free := by
  induction bs generalizing s with
  | nil => exact ⟨s, rfl, h, (List.append_nil _).symm, rfl⟩
  | cons b rest ih =>
    rw [List.length_cons] at hfit ⊢
    have hpos : 0 < s.free := by omega
    have hlive : ((s.push b).setResult 0).pass.live = s.live ++ [b] := State.live_push h.fifo b hpos
    have hfree : ((s.push b).setResult 0).pass.free + 1 = s.free := State.free_push h.fifo b hpos
    obtain ⟨t, hrun, ht, hlive', hfree'⟩ := ih (h.push b) (by omega)
    refine ⟨t, (runOk_cons _ _ _ _ (h.exec_fifoPush hpos b) rfl).trans hrun, ht, ?_, by omega⟩
    rw [hlive', hlive, List.append_assoc, List.singleton_append]

/-! ### Runs of pushes and pops -/

/-- R132: a push that ended with OK, while no block is open. -/
theorem fifoPush_ok (h : s.FifoOk) (ho : s.enc.isOpen = false) (hexec : exec (.fifoPush b) s = .next t)
    (hok : t.cmdStatus = .ok) : t.FifoOk ∧ t.enc.isOpen = false ∧ t.live = s.live ++ [b] := by
  obtain ⟨hpass, rfl⟩ := commandEnabled_ok (by simp) hexec hok
  have hfree : s.free ≠ 0 := of_decide_eq_false (hpass (decide (s.free = 0), .eFull) (by simp))
  exact ⟨h.push b, ho, State.live_push h b (Nat.pos_of_ne_zero hfree)⟩

/-- R133: a pop that ended with OK, while no block is open. -/
theorem fifoPop_ok (h : s.FifoOk) (ho : s.enc.isOpen = false) (hexec : exec .fifoPop s = .next t)
    (hok : t.cmdStatus = .ok) :
    t.FifoOk ∧ t.enc.isOpen = false ∧ ∃ b, s.live = b :: t.live ∧ t.cmdResult = b.setWidth 16 := by
  obtain ⟨hpass, rfl⟩ := commandEnabled_ok (by simp) hexec hok
  have hcommitted : s.committed ≠ 0 := of_decide_eq_false (hpass (decide (s.committed = 0), .eEmpty) (by simp))
  rw [State.committed_of_closed ho] at hcommitted
  exact ⟨h.dropOldest 1, ho, _, State.live_eq_cons h (Nat.pos_of_ne_zero hcommitted), rfl⟩

theorem pushedBytes_fifoPop (rest : List Instr) : pushedBytes (.fifoPop :: rest) = pushedBytes rest := rfl

theorem runResults_cons_eq_some {i : Instr} {rest : List Instr} {rs : List Half}
    (h : runResults (i :: rest) s = some (rs, t)) :
    ∃ u us, exec i s = .next u ∧ u.cmdStatus = .ok ∧ runResults rest u = some (us, t) ∧ rs = u.cmdResult :: us := by
  unfold runResults at h
  split at h
  case h_1 u hexec =>
    split at h
    · next hok =>
      obtain ⟨⟨us, t'⟩, hrun, hrs⟩ := Option.map_eq_some_iff.1 h
      obtain ⟨rfl, rfl⟩ := Prod.mk.inj hrs
      exact ⟨u, us, hexec, hok, hrun, rfl⟩
    · cases h
  all_goals cases h

end Sys2Proof.Machine

open Sys2Proof Sys2Proof.Machine

/-- Settles O20: the effect is one `push`, into a FIFO that has a free place. -/
theorem fifoPushAppends : Obligations.FifoPushAppends := by
  intro s b h
  refine ChecksThen.of_command (effect := (s.push b).setResult 0) rfl (by simp) fun hpass => ?_
  have hfree : 0 < s.free := Nat.pos_of_ne_zero (hpass (_, .eFull) (by simp))
  exact ⟨rfl, State.live_push h b hfree, rfl, rfl, State.push_head h b, (s.fifoByte_push b _).trans (if_pos rfl),
    fun k hk => (s.fifoByte_push b k).trans (if_neg hk)⟩

/-- Settles O21: the effect drops the one oldest byte, which is committed and so live. -/
theorem fifoPopRemovesOldest : Obligations.FifoPopRemovesOldest := by
  intro s h henc
  refine ChecksThen.of_command
    (effect := (s.dropOldest 1).setResult ((s.fifoByte s.fifo.tail.toNat).setWidth 16)) rfl (by simp) fun hpass => ?_
  have hcommitted : 1 ≤ s.committed := Nat.pos_of_ne_zero (hpass (_, .eEmpty) (by simp))
  exact ⟨_, State.live_eq_cons h (hcommitted.trans (State.committed_le henc)), rfl, rfl, State.dropOldest_tail h 1,
    State.committed_dropOldest h 1 hcommitted⟩

/-- Settles O22: a live byte is the byte its offset after tail, in an open block or not. -/
theorem fifoPeekReadsLiveByte : Obligations.FifoPeekReadsLiveByte := by
  intro s offset
  refine ChecksThen.of_command (effect := s.setResult ((s.at offset.toNat).setWidth 16)) rfl
    (by simp [State.live_length]) fun hpass => ?_
  have hlive : offset.toNat < s.live.length := Nat.lt_of_not_le (hpass (_, .eEmpty) (by simp))
  exact ⟨_, (List.getElem?_eq_getElem hlive).trans (congrArg some (State.live_getElem hlive)), rfl⟩

/-- Settles O23: FIFO_REMOVE drops bytes that are committed and so live; FIFO_FLUSH makes head meet tail. -/
theorem fifoRemoveAndFlush : Obligations.FifoRemoveAndFlush := by
  intro s n h henc
  constructor
  · refine ChecksThen.of_command (effect := (s.dropOldest n.toNat).setResult 0) rfl (by simp) fun hpass => ?_
    have hn : n.toNat ≤ s.committed := Nat.le_of_not_lt (hpass (_, .eEmpty) (by simp))
    exact ⟨State.live_dropOldest h _ (hn.trans (State.committed_le henc)), rfl, State.dropOldest_tail h _,
      State.committed_dropOldest h _ hn⟩
  · refine ChecksThen.of_command (effect := State.setResult { s with fifo := ⟨s.fifo.cells, 0, 0, 0⟩ } 0) rfl
      (by simp) fun _ => ?_
    have hused : (State.setResult { s with fifo := ⟨s.fifo.cells, 0, 0, 0⟩ } 0).pass.used = 0 :=
      State.used_of_head_eq_tail rfl
    exact ⟨rfl, State.live_of_used_zero hused, congrArg (s.depth - 1 - ·) hused⟩

/-- Settles O24: an empty FIFO has TXFIFO_DEPTH - 1 free places, and the pushes use up all of them. -/
theorem fifoCapacity : Obligations.FifoCapacity := by
  intro s bs h hen ho hempty hlen
  have hused := State.used_of_head_eq_tail hempty
  have hfit : bs.length = s.free := by rw [State.free, hused, hlen, Nat.sub_zero]
  obtain ⟨t, hrun, ht, hlive, hfree⟩ := (State.TakesPushes.mk h hen ho).runOk_fifoPush hfit.le
  have hfull : t.free = 0 := by omega
  exact ⟨t, hrun, hfull, by rw [hlive, State.live_of_used_zero hused, List.nil_append], ht.exec_fifoPush_full hfull⟩

/-- Settles O25, by induction over the commands: a push puts its byte behind the live bytes, a pop takes the first. -/
theorem fifoKeepsOrder : Obligations.FifoKeepsOrder := by
  intro s t is rs h ho his hrun
  induction is generalizing s rs with
  | nil =>
    obtain ⟨-, rfl⟩ := Prod.mk.inj (Option.some.inj hrun)
    simp [poppedResults, pushedBytes]
  | cons i rest ih =>
    obtain ⟨hi, hrest⟩ := List.forall_mem_cons.1 his
    obtain ⟨u, us, hexec, hok, hrun', rfl⟩ := runResults_cons_eq_some hrun
    rcases hi with rfl | ⟨b, rfl⟩
    case inl =>
      obtain ⟨hu, ho', b, hlive, hresult⟩ := fifoPop_ok h ho hexec hok
      rw [hlive, List.cons_append, List.map_cons, pushedBytes_fifoPop, ← ih _ _ hu ho' hrest hrun', ← hresult]
      rfl
    case inr =>
      obtain ⟨hu, ho', hlive⟩ := fifoPush_ok h ho hexec hok
      rw [pushedBytes, List.append_cons, ← hlive]
      exact ih _ _ hu ho' hrest hrun'
end

section
/-! PROOFS. The error-detection code commands (41_edc.md R150 to R157): folding one byte through the CRC table is eight
shifts of the whole accumulator, the commands by their checks and effects, then runs of EDC_FEED. -/

namespace Sys2Proof.Machine

variable {s : State}

/-! ### The CRC table against eight shifts (R151, R152) -/

theorem crcShift_eq (c : Half) : crcShift c = (c >>> 1) ^^^ (if c.getLsbD 0 then 0x8408 else 0) := by
  unfold crcShift
  split <;> simp

theorem crcShift_xor (x y : Half) : crcShift (x ^^^ y) = crcShift x ^^^ crcShift y := by
  have hpoly : ∀ a b : Bool, (if a ^^ b then 0x8408 else 0 : Half) =
      (if a then 0x8408 else 0) ^^^ (if b then 0x8408 else 0) := by decide
  simp only [crcShift_eq, BitVec.getLsbD_xor, BitVec.ushiftRight_xor_distrib, hpoly]
  ac_rfl

/-- The shifts are linear over XOR. -/
theorem crcShifts_xor (n : Nat) (x y : Half) : crcShifts n (x ^^^ y) = crcShifts n x ^^^ crcShifts n y := by
  induction n generalizing x y with
  | zero => rfl
  | succ n ih => simp only [crcShifts, crcShift_xor, ih]

/-- While the bits shifted out are 0, the polynomial does not enter. -/
theorem crcShifts_of_low_zero {n : Nat} {x : Half} (h : ∀ i < n, x.getLsbD i = false) : crcShifts n x = x >>> n := by
  induction n generalizing x with
  | zero => simp [crcShifts]
  | succ n ih =>
    have hshift : crcShift x = x >>> 1 := if_neg (by rw [h 0 n.succ_pos]; decide)
    rw [crcShifts, hshift, ih fun i hi => by rw [BitVec.getLsbD_ushiftRight, h _ (by omega)], ← BitVec.shiftRight_add,
      Nat.add_comm]

/-- A value is its low byte XOR its high byte in place. -/
theorem half_eq_low_xor_high (x : Half) : x = (x.setWidth 8).setWidth 16 ^^^ ((x >>> 8) <<< 8) := by
  apply BitVec.eq_of_getLsbD_eq
  intro i hi
  by_cases hlow : i < 8
  · simp [hlow, hi]
  · simp [hlow, hi, show 8 + (i - 8) = i by omega]

/-- R152: the table looked up at the low byte, over the high byte, is eight shifts of the whole value. -/
theorem crcTab_xor_high (x : Half) : (x >>> 8) ^^^ crcTab (x.setWidth 8) = crcShifts 8 x := by
  have hhigh : crcShifts 8 ((x >>> 8) <<< 8) = x >>> 8 := by
    rw [crcShifts_of_low_zero fun i hi => by simp [hi]]
    apply BitVec.eq_of_getLsbD_eq
    intro i _
    simpa using BitVec.lt_of_getLsbD
  conv_rhs => rw [half_eq_low_xor_high x, crcShifts_xor, hhigh]
  exact BitVec.xor_comm _ _

theorem zero_append_byte (b : Byte) : 0#8 ++ b = b.setWidth 16 :=
  (BitVec.setWidth_eq_append (by decide)).symm

theorem edcFeed_lrc (acc : Half) (b : Byte) : edcFeed .lrc acc b = acc ^^^ (0#8 ++ b) := by
  rw [zero_append_byte]
  rfl

theorem edcFeed_crc (acc : Half) (b : Byte) : edcFeed .crc acc b = crcShifts 8 (acc ^^^ (0#8 ++ b)) := by
  have hbyte : b.setWidth 16 >>> 8 = 0#16 := by
    apply BitVec.eq_of_getLsbD_eq
    intro i _
    simp
  rw [zero_append_byte, ← crcTab_xor_high, BitVec.ushiftRight_xor_distrib, hbyte, BitVec.xor_zero]
  rfl

/-! ### Runs of EDC_FEED (R157) -/

theorem exec_edcInit (hen : s.ctrl.en = true) (ho : s.enc.isOpen = false) :
    exec .edcInit s = .next (s.startEdc.setResult s.startEdc.edc.acc).pass :=
  commandEnabled_of_pass s _ _ hen (by simpa using ho)

theorem exec_edcFeed (hen : s.ctrl.en = true) (ho : s.enc.isOpen = false) (b : Byte) :
    exec (.edcFeed b) s = .next ((s.feed b).setResult (s.feed b).edc.acc).pass :=
  commandEnabled_of_pass s _ _ hen (by simpa using ho)

/-- Every EDC_FEED of a run succeeds, and the run folds its bytes in order. -/
theorem runOk_edcFeed (hen : s.ctrl.en = true) (ho : s.enc.isOpen = false) (bs : List Byte) :
    ∃ t, runOk (bs.map .edcFeed) s = some t ∧ t.ctrl = s.ctrl ∧ t.enc = s.enc ∧
      t.edc = ⟨edcFeedAll s.edc.latch s.edc.acc bs, s.edc.latch⟩ := by
  induction bs generalizing s with
  | nil => exact ⟨s, rfl, rfl, rfl, rfl⟩
  | cons b rest ih =>
    obtain ⟨t, hrun, hctrl, henc, hedc⟩ := ih (s := ((s.feed b).setResult (s.feed b).edc.acc).pass) hen ho
    exact ⟨t, (runOk_cons _ _ _ _ (exec_edcFeed hen ho b) rfl).trans hrun, hctrl, henc, hedc⟩

end Sys2Proof.Machine

open Sys2Proof Sys2Proof.Machine

/-- Settles O26: EDC_INIT is `startEdc`; EDC_FEED's fold is XOR for LRC and eight shifts for CRC-16. -/
theorem edcInitAndFeed : Obligations.EdcInitAndFeed := by
  intro s b
  constructor
  · refine ChecksThen.of_command (effect := s.startEdc.setResult s.startEdc.edc.acc) rfl (by simp) fun _ => ?_
    exact ⟨edcInit s.ctrl.edcKind, fun h => by rw [h]; rfl, fun h => by rw [h]; rfl, rfl⟩
  · refine ChecksThen.of_command (effect := (s.feed b).setResult (s.feed b).edc.acc) rfl (by simp) fun _ => ?_
    exact ⟨edcFeed s.edc.latch s.edc.acc b, fun h => by rw [h, edcFeed_lrc], fun h => by rw [h, edcFeed_crc], rfl⟩

/-- Settles O27: the effect pushes the accumulator's EDC bytes, which all fit once the last check passed. -/
theorem edcEmitAppends : Obligations.EdcEmitAppends := by
  intro s bytes h hlrc hcrc
  obtain rfl : bytes = edcBytes s.edc.latch s.edc.acc := by
    cases hk : s.edc.latch with
    | lrc => exact hlrc hk
    | crc => exact hcrc hk
  refine ChecksThen.of_command (effect := (s.pushAll (edcBytes s.edc.latch s.edc.acc)).setResult
    (BitVec.ofNat 16 (edcLen s.edc.latch))) rfl (by simp) fun hpass => ?_
  have hfit : (edcBytes s.edc.latch s.edc.acc).length ≤ s.free := Nat.le_of_not_lt (hpass (_, .eFull) (by simp))
  obtain ⟨hframe, htail, hblk⟩ := s.pushAll_frame (edcBytes s.edc.latch s.edc.acc)
  obtain ⟨-, hlive, -, -, -, hbyte⟩ := State.pushAll_spec h _ hfit
  refine ⟨?_, hlive, htail, hblk, hbyte⟩
  rw [edcBytes_length, hframe]
  rfl

/-- Settles O28: a run of the concatenation is the run of the first segment followed by that of the second. -/
theorem edcSegmentation : Obligations.EdcSegmentation := by
  intro s s1 s2 hen ho
  obtain ⟨t, hrun1, hctrl, henc, hedc⟩ :=
    runOk_edcFeed (s := (s.startEdc.setResult s.startEdc.edc.acc).pass) hen ho s1
  obtain ⟨u, hrun2, -, -, hedc'⟩ := runOk_edcFeed (s := t) (by rw [hctrl]; exact hen) (by rw [henc]; exact ho) s2
  have hfirst : runOk (.edcInit :: s1.map .edcFeed) s = some t :=
    (runOk_cons _ _ _ _ (exec_edcInit hen ho) rfl).trans hrun1
  refine ⟨t, u, hfirst, hrun2, ?_, ?_⟩
  · rw [List.map_append, ← List.cons_append, runOk_append, hfirst]
    exact hrun2
  · rw [hedc', hedc, edcFeedAll_append]
    rfl
end

section
/-! PROOFS. The block encoder commands (42_encoder.md R170 to R176): the control bytes as fields, then each command by its
checks and its effect on the FIFO. -/

namespace Sys2Proof.Machine

variable {s t : State} {b : Byte}

/-! ### Control bytes as fields (R109) -/

theorem pcbI_eq_append (m ns : Bool) : pcbI m ns = 0#1 ++ BitVec.ofBool ns ++ BitVec.ofBool m ++ 0#5 := by
  cases m <;> cases ns <;> rfl

theorem pcbR_eq_append (code : BitVec 4) (nr : Bool) : pcbR code nr = 0b100#3 ++ BitVec.ofBool nr ++ code := by
  revert code nr
  decide

theorem pcbS_eq_append (scmd : BitVec 5) (resp : Bool) : pcbS scmd resp = 0b11#2 ++ BitVec.ofBool resp ++ scmd := by
  revert scmd resp
  decide

/-! ### Effects -/

theorem State.blockSize_eq (s : State) (len : Byte) : s.blockSize len = 3 + len.toNat + edcLen s.ctrl.edcKind := by
  rw [State.blockSize]

/-- R171, R175: what one ENC_DATA appends, the EDC bytes too after the last INF byte. -/
def State.dataBytes (s : State) (b : Byte) : List Byte :=
  if decide (s.enc.remain = 1) then b :: edcBytes s.edc.latch (edcFeed s.edc.latch s.edc.acc b) else [b]

/-- Everything one INF byte does (R171, R175). -/
theorem encodeData_eq (s : State) (b : Byte) : encodeData b s = { s with
    fifo := (s.pushAll (s.dataBytes b)).fifo
    edc := { s.edc with acc := edcFeed s.edc.latch s.edc.acc b }
    enc := ⟨s.enc.isOpen && !decide (s.enc.remain = 1), s.enc.remain - 1, s.enc.len⟩
    cmdResult :=
      if decide (s.enc.remain = 1) then BitVec.ofNat 16 (3 + s.enc.len.toNat + edcLen s.edc.latch) else 0 } := by
  by_cases hlast : s.enc.remain = 1
  · rw [encodeData_last s b (by rw [hlast]; rfl)]
    simp [State.dataBytes, hlast]
  · have hmore : s.enc.remain - 1 ≠ 0 := fun h => hlast (by
      rw [← BitVec.sub_add_cancel s.enc.remain 1, h]
      rfl)
    rw [encodeData_more s b hmore, State.dataBytes, decide_eq_false hlast, Bool.not_false, Bool.and_true]
    rfl

/-- An open block has kept the space for an INF byte, and for the EDC behind the last one (R170). -/
theorem State.EncOk.dataBytes_fit (h : s.EncOk) (ho : s.enc.isOpen = true) (b : Byte) :
    (s.dataBytes b).length ≤ s.free := by
  obtain ⟨hremain, -, -, -, hspace⟩ := h.1 ho
  have hpos := toNat_pos_of_ne_zero hremain
  unfold State.dataBytes
  split
  · rw [List.length_cons, edcBytes_length]
    omega
  · rw [List.length_singleton]
    omega

/-- R176: the FIFO of any state that has the open block taken back. -/
theorem State.EncOk.live_of_aborted (h : s.EncOk) (ho : s.enc.isOpen = true)
    (hf : t.fifo = { s.fifo with head := s.fifo.blkStart }) (hp : t.params = s.params) (hr : t.resets = s.resets) :
    t.live = s.live.take s.committed ∧ t.used = s.committed := by
  have hused : t.used = s.committed := by simp [State.used, State.committed, State.depth, ho, hf, hp]
  have hat : t.at = s.at := funext fun k => by simp [State.at, State.fifoByte, State.depth, hf, hp, hr]
  refine ⟨?_, hused⟩
  rw [State.live, State.live, State.take_oldest, Nat.min_eq_left (State.committed_le h), hused, State.oldest, hat]
  rfl

end Sys2Proof.Machine

open Sys2Proof Sys2Proof.Machine

/-- Settles O29: after the last check the FIFO has the space for the whole block, and opening it is `openBlock_spec`. -/
theorem encIOpensBlock : Obligations.EncIOpensBlock := by
  intro s m ns len h
  rw [← pcbI_eq_append]
  refine ChecksThen.of_command (effect := openBlock (pcbI m ns) len s) rfl (by simp [State.blockSize_eq])
    fun hpass => ?_
  exact openBlock_spec h _ _ (Nat.le_of_not_lt (hpass (_, .eFull) (by simp)))

/-- Settles O30: both open a block as ENC_I does; the R-block has LEN 0 and so is closed at once. -/
theorem encRAndEncSOpenBlocks : Obligations.EncRAndEncSOpenBlocks := by
  intro s code nr scmd resp len h
  rw [← pcbR_eq_append, ← pcbS_eq_append]
  constructor
  · refine ChecksThen.of_command (effect := openBlock (pcbR code nr) 0 s) rfl (by simp [State.blockSize_eq])
      fun hpass => ?_
    exact openBlock_spec h _ _ (Nat.le_of_not_lt (hpass (_, .eFull) (by simp)))
  · refine ChecksThen.of_command (effect := openBlock (pcbS scmd resp) len s) rfl (by simp [State.blockSize_eq])
      fun hpass => ?_
    exact openBlock_spec h _ _ (Nat.le_of_not_lt (hpass (_, .eFull) (by simp)))

/-- Settles O31: the bytes appended fit in the space the open block has kept. -/
theorem encDataAppends : Obligations.EncDataAppends := by
  intro s b h henc
  refine ChecksThen.of_command (effect := encodeData b s) rfl (by simp) fun hpass => ?_
  have ho : s.enc.isOpen = true := by simpa using hpass (s.enc.isOpen = false, .eState) (by simp)
  have e := encodeData_eq s b
  obtain ⟨hlive, htail, hblk, -, hbyte⟩ := State.fifo_after_pushAll (t := (encodeData b s).pass) h _
    (henc.dataBytes_fit ho b) (by rw [e]; rfl) (by rw [e]; rfl) (by rw [e]; rfl)
  exact ⟨by rw [e, ho]; rfl, hlive, htail, hblk, hbyte⟩

/-- Settles O32: head goes back to where the block began, and the bytes below it are the committed ones. -/
theorem encAbortDiscards : Obligations.EncAbortDiscards := by
  intro s h henc
  let aborted : State := State.setResult { s with
    fifo := { s.fifo with head := s.fifo.blkStart }
    enc := { s.enc with isOpen := false, remain := 0 } } 0
  refine ChecksThen.of_command (effect := aborted) rfl (by simp) fun hpass => ?_
  have ho : s.enc.isOpen = true := by simpa using hpass (s.enc.isOpen = false, .eState) (by simp)
  obtain ⟨hlive, hused⟩ := henc.live_of_aborted (t := aborted.pass) ho rfl rfl rfl
  exact ⟨rfl, hlive, (State.committed_of_closed rfl).trans hused⟩
end

section
/-! PROOFS. The encoder and the parser together (42_encoder.md R177, 43_decoder.md R192 to R200): any block the encoder
writes, what the parser holds after each byte of a frame, and the round trip. -/

namespace Sys2Proof.Machine

variable {s t u : State} {n : Nat} {b : Byte} {bs : List Byte}

/-! ### The encoder's side: a whole block of any kind -/

theorem runOk_cons_eq_some {i : Instr} {rest : List Instr} (h : runOk (i :: rest) s = some t) :
    ∃ u, exec i s = .next u ∧ u.cmdStatus = .ok ∧ runOk rest u = some t := by
  unfold runOk at h
  split at h
  case h_1 u hexec =>
    split at h
    · next hok => exact ⟨u, hexec, hok, h⟩
    · cases h
  all_goals cases h

/-- The state `t` differs from `s` at most in what an encoder command that ends with OK writes. -/
def OnlyEncoder (s t : State) : Prop :=
  t = { s with fifo := t.fifo, edc := t.edc, enc := t.enc, cmdResult := t.cmdResult, cmdStatus := t.cmdStatus }

theorem OnlyEncoder.trans (h1 : OnlyEncoder s t) (h2 : OnlyEncoder t u) : OnlyEncoder s u := by
  unfold OnlyEncoder at h1 h2
  rw [h1] at h2
  exact h2

/-- Such a command leaves what the parser looks at. -/
theorem OnlyEncoder.receivePath (h : OnlyEncoder s t) :
    t.ctrl = s.ctrl ∧ t.nad = s.nad ∧ t.ifs = s.ifs ∧ t.rx = s.rx := by
  rw [h]
  exact ⟨rfl, rfl, rfl, rfl⟩

theorem openBlock_only (h : s.FifoOk) (pcb : Byte) {len : Byte} (hspace : s.blockSize len ≤ s.free) :
    OnlyEncoder s (openBlock pcb len s).pass := by
  obtain ⟨e, -⟩ := openBlock_spec h pcb len hspace
  rw [OnlyEncoder, e]

theorem encodeData_only (s : State) (b : Byte) : OnlyEncoder s (encodeData b s).pass := by
  rw [OnlyEncoder, encodeData_eq]
  rfl

theorem runOk_encData_only (h : runOk (bs.map .encData) s = some t) : OnlyEncoder s t := by
  induction bs generalizing s with
  | nil =>
    obtain rfl := Option.some.inj h
    rfl
  | cons b rest ih =>
    obtain ⟨u, hexec, hok, hrun⟩ := runOk_cons_eq_some h
    obtain ⟨-, rfl⟩ := commandEnabled_ok (by simp) hexec hok
    exact (encodeData_only s b).trans (ih hrun)

/-- R173: ENC_R passes its checks and writes the block. -/
theorem exec_encR (hen : s.ctrl.en = true) (ho : s.enc.isOpen = false) (hspace : s.blockSize 0 ≤ s.free)
    (code : BitVec 4) (nr : Bool) : exec (.encR code nr) s = .next (openBlock (pcbR code nr) 0 s).pass :=
  commandEnabled_of_pass s _ _ hen (by simpa [ho] using hspace)

/-- R174: ENC_S passes its checks and opens the block. -/
theorem exec_encS (hen : s.ctrl.en = true) (ho : s.enc.isOpen = false) {len : Byte} (hlen : len ≤ 1)
    (hspace : s.blockSize len ≤ s.free) (scmd : BitVec 5) (resp : Bool) :
    exec (.encS scmd resp len) s = .next (openBlock (pcbS scmd resp) len s).pass :=
  commandEnabled_of_pass s _ _ hen (by simpa [ho] using ⟨hlen, hspace⟩)

/-- R170, R171, R175: a block of any control byte, once opened, is filled and closed by its INF bytes. -/
theorem runOk_encData_openBlock {inf : List Byte} (hf : s.FifoOk) (hen : s.ctrl.en = true) (pcb : Byte)
    (hmax : inf.length < 256) (hspace : 3 + inf.length + edcLen s.ctrl.edcKind ≤ s.free) :
    ∃ t, runOk (inf.map .encData) (openBlock pcb (BitVec.ofNat 8 inf.length) s).pass = some t ∧
      t.live = s.live ++ blockBytes s.ctrl.edcKind s.nad.tx pcb inf := by
  have hlen : (BitVec.ofNat 8 inf.length).toNat = inf.length := by rw [BitVec.toNat_ofNat, Nat.mod_eq_of_lt hmax]
  have hblock : s.blockSize (BitVec.ofNat 8 inf.length) ≤ s.free := by rw [State.blockSize, hlen]; exact hspace
  obtain ⟨e, hlive, -⟩ := openBlock_spec hf pcb _ hblock
  cases inf with
  | nil => exact ⟨_, rfl, hlive⟩
  | cons b rest =>
    have hne : BitVec.ofNat 8 (b :: rest).length ≠ 0 := fun h => by rw [h] at hlen; cases hlen
    have howes := openBlock_owes hf hen pcb hne hblock
    rw [hlen] at howes
    obtain ⟨t, hrun, hbytes, -⟩ := howes.runOk_encData (b := b)
    refine ⟨t, hrun, ?_⟩
    rw [hbytes, hlive, if_neg hne, e]
    simp [blockBytes]

/-! ### The parser's side: one byte -/

theorem State.rxByte_of_write {k : Nat} (hbuf : t.rxbuf = Memory.write s.rxbuf k b) (hr : t.resets = s.resets) (j : Nat) :
    t.rxByte j = if j = k then b else s.rxByte j := by
  simp only [State.rxByte, hbuf, hr, Memory.find_write]
  split <;> rfl

/-- A byte written behind the first bytes of the receive buffer extends them. -/
theorem State.rxBytes_of_write (hbytes : (List.range bs.length).map s.rxByte = bs)
    (hbuf : t.rxbuf = Memory.write s.rxbuf bs.length b) (hr : t.resets = s.resets) :
    (List.range (bs ++ [b]).length).map t.rxByte = bs ++ [b] := by
  have hold : (List.range bs.length).map t.rxByte = (List.range bs.length).map s.rxByte :=
    List.map_congr_left fun j hj => by
      rw [State.rxByte_of_write hbuf hr, if_neg (List.mem_range.1 hj).ne]
  rw [List.length_append, List.length_singleton, List.range_succ, List.map_append, hold, hbytes, List.map_singleton,
    State.rxByte_of_write hbuf hr, if_pos rfl]

/-! ### The parser's side: one byte as one equation (R193 to R198, R200) -/

/-- R193: the node address in ADDR. -/
theorem parseAddr_eq_of_match (h : b = s.nad.rx) (perr : Bool) : parseAddr b perr s = State.restartIbt { s with
    rx := { s.rx with
      latch := s.ctrl.edcKind, acc := edcFeed s.ctrl.edcKind (edcInit s.ctrl.edcKind) b
      count := 1, perr := perr, state := .pcb }
    rxbuf := Memory.write s.rxbuf 0 b } := by
  rw [parseAddr, if_pos h, State.writeRx]

/-- R195: the control byte. -/
theorem parsePcb_eq (b : Byte) (perr : Bool) (s : State) : parsePcb b perr s = State.restartIbt { s with
    rx := { s.rx with
      state := .len, count := 2, perr := s.rx.perr || perr, acc := edcFeed s.rx.latch s.rx.acc b }
    rxbuf := Memory.write s.rxbuf 1 b } := by
  simp only [parsePcb, State.writeRx, State.setRxCount, State.feedRx, State.notePerr, State.setRxState]

/-- R196: a length that is not refused. -/
theorem parseLen_eq_of_accepted (hmax : b ≠ 0xFF) (hifs : b ≤ s.ifs.ifsd) (perr : Bool) :
    parseLen b perr s = State.restartIbt { s with
      rx := { s.rx with
        state := if b = 0 then .edc else .inf
        count := 3, perr := s.rx.perr || perr, acc := edcFeed s.rx.latch s.rx.acc b, len := b }
      rxbuf := Memory.write s.rxbuf 2 b } := by
  have hifs' : ¬b > s.ifs.ifsd := BitVec.not_lt.2 hifs
  simp only [parseLen, hmax, hifs', if_false, State.writeRx, State.setRxCount, State.feedRx, State.notePerr,
    State.setRxState]

/-- R197: an INF byte, the last of which leads to EDC. -/
theorem parseInf_eq (b : Byte) (perr : Bool) (s : State) : parseInf b perr s = State.restartIbt { s with
    rx := { s.rx with
      state := if (s.rx.count + 1).toNat = 3 + s.rx.len.toNat then .edc else s.rx.state
      count := s.rx.count + 1, perr := s.rx.perr || perr, acc := edcFeed s.rx.latch s.rx.acc b }
    rxbuf := Memory.write s.rxbuf s.rx.count.toNat b } := by
  by_cases hlast : (s.rx.count + 1).toNat = 3 + s.rx.len.toNat <;>
    simp only [parseInf, hlast, if_true, if_false, State.storeRx, State.writeRx, State.setRxCount, State.feedRx,
      State.notePerr, State.setRxState]

/-- R198: the state with an EDC byte stored, before it is decided whether it was the last. -/
theorem storeRx_notePerr_eq (b : Byte) (perr : Bool) (s : State) : (s.storeRx b).notePerr perr = { s with
    rx := { s.rx with count := s.rx.count + 1, perr := s.rx.perr || perr }
    rxbuf := Memory.write s.rxbuf s.rx.count.toNat b } := by
  simp only [State.storeRx, State.writeRx, State.setRxCount, State.notePerr]

theorem receiveByte_t1 (hm : s.ctrl.rxMode = .t1) (b : Byte) (perr : Bool) :
    receiveByte b perr s = parse b perr s := by
  rw [receiveByte, hm]

/-! ### The parser's side: a frame byte by byte -/

/-- R192 to R198: the parser's state when `j` bytes of a frame with `n` INF bytes have come. -/
def frameState (k : EdcKind) (n j : Nat) : RxState :=
  if j = 0 then .addr
  else if j = 1 then .pcb
  else if j = 2 then .len
  else if j < 3 + n then .inf
  else if j < 3 + n + edcLen k then .edc
  else .done

section
variable {k : EdcKind} {j : Nat}

theorem frameState_inf (h3 : 3 ≤ j) (h : j < 3 + n) : frameState k n j = .inf := by
  unfold frameState
  rw [if_neg (by omega), if_neg (by omega), if_neg (by omega), if_pos h]

theorem frameState_edc (hn : 3 + n ≤ j) (h : j < 3 + n + edcLen k) : frameState k n j = .edc := by
  unfold frameState
  rw [if_neg (by omega), if_neg (by omega), if_neg (by omega), if_neg (by omega), if_pos h]

theorem frameState_done (h : 3 + n + edcLen k ≤ j) : frameState k n j = .done := by
  unfold frameState
  rw [if_neg (by omega), if_neg (by omega), if_neg (by omega), if_neg (by omega), if_neg (by omega)]

theorem frameState_ne_done (h : j < 3 + n + edcLen k) : frameState k n j ≠ .done := by
  unfold frameState
  rw [if_pos h]
  repeat' split
  all_goals decide

end

/-- What the receiver holds once the first bytes `bs` of a frame of kind `k` with `n` INF bytes have come: all of them are
counted, those before the EDC are folded. -/
structure Receiver.After (k : EdcKind) (n : Nat) (bs : List Byte) (r : Receiver) : Prop where
  state : r.state = frameState k n bs.length
  latch : r.latch = k
  acc : r.acc = edcFeedAll k (edcInit k) (bs.take (3 + n))
  count : r.count.toNat = bs.length
  len : 3 ≤ bs.length → r.len.toNat = n
  perr : r.perr = false

/-- From `s`, in ADDR, the first bytes `bs` of a frame with `n` INF bytes came and led to `t`. -/
structure State.Received (s : State) (n : Nat) (bs : List Byte) (t : State) : Prop where
  ctrl : t.ctrl = s.ctrl
  ifs : t.ifs = s.ifs
  rx : t.rx.After s.ctrl.edcKind n bs
  bytes : (List.range bs.length).map t.rxByte = bs
  pending : t.irqPend = if t.rx.state = .done then s.irqPend ||| 0x0001 else s.irqPend
  info : t.rx.state = .done → t.rxInfo = frameInfo t

/-- A byte before the EDC is folded behind the earlier ones. -/
theorem Receiver.After.acc_feed {k : EdcKind} {r : Receiver} (h : r.After k n bs) (hj : bs.length < 3 + n) (b : Byte) :
    edcFeed r.latch r.acc b = edcFeedAll k (edcInit k) ((bs ++ [b]).take (3 + n)) := by
  rw [List.take_of_length_le (by rw [List.length_append, List.length_singleton]; exact hj), edcFeedAll_append, h.latch,
    h.acc, List.take_of_length_le hj.le]
  rfl

namespace State.Received

variable (h : s.Received n bs t)
include h

/-- The timers and the outcome of a command play no part. -/
theorem congr (e : u = { t with tmr := u.tmr, cmdResult := u.cmdResult, cmdStatus := u.cmdStatus }) :
    s.Received n bs u := by
  rw [e]
  exact ⟨h.ctrl, h.ifs, h.rx, h.bytes, h.pending, h.info⟩

theorem restartIbt : s.Received n bs t.restartIbt := by
  refine h.congr ?_
  unfold State.restartIbt State.startTimer
  split <;> rfl

/-- A byte that is stored, counted and leaves the frame incomplete. -/
theorem store {r : Receiver} {k : Nat} (hk : k = bs.length) (hmore : bs.length + 1 < 3 + n + edcLen s.ctrl.edcKind)
    (hr : r.After s.ctrl.edcKind n (bs ++ [b])) :
    s.Received n (bs ++ [b]) { t with rx := r, rxbuf := Memory.write t.rxbuf k b } := by
  have hold : t.rx.state ≠ .done := by
    rw [h.rx.state]
    exact frameState_ne_done (by omega)
  have hnew : r.state ≠ .done := by
    rw [hr.state, List.length_append, List.length_singleton]
    exact frameState_ne_done hmore
  refine ⟨h.ctrl, h.ifs, hr, State.rxBytes_of_write h.bytes (by rw [hk]) rfl, ?_, fun hdone => absurd hdone hnew⟩
  rw [if_neg hnew]
  exact h.pending.trans (if_neg hold)

theorem pcb (hj : bs.length = 1) (b : Byte) : s.Received n (bs ++ [b]) (parsePcb b false t) := by
  have hedc := (edcLen_pos s.ctrl.edcKind).1
  have hlen : (bs ++ [b]).length = 2 := by rw [List.length_append, hj]; rfl
  rw [parsePcb_eq]
  apply restartIbt
  refine h.store hj.symm (by omega) ⟨?_, h.rx.latch, h.rx.acc_feed (by omega) b, ?_, ?_, ?_⟩
  · rw [hlen]; rfl
  · rw [hlen]; rfl
  · omega
  · simpa using h.rx.perr

theorem len (hj : bs.length = 2) (hb : b.toNat = n) (hn : n ≤ 254) (hifs : n ≤ s.ifs.ifsd.toNat) :
    s.Received n (bs ++ [b]) (parseLen b false t) := by
  have hedc := (edcLen_pos s.ctrl.edcKind).1
  have hlen : (bs ++ [b]).length = 3 := by rw [List.length_append, hj]; rfl
  have hmax : b ≠ 0xFF := fun hff => by
    rw [hff] at hb
    have : (0xFF : Byte).toNat = 255 := rfl
    omega
  rw [parseLen_eq_of_accepted hmax (by rw [h.ifs, BitVec.le_def, hb]; exact hifs)]
  apply restartIbt
  refine h.store hj.symm (by omega) ⟨?_, h.rx.latch, h.rx.acc_feed (by omega) b, ?_, fun _ => hb, ?_⟩
  · rw [hlen]
    by_cases hz : b = 0
    · have : n = 0 := by rw [← hb, hz]; rfl
      exact (if_pos hz).trans (frameState_edc (by omega) (by omega)).symm
    · have := toNat_pos_of_ne_zero hz
      exact (if_neg hz).trans (frameState_inf (by omega) (by omega)).symm
  · rw [hlen]; rfl
  · simpa using h.rx.perr

theorem inf (h3 : 3 ≤ bs.length) (hj : bs.length < 3 + n) (hn : n ≤ 254) (b : Byte) :
    s.Received n (bs ++ [b]) (parseInf b false t) := by
  have hedc := (edcLen_pos s.ctrl.edcKind).1
  have hcount := h.rx.count
  have hsucc : (t.rx.count + 1).toNat = bs.length + 1 := by rw [half_toNat_succ (by omega), hcount]
  have hlen : (bs ++ [b]).length = bs.length + 1 := by rw [List.length_append, List.length_singleton]
  rw [parseInf_eq, hsucc, h.rx.len h3]
  apply restartIbt
  refine h.store hcount (by omega) ⟨?_, h.rx.latch, h.rx.acc_feed hj b, hsucc.trans hlen.symm, fun _ => h.rx.len h3, ?_⟩
  · rw [hlen]
    by_cases hlast : bs.length + 1 = 3 + n
    · exact (if_pos hlast).trans (frameState_edc (by omega) (by omega)).symm
    · refine (if_neg hlast).trans (h.rx.state.trans ?_)
      rw [frameState_inf h3 hj, frameState_inf (by omega) (by omega)]
  · simpa using h.rx.perr

/-- The receiver after an EDC byte, which is stored and counted but not folded, and the state it leaves. -/
theorem after_edc (hj : 3 + n ≤ bs.length) (hn : n ≤ 254) (hmore : bs.length < 3 + n + edcLen s.ctrl.edcKind)
    {x : RxState} (hx : x = frameState s.ctrl.edcKind n (bs.length + 1)) (b : Byte) :
    Receiver.After s.ctrl.edcKind n (bs ++ [b])
      { t.rx with state := x, count := t.rx.count + 1, perr := t.rx.perr || false } := by
  have hedc := (edcLen_pos s.ctrl.edcKind).2
  have hcount := h.rx.count
  have hlen : (bs ++ [b]).length = bs.length + 1 := by rw [List.length_append, List.length_singleton]
  refine ⟨by rw [hlen, hx], h.rx.latch, ?_, ?_, fun _ => h.rx.len (by omega), by simpa using h.rx.perr⟩
  · rw [List.take_append_of_le_length hj]
    exact h.rx.acc
  · rw [hlen, half_toNat_succ (by omega), hcount]

theorem edc (hj : 3 + n ≤ bs.length) (hn : n ≤ 254) (hmore : bs.length < 3 + n + edcLen s.ctrl.edcKind) (b : Byte) :
    s.Received n (bs ++ [b]) (parseEdc b false t) := by
  have hedc := (edcLen_pos s.ctrl.edcKind).2
  have hcount := h.rx.count
  have hsucc : (t.rx.count + 1).toNat = bs.length + 1 := by rw [half_toNat_succ (by omega), hcount]
  have hcond : (t.rx.count + 1).toNat = 3 + t.rx.len.toNat + edcLen t.rx.latch ↔
      bs.length + 1 = 3 + n + edcLen s.ctrl.edcKind := by rw [hsucc, h.rx.len (by omega), h.rx.latch]
  have hstored := storeRx_notePerr_eq b false t
  by_cases hlast : bs.length + 1 = 3 + n + edcLen s.ctrl.edcKind
  case pos =>
    have e : parseEdc b false t = completeFrame ((t.storeRx b).notePerr false) := if_pos (hcond.2 hlast)
    have hold : t.rx.state ≠ .done := by
      rw [h.rx.state]
      exact frameState_ne_done hmore
    rw [e, hstored]
    refine ⟨h.ctrl, h.ifs, h.after_edc hj hn hmore (frameState_done hlast.ge).symm b,
      State.rxBytes_of_write h.bytes (by rw [← hcount]; rfl) rfl, ?_, fun _ => rfl⟩
    exact congrArg (· ||| Event.rxDone.mask) (h.pending.trans (if_neg hold))
  case neg =>
    have e : parseEdc b false t = ((t.storeRx b).notePerr false).restartIbt := if_neg (mt hcond.1 hlast)
    rw [e, hstored]
    apply restartIbt
    refine h.store hcount (by omega) (h.after_edc hj hn hmore ?_ b)
    rw [h.rx.state, frameState_edc hj hmore, frameState_edc (by omega) (by omega)]

/-- R195 to R198: any byte of the frame after the first. -/
theorem next (hm : s.ctrl.rxMode = .t1) (hn : n ≤ 254) (hifs : n ≤ s.ifs.ifsd.toNat) (hpos : 1 ≤ bs.length)
    (hmore : bs.length < 3 + n + edcLen s.ctrl.edcKind) (hb : bs.length = 2 → b.toNat = n) :
    s.Received n (bs ++ [b]) (receiveByte b false t) := by
  have hstate := h.rx.state
  rw [receiveByte_t1 (by rw [h.ctrl]; exact hm), parse]
  rcases (by omega : bs.length = 1 ∨ bs.length = 2 ∨ (3 ≤ bs.length ∧ bs.length < 3 + n) ∨ 3 + n ≤ bs.length) with
    h1 | h2 | ⟨h3, hinf⟩ | hedc
  · rw [h1] at hstate
    rw [show t.rx.state = .pcb from hstate]
    exact h.pcb h1 b
  · rw [h2] at hstate
    rw [show t.rx.state = .len from hstate]
    exact h.len h2 (hb h2) hn hifs
  · rw [hstate, frameState_inf h3 hinf]
    exact h.inf h3 hinf hn b
  · rw [hstate, frameState_edc hedc hmore]
    exact h.edc hedc hn hmore b

end State.Received

/-- R193: the node address begins a frame. -/
theorem received_nad (hm : s.ctrl.rxMode = .t1) (hs : s.rx.state = .addr) (n : Nat) :
    s.Received n [s.nad.rx] (receiveByte s.nad.rx false s) := by
  rw [receiveByte_t1 hm, parse, hs]
  show s.Received n _ (parseAddr s.nad.rx false s)
  rw [parseAddr_eq_of_match rfl]
  apply State.Received.restartIbt
  have hbytes := State.rxBytes_of_write (s := s) (bs := []) (b := s.nad.rx)
    (t := { s with rxbuf := Memory.write s.rxbuf 0 s.nad.rx }) rfl rfl rfl
  refine ⟨rfl, rfl, ⟨rfl, rfl, ?_, rfl, fun h3 => by simp at h3, rfl⟩, hbytes, rfl, fun hdone => by cases hdone⟩
  rw [List.take_of_length_le (Nat.le_add_right_of_le (by simp))]
  rfl

/-! ### The parser's side: a run of RX_PUSH -/

theorem exec_rxPush (hen : s.ctrl.en = true) (b : Byte) :
    exec (.rxPush b) s = .next ((receiveByte b false s).setResult 0).pass := by
  have hdeliver : deliver b false .sw s = receiveByte b false s := by simp [deliver, hen]
  rw [← hdeliver]
  exact commandEnabled_of_pass s [] _ hen (by simp)

/-- R209: the further bytes of a frame that has begun. -/
theorem State.Received.runOk_rxPush (hen : s.ctrl.en = true) (hm : s.ctrl.rxMode = .t1) (hn : n ≤ 254)
    (hifs : n ≤ s.ifs.ifsd.toNat) {rest : List Byte} (h : s.Received n bs t) (hpos : 1 ≤ bs.length)
    (hfit : (bs ++ rest).length ≤ 3 + n + edcLen s.ctrl.edcKind)
    (hlen : ∀ l, (bs ++ rest)[2]? = some l → l.toNat = n) :
    ∃ u, runOk (rest.map .rxPush) t = some u ∧ s.Received n (bs ++ rest) u := by
  induction rest generalizing bs t with
  | nil => exact ⟨t, rfl, by rw [List.append_nil]; exact h⟩
  | cons b rest ih =>
    have hmore : bs.length < 3 + n + edcLen s.ctrl.edcKind := by
      rw [List.length_append, List.length_cons] at hfit
      omega
    have hb : bs.length = 2 → b.toNat = n := fun h2 => hlen b (by simp [← h2])
    have hnext := (h.next hm hn hifs hpos hmore hb).congr (u := ((receiveByte b false t).setResult 0).pass) rfl
    rw [List.append_cons] at hfit hlen ⊢
    obtain ⟨u, hrun, hu⟩ := ih hnext (by simp) hfit hlen
    exact ⟨u, (runOk_cons _ _ _ _ (exec_rxPush (by rw [h.ctrl]; exact hen) b) rfl).trans hrun, hu⟩

/-- R209: a frame from its first byte on, or the beginning of one. -/
theorem runOk_rxPush_received (hen : s.ctrl.en = true) (hm : s.ctrl.rxMode = .t1) (hs : s.rx.state = .addr)
    (hn : n ≤ 254) (hifs : n ≤ s.ifs.ifsd.toNat) {rest : List Byte}
    (hfit : (s.nad.rx :: rest).length ≤ 3 + n + edcLen s.ctrl.edcKind)
    (hlen : ∀ l, (s.nad.rx :: rest)[2]? = some l → l.toNat = n) :
    ∃ u, runOk ((s.nad.rx :: rest).map .rxPush) s = some u ∧ s.Received n (s.nad.rx :: rest) u := by
  have hfirst := (received_nad hm hs n).congr (u := ((receiveByte s.nad.rx false s).setResult 0).pass) rfl
  obtain ⟨u, hrun, hu⟩ := hfirst.runOk_rxPush hen hm hn hifs (rest := rest) (Nat.le_refl _) hfit hlen
  exact ⟨u, (runOk_cons _ _ _ _ (exec_rxPush hen _) rfl).trans hrun, hu⟩

/-! ### A complete frame, read back -/

theorem map_range_add {α : Type} (f : Nat → α) (m n : Nat) :
    (List.range (m + n)).map f = (List.range m).map f ++ (List.range n).map (fun j => f (m + j)) := by
  rw [List.range_add, List.map_append, List.map_map]
  rfl

/-- R200: a frame that has come whole is held, its EDC bytes behind its body, and RX_INFO tells of it. -/
theorem State.Received.complete {body edc : List Byte} (h : s.Received n (body ++ edc) t) (hbody : body.length = 3 + n)
    (hedc : edc.length = edcLen s.ctrl.edcKind) :
    t.rx.state = .done ∧ t.rxInfo = frameInfo t ∧ t.rx.len.toNat = n ∧ (List.range (3 + n)).map t.rxByte = body ∧
    (edcMatches t = true ↔ edc = edcBytes s.ctrl.edcKind (edcFeedAll s.ctrl.edcKind (edcInit s.ctrl.edcKind) body)) := by
  have htotal : (body ++ edc).length = 3 + n + edcLen s.ctrl.edcKind := by rw [List.length_append, hbody, hedc]
  have hdone : t.rx.state = .done := h.rx.state.trans (frameState_done htotal.ge)
  have hlen : t.rx.len.toNat = n := h.rx.len (by omega)
  have hbytes := h.bytes
  rw [htotal, map_range_add] at hbytes
  obtain ⟨hb, he⟩ := List.append_inj hbytes (by simp [hbody])
  refine ⟨hdone, h.info hdone, hlen, hb, ?_⟩
  rw [edcMatches, decide_eq_true_eq, h.rx.latch, h.rx.acc, hlen, he, ← hbody, List.take_left]

theorem classify_pcbI (m ns : Bool) : classify (pcbI m ns) = ⟨.iBlock, ns, m, 0, false⟩ := by
  cases m <;> cases ns <;> rfl

theorem classify_pcbR (code : BitVec 4) (nr : Bool) :
    classify (pcbR code nr) = ⟨.rBlock, nr, false, 0#1 ++ code, decide (code > 2)⟩ := by
  revert code nr
  decide

theorem classify_pcbS (scmd : BitVec 5) (resp : Bool) :
    classify (pcbS scmd resp) = ⟨.sBlock, false, resp, scmd, decide (scmd > 4) || (decide (scmd = 4) && !resp)⟩ := by
  revert scmd resp
  decide

/-- R107, R200: a whole block pushed to the parser is held as a frame with its control byte, its INF and a right EDC. -/
theorem runOk_rxPush_blockBytes (hen : s.ctrl.en = true) (hm : s.ctrl.rxMode = .t1) (hs : s.rx.state = .addr)
    {inf : List Byte} (hmax : inf.length ≤ 254) (hifs : inf.length ≤ s.ifs.ifsd.toNat) (pcb : Byte) :
    ∃ u, runOk ((blockBytes s.ctrl.edcKind s.nad.rx pcb inf).map .rxPush) s = some u ∧ u.rx.state = .done ∧
      u.rxInfo = frameInfo u ∧ u.rx.len.toNat = inf.length ∧ u.rxByte 1 = pcb ∧ edcMatches u = true ∧
      (List.range inf.length).map (fun k => u.rxByte (3 + k)) = inf := by
  let body := s.nad.rx :: pcb :: BitVec.ofNat 8 inf.length :: inf
  let edc := edcBytes s.ctrl.edcKind (edcFeedAll s.ctrl.edcKind (edcInit s.ctrl.edcKind) body)
  have hbody : body.length = 3 + inf.length := by
    simp only [body, List.length_cons]
    omega
  have hedc : edc.length = edcLen s.ctrl.edcKind := edcBytes_length _ _
  have hlen : (BitVec.ofNat 8 inf.length).toNat = inf.length := by rw [BitVec.toNat_ofNat, Nat.mod_eq_of_lt (by omega)]
  obtain ⟨u, hrun, hu⟩ := runOk_rxPush_received hen hm hs hmax hifs
    (rest := pcb :: BitVec.ofNat 8 inf.length :: inf ++ edc)
    (by show (body ++ edc).length ≤ _; rw [List.length_append, hbody, hedc])
    (fun l hl => by rw [← Option.some.inj hl]; exact hlen)
  obtain ⟨hdone, hinfo, hulen, hbytes, hmatch⟩ := State.Received.complete (body := body) (edc := edc) hu hbody hedc
  rw [map_range_add] at hbytes
  obtain ⟨hheader, hinf⟩ := List.append_inj (s₂ := [s.nad.rx, pcb, BitVec.ofNat 8 inf.length]) (t₂ := inf) hbytes
    (by simp)
  simp only [List.range, List.range.loop, List.map_cons, List.cons.injEq] at hheader
  obtain ⟨-, hpcb, -⟩ := hheader
  exact ⟨u, hrun, hdone, hinfo, hulen, hpcb, hmatch.2 rfl, hinf⟩

end Sys2Proof.Machine

open Sys2Proof Sys2Proof.Machine

/-- Settles O34: all three commands open a block, whose bytes the parser, untouched so far, takes as one frame. -/
theorem roundTrip : Obligations.RoundTrip := by
  intro s i inf kind seq more code hi hf hc hen hm hs ho hnad hifsd hspace
  obtain ⟨-, -, hifsLegal, -⟩ := hc
  obtain ⟨-, hifsMax⟩ := (ifsLegal_iff _).1 hifsLegal
  have hlen : (BitVec.ofNat 8 inf.length).toNat = inf.length := by rw [BitVec.toNat_ofNat, Nat.mod_eq_of_lt (by omega)]
  have hblock : s.blockSize (BitVec.ofNat 8 inf.length) ≤ s.free := by rw [State.blockSize, hlen]; exact hspace
  obtain ⟨pcb, hexec, hkind, hseq, hmore, hcode⟩ : ∃ pcb,
      exec i s = .next (openBlock pcb (BitVec.ofNat 8 inf.length) s).pass ∧ (classify pcb).kind = kind ∧
      (classify pcb).seq = seq ∧ (classify pcb).more = more ∧ (classify pcb).code = code := by
    rcases hi with ⟨m, ns, rfl, hifsc, rfl, rfl, rfl, rfl⟩ | ⟨c, nr, rfl, rfl, rfl, rfl, rfl, rfl⟩ |
      ⟨c, resp, rfl, hone, rfl, rfl, rfl, rfl⟩
    case inl =>
      refine ⟨_, exec_encI hen ho (fun h => ?_) (by rw [BitVec.le_def, hlen]; exact hifsc) hblock _ _, ?_⟩
      · rw [h, show (0xFF : Byte).toNat = 255 from rfl] at hlen
        omega
      · rw [classify_pcbI]
        exact ⟨rfl, rfl, rfl, rfl⟩
    case inr.inl =>
      refine ⟨_, exec_encR hen ho hblock _ _, ?_⟩
      rw [classify_pcbR]
      exact ⟨rfl, rfl, rfl, rfl⟩
    case inr.inr =>
      refine ⟨_, exec_encS hen ho (by rw [BitVec.le_def, hlen]; exact hone) hblock _ _, ?_⟩
      rw [classify_pcbS]
      exact ⟨rfl, rfl, rfl, rfl⟩
  obtain ⟨t, hrun, hlive⟩ := runOk_encData_openBlock hf hen pcb (by omega) hspace
  obtain ⟨hctrl, hnad', hifs, hrx⟩ := ((openBlock_only hf pcb hblock).trans (runOk_encData_only hrun)).receivePath
  obtain ⟨u, hpush, hdone, hinfo, hulen, hpcb, hedcOk, hinf⟩ := runOk_rxPush_blockBytes (s := t) (by rw [hctrl, hen])
    (by rw [hctrl, hm]) (by rw [hrx, hs]) (hifsd.trans hifsMax) (by rw [hifs]; exact hifsd) pcb
  rw [hctrl, hnad', hnad] at hpush
  refine ⟨t, (runOk_cons _ _ _ _ hexec rfl).trans hrun, u, by rw [hlive, List.drop_left]; exact hpush, hdone, ?_⟩
  rw [hinfo, frameInfo, hpcb]
  exact ⟨hkind, hseq, hmore, hcode, hulen, hedcOk, hinf⟩
end

section
/-! PROOFS. The received-byte path (43_decoder.md R190 to R209): the effect of one byte on the parser and on RAW capture
as one equation each, the classification of a control byte by its fields, and the frames made of such bytes. -/

namespace Sys2Proof.Machine

variable {s t u : State} {b : Byte}

/-! ### One byte as one equation: RAW capture, and what the parser drops or refuses (R191, R193, R196, R198, R199) -/

/-- R191: RAW capture while the buffer has room. -/
theorem rawCapture_eq_of_room (h : s.rx.count.toNat < Config.rxbufSize) (b : Byte) (perr : Bool) :
    rawCapture b perr s = State.restartIbt { s with
      rx := { s.rx with count := s.rx.count + 1, rawPerr := s.rx.rawPerr || perr }
      rxbuf := Memory.write s.rxbuf s.rx.count.toNat b } := by
  rw [rawCapture, if_pos h]
  cases perr with
  | false => rw [Bool.or_false]; rfl
  | true => rw [Bool.or_true]; rfl

/-- R191: RAW capture when the buffer is full. -/
theorem rawCapture_eq_of_full (h : Config.rxbufSize ≤ s.rx.count.toNat) (b : Byte) (perr : Bool) :
    rawCapture b perr s = (s.raise .rxOvf).restartIbt := by
  rw [rawCapture, if_neg (Nat.not_lt.2 h)]

/-- R193: any other byte than the node address in ADDR. -/
theorem parseAddr_eq_of_mismatch (h : b ≠ s.nad.rx) (perr : Bool) :
    parseAddr b perr s = (s.setRxState .skip).restartIbt := by
  rw [parseAddr, if_neg h]

/-- R196, R199: a length, whether it is refused or not. -/
theorem parseLen_eq (b : Byte) (perr : Bool) (s : State) :
    let refused := decide (b = 0xFF) || decide (s.ifs.ifsd < b)
    parseLen b perr s = State.restartIbt { s with
      rx := { s.rx with
        state := if refused then .skip else if b = 0 then .edc else .inf
        count := if refused then 0 else 3
        perr := s.rx.perr || perr, acc := edcFeed s.rx.latch s.rx.acc b, len := b }
      rxErrCause := if b = 0xFF then .lenReserved else if s.ifs.ifsd < b then .lenOverIfsd else s.rxErrCause
      irqPend := if refused then s.irqPend ||| 0x0002 else s.irqPend
      rxbuf := Memory.write s.rxbuf 2 b } := by
  by_cases hmax : b = 0xFF
  · simp only [parseLen, abortFrame, hmax, if_true, decide_true, Bool.true_or, State.writeRx, State.setRxCount,
      State.feedRx, State.notePerr, State.setRxState, State.raise]
    rfl
  · by_cases hifs : s.ifs.ifsd < b
    · simp only [parseLen, abortFrame, hmax, hifs, if_true, if_false, decide_true, Bool.or_true, State.writeRx,
        State.setRxCount, State.feedRx, State.notePerr, State.setRxState, State.raise]
      rfl
    · rw [parseLen_eq_of_accepted hmax (BitVec.not_lt.1 hifs) perr]
      simp only [hmax, hifs, decide_false, Bool.or_false, Bool.false_eq_true, if_false]

/-- R198: an EDC byte that is not the last. -/
theorem parseEdc_eq_of_more (h : (s.rx.count + 1).toNat ≠ 3 + s.rx.len.toNat + edcLen s.rx.latch) (b : Byte)
    (perr : Bool) : parseEdc b perr s = ((s.storeRx b).notePerr perr).restartIbt := if_neg h

/-- R198, R200: the last EDC byte. -/
theorem parseEdc_eq_of_last (h : (s.rx.count + 1).toNat = 3 + s.rx.len.toNat + edcLen s.rx.latch) (b : Byte)
    (perr : Bool) : parseEdc b perr s = completeFrame ((s.storeRx b).notePerr perr) := if_pos h

/-! ### What a received byte leaves in the buffer -/

/-- A byte written to the buffer: it reads back, and every other one is as before. -/
theorem State.stored_of_write {k : Nat} (hbuf : t.rxbuf = Memory.write s.rxbuf k b) (hr : t.resets = s.resets) :
    t.rxByte k = b ∧ ∀ j, j ≠ k → t.rxByte j = s.rxByte j :=
  ⟨(State.rxByte_of_write hbuf hr k).trans (if_pos rfl), fun j hj =>
    (State.rxByte_of_write hbuf hr j).trans (if_neg hj)⟩

/-- R227: a byte is stored, `u` says what else changes, and the inter-byte timer restarts. -/
theorem State.stored_of_restartIbt {k : Nat} (e : t = u.restartIbt) (htmo : u.tmoIbt ≠ 0)
    (hbuf : u.rxbuf = Memory.write s.rxbuf k b) (hr : u.resets = s.resets) :
    t = { u with rxbuf := t.rxbuf, tmr := { u.tmr with ibt := ⟨u.tmoIbt, true, true⟩ } } ∧
    t.rxByte k = b ∧ ∀ j, j ≠ k → t.rxByte j = s.rxByte j := by
  rw [u.restartIbt_eq htmo] at e
  subst e
  exact ⟨rfl, State.stored_of_write hbuf hr⟩

/-! ### Where a received byte goes (R190, R207) -/

theorem receiveByte_raw (hm : s.ctrl.rxMode = .raw) (b : Byte) (perr : Bool) :
    receiveByte b perr s = rawCapture b perr s := by
  rw [receiveByte, hm]

/-- R207: a byte of RX_PUSH. -/
theorem deliver_sw (hen : s.ctrl.en = true) (b : Byte) (perr : Bool) :
    deliver b perr .sw s = receiveByte b perr s := by
  simp [deliver, hen]

/-- R190: a byte of the line. -/
theorem deliver_uart (hen : s.ctrl.en = true) (b : Byte) (perr : Bool) :
    deliver b perr .uart s =
      if s.ctrl.port ≠ .uart then s
      else if s.ctrl.lbsEn = true ∧ s.lbsCount ≠ 0 then { s with lbsCount := s.lbsCount - 1 }
      else receiveByte b perr s := by
  rw [deliver, if_neg (by simp [hen])]

/-- R190: a byte of a bulk-in message. -/
theorem deliver_usb (hen : s.ctrl.en = true) (b : Byte) (perr : Bool) :
    deliver b perr .usb s = if s.ctrl.port ≠ .usb then s else receiveByte b perr s := by
  rw [deliver, if_neg (by simp [hen])]

/-! ### Control bytes by their fields (R201, R202) -/

/-- The field a concatenation ends with. -/
theorem extract_low {n k : Nat} (hi : BitVec n) (lo : BitVec k) : (hi ++ lo).extractLsb' 0 k = lo :=
  (BitVec.extractLsb'_append_eq_of_add_le (by omega)).trans BitVec.extractLsb'_eq_self

/-- R201, R202: an I-block, bit 7 of whose control byte is 0. -/
theorem classify_iBlock (m ns : Bool) (low : BitVec 5) (len : Byte) :
    let p : Byte := 0#1 ++ BitVec.ofBool ns ++ BitVec.ofBool m ++ low
    classify p = ⟨.iBlock, ns, m, 0, decide (low ≠ 0)⟩ ∧ lenMismatch p len = false := by
  intro p
  have h7 : p.getLsbD 7 = false := BitVec.getLsbD_append.trans (by cases ns <;> cases m <;> rfl)
  have h6 : p.getLsbD 6 = ns := BitVec.getLsbD_append.trans (by cases ns <;> cases m <;> rfl)
  have h5 : p.getLsbD 5 = m := BitVec.getLsbD_append.trans (by cases ns <;> cases m <;> rfl)
  have hlow : p.extractLsb' 0 5 = low := extract_low _ low
  rw [classify, lenMismatch, h7, h6, h5, hlow]
  exact ⟨rfl, rfl⟩

/-- R201, R202: an R-block, bits 7 and 6 of whose control byte are 10. -/
theorem classify_rBlock (b5 nr : Bool) (code : BitVec 4) (len : Byte) :
    let p : Byte := 0b10#2 ++ BitVec.ofBool b5 ++ BitVec.ofBool nr ++ code
    classify p = ⟨.rBlock, nr, false, 0#1 ++ code, b5 || decide (2 < code.toNat)⟩ ∧
    lenMismatch p len = decide (len ≠ 0) := by
  intro p
  have h7 : p.getLsbD 7 = true := BitVec.getLsbD_append.trans (by cases b5 <;> cases nr <;> rfl)
  have h6 : p.getLsbD 6 = false := BitVec.getLsbD_append.trans (by cases b5 <;> cases nr <;> rfl)
  have h5 : p.getLsbD 5 = b5 := BitVec.getLsbD_append.trans (by cases b5 <;> cases nr <;> rfl)
  have h4 : p.getLsbD 4 = nr := BitVec.getLsbD_append.trans (by cases b5 <;> cases nr <;> rfl)
  have hcode : p.extractLsb' 0 4 = code := extract_low _ code
  rw [classify, lenMismatch, h7, h6, h5, h4, hcode]
  exact ⟨rfl, rfl⟩

/-- R201, R202: an S-block, bits 7 and 6 of whose control byte are 11; the commands 0 to 4 fix its length. -/
theorem classify_sBlock (resp : Bool) (scmd : BitVec 5) (len : Byte) :
    let p : Byte := 0b11#2 ++ BitVec.ofBool resp ++ scmd
    classify p = ⟨.sBlock, false, resp, scmd, decide (4 < scmd.toNat) || (decide (scmd = 4) && !resp)⟩ ∧
    lenMismatch p len =
      if scmd = 1 ∨ scmd = 3 then decide (len ≠ 1) else if scmd.toNat ≤ 4 then decide (len ≠ 0) else false := by
  intro p
  have h7 : p.getLsbD 7 = true := BitVec.getLsbD_append.trans (by cases resp <;> rfl)
  have h6 : p.getLsbD 6 = true := BitVec.getLsbD_append.trans (by cases resp <;> rfl)
  have h5 : p.getLsbD 5 = resp := BitVec.getLsbD_append.trans (by cases resp <;> rfl)
  have hscmd : p.extractLsb' 0 5 = scmd := extract_low _ scmd
  rw [classify, lenMismatch, h7, h6, h5, hscmd]
  have heven : (scmd = 0 ∨ scmd = 2 ∨ scmd = 4) ↔ (scmd ≠ 1 ∧ scmd ≠ 3) ∧ scmd.toNat ≤ 4 := by bv_omega
  refine ⟨rfl, ?_⟩
  simp only [Bool.true_eq_false, if_false]
  split
  · rfl
  · next hodd => simp only [heven, not_or.1 hodd, ne_eq, not_false_eq_true, true_and]

/-! ### Frames (R209) -/

/-- R209: the receiver while the first bytes of a frame, fewer than all of them, have come. -/
theorem State.Received.incomplete {n : Nat} {bs : List Byte} (h : s.Received n bs t)
    (hmore : bs.length < 3 + n + edcLen s.ctrl.edcKind) : t.rx.state ≠ .done ∧ t.irqPend = s.irqPend := by
  have hstate : t.rx.state ≠ .done := by
    rw [h.rx.state]
    exact frameState_ne_done hmore
  exact ⟨hstate, h.pending.trans (if_neg hstate)⟩

/-- R209: any number of bytes of a frame, from its first byte on. -/
theorem runOk_rxPush_take (hen : s.ctrl.en = true) (hm : s.ctrl.rxMode = .t1) (hs : s.rx.state = .addr)
    {inf edc : List Byte} (hmax : inf.length ≤ 254) (hifs : inf.length ≤ s.ifs.ifsd.toNat) (p : Byte)
    (hedc : edc.length = edcLen s.ctrl.edcKind) (j : Nat) :
    let bytes := s.nad.rx :: p :: BitVec.ofNat 8 inf.length :: inf ++ edc
    ∃ u, runOk ((bytes.take (j + 1)).map .rxPush) s = some u ∧ s.Received inf.length (bytes.take (j + 1)) u := by
  intro bytes
  refine runOk_rxPush_received hen hm hs hmax hifs (rest := List.take j _) ?_ fun l hl => ?_
  · have htotal : bytes.length = 3 + inf.length + edcLen s.ctrl.edcKind := by
      simp only [bytes, List.length_append, List.length_cons, hedc]
      omega
    exact (List.length_take_le' _ _ : (bytes.take (j + 1)).length ≤ _).trans htotal.le
  · have hthird : (bytes.take (j + 1))[2]? = some l := hl
    rw [List.getElem?_take] at hthird
    split at hthird
    · rw [← Option.some.inj hthird, BitVec.toNat_ofNat, Nat.mod_eq_of_lt (by omega)]
    · cases hthird

end Sys2Proof.Machine

open Sys2Proof Sys2Proof.Machine

/-- Settles O35: both restarts are `restartRx_eq`; the CTRL write applies it because it changes RX_MODE and does not
disable. -/
theorem rxRestartAndRelease : Obligations.RxRestartAndRelease := by
  intro s restarted
  refine ⟨?_, fun v hen hmode => ?_, ?_⟩
  · refine ChecksThen.of_command (effect := (restartRx s).setResult 0) rfl (by simp) fun _ => ?_
    rw [restartRx_eq]
    rfl
  · have hstays : ¬s.disables v := fun ⟨hon, hoff⟩ => by rw [hen hon] at hoff; cases hoff
    have hchange : s.ctrl.rxMode ≠ (s.ctrlWritten v).rxMode := by
      show s.ctrl.rxMode ≠ RxMode.ofBit (v.getLsbD 4)
      cases hm : s.ctrl.rxMode with
      | raw => rw [hmode.2 hm]; decide
      | t1 => rw [Bool.eq_false_iff.2 (mt hmode.1 (by rw [hm]; decide))]; decide
    refine ⟨writeCtrl v s, busWrite_reg s .ctrl v, ?_⟩
    rw [writeCtrl_ctrl, writeCtrl_eq]
    dsimp only
    rw [if_neg hstays, if_pos hchange, restartRx_eq]
  · exact ChecksThen.of_command (effect := ((s.setRxState .addr).setRxCount 0).setResult 0) rfl (by simp) fun _ => rfl

/-- Settles O36: `deliver` with EN = 1, source by source. -/
theorem receivedByteRouting : Obligations.ReceivedByteRouting := by
  intro s b perr
  refine ⟨?_, fun hen src => if_pos hen, fun hen => ?_⟩
  · refine ChecksThen.of_command (effect := (deliver b false .sw s).setResult 0) rfl (by simp) fun hpass => ?_
    have hen : s.ctrl.en = true := by simpa using hpass (s.ctrl.en = false, .eDisabled) (by simp)
    rw [deliver_sw hen]
    rfl
  · rw [deliver_uart hen, deliver_usb hen]
    refine ⟨fun hp => if_pos hp, fun hp => if_pos hp, fun hp hl hc => ?_, fun hp hecho => ?_, fun hp => ?_⟩
    · rw [if_neg (not_not.2 hp), if_pos ⟨hl, hc⟩]
    · rw [if_neg (not_not.2 hp), if_neg]
      rintro ⟨hl, hc⟩
      exact hecho.elim (fun h => by simp [h] at hl) hc
    · rw [if_neg (not_not.2 hp)]

/-- Settles O37: RAW capture with room and without, then the timer's restart. -/
theorem rawCapture : Obligations.RawCapture := by
  intro s b perr hm htmo t
  have ht : t = Machine.rawCapture b perr s := receiveByte_raw hm b perr
  refine ⟨fun hroom => ?_, fun hfull => ?_⟩
  · exact State.stored_of_restartIbt (ht.trans (rawCapture_eq_of_room hroom b perr)) htmo rfl rfl
  · exact (ht.trans (rawCapture_eq_of_full hfull b perr)).trans (State.restartIbt_eq _ htmo)

/-- Settles O38: in each state the parser's one equation, then the timer's restart and the byte stored. -/
theorem parserHeader : Obligations.ParserHeader := by
  intro s b perr hm htmo t ibt k stored
  have ht : t = parse b perr s := receiveByte_t1 hm b perr
  refine ⟨fun hs hnad => ?_, fun hs hnad => ?_, fun hs => ?_, fun hs => ?_, fun hs => ?_, fun hs => ?_⟩ <;>
    rw [parse, hs] at ht
  · exact State.stored_of_restartIbt (ht.trans (parseAddr_eq_of_match hnad perr)) htmo rfl rfl
  · exact (ht.trans (parseAddr_eq_of_mismatch hnad perr)).trans (State.restartIbt_eq _ htmo)
  · exact ht.trans (State.restartIbt_eq s htmo)
  · exact State.stored_of_restartIbt (ht.trans (parsePcb_eq b perr s)) htmo rfl rfl
  · exact State.stored_of_restartIbt (ht.trans (parseLen_eq b perr s)) htmo rfl rfl
  · exact ht

/-- Settles O39: as O38; RX_INFO of the completed frame is read from the state that holds the last byte. -/
theorem parserPayload : Obligations.ParserPayload := by
  intro s b perr hm htmo t ibt stored
  have ht : t = parse b perr s := receiveByte_t1 hm b perr
  refine ⟨fun hs => ?_, fun hs hmore => ?_, fun hs hlast => ?_⟩ <;> rw [parse, hs] at ht
  · have e := parseInf_eq b perr s
    rw [hs] at e
    exact State.stored_of_restartIbt (ht.trans e) htmo rfl rfl
  · have e := parseEdc_eq_of_more hmore b perr
    rw [storeRx_notePerr_eq] at e
    exact State.stored_of_restartIbt (ht.trans e) htmo rfl rfl
  · have e : t = completeFrame ((s.storeRx b).notePerr perr) := ht.trans (parseEdc_eq_of_last hlast b perr)
    rw [storeRx_notePerr_eq] at e
    exact ⟨e.trans (by rw [e]; rfl), State.stored_of_write (by rw [e]; rfl) (by rw [e]; rfl)⟩

/-- Settles O40: a control byte of each kind by its fields. -/
theorem controlByteClasses : Obligations.ControlByteClasses :=
  ⟨classify_iBlock, classify_rBlock, classify_sBlock⟩

/-- Settles O41: the expiry, state by state. -/
theorem interByteExpiry : Obligations.InterByteExpiry := by
  intro s
  unfold onIbtExpiry
  refine ⟨fun hs => ?_, fun hs => ?_, fun hs => ?_, fun hs => ?_⟩
  · rw [hs]
    by_cases hc : s.rx.count = 0
    · exact (if_neg (not_not.2 hc)).trans (by rw [if_pos hc])
    · exact (if_pos hc).trans (by rw [if_neg hc]; rfl)
  · rw [hs]
    rfl
  · rcases hs with hs | hs | hs | hs <;> rw [hs] <;> rfl
  · rcases hs with hs | hs <;> rw [hs]

/-- Settles O42: after any number of bytes the receiver holds them as `State.Received` says, and whether the frame is
whole decides RX_STATE and the event. -/
theorem frameCompletes : Obligations.FrameCompletes := by
  intro s p inf edc hc hen hm hs hifs hedc body bytes
  obtain ⟨-, -, hifsLegal, -⟩ := hc
  obtain ⟨-, hifsMax⟩ := (ifsLegal_iff _).1 hifsLegal
  have hbody : body.length = 3 + inf.length := by
    simp only [body, List.length_cons]
    omega
  have htotal : bytes.length = 3 + inf.length + edcLen s.ctrl.edcKind := by rw [List.length_append, hbody, hedc]
  have htake := runOk_rxPush_take hen hm hs (by omega) hifs p hedc
  refine ⟨fun j hj => ?_, ?_⟩
  · cases j with
    | zero => exact ⟨s, rfl, by rw [hs]; decide, rfl⟩
    | succ j =>
      obtain ⟨u, hrun, hu⟩ := htake j
      exact ⟨u, hrun, hu.incomplete (by rw [List.length_take]; omega)⟩
  · obtain ⟨t, hrun, ht⟩ := htake (bytes.length - 1)
    rw [Nat.sub_add_cancel (by omega), List.take_length] at hrun ht
    obtain ⟨hdone, hinfo, hulen, hbytes, hmatch⟩ := ht.complete hbody hedc
    have hpcb : t.rxByte 1 = p := by
      have h1 : ((List.range (3 + inf.length)).map t.rxByte)[1]? = body[1]? := by rw [hbytes]
      rw [List.getElem?_map, List.getElem?_range (by omega)] at h1
      exact Option.some.inj h1
    refine ⟨t, hrun, hdone, ht.pending.trans (if_pos hdone), ht.rx.count, ht.bytes, ?_⟩
    rw [hinfo]
    exact ⟨hpcb, hulen, hmatch, ht.rx.perr, rfl⟩
end

section
/-! PROOFS. The timers (44_timers.md R220 to R229): what TMR_START, TMR_STOP and TICK make of one channel, everything a
TICK does as one equation, and the time a started channel takes to expire. -/

namespace Sys2Proof.Machine

variable {s : State} {c : Channel} {e : Half}

/-! ### Starting and stopping the channel of a TID (R225, R226) -/

/-- R225: a TID names the one channel that a start writes. -/
theorem startTid_get (tid : BitVec 2) (ms : Half) (s : State) (c : Channel) :
    (startTid tid ms s).tmr.get c =
      if channelOf tid ≠ some c then s.tmr.get c else if ms = 0 then ⟨0, false, false⟩ else ⟨ms, true, true⟩ := by
  unfold startTid
  cases channelOf tid with
  | none => exact (if_pos (by simp)).symm
  | some d =>
    rw [State.startTimer_get]
    simp [eq_comm (a := c)]

/-- R226: a TID names the one channel that a stop writes. -/
theorem stopTid_get (tid : BitVec 2) (s : State) (c : Channel) :
    (stopTid tid s).tmr.get c = if channelOf tid ≠ some c then s.tmr.get c else ⟨0, false, false⟩ := by
  unfold stopTid
  cases channelOf tid with
  | none => exact (if_pos (by simp)).symm
  | some d =>
    simp [Timers.get_set, Countdown.stopped, eq_comm (a := c)]

theorem startTid_only (tid : BitVec 2) (ms : Half) (s : State) :
    startTid tid ms s = { s with tmr := (startTid tid ms s).tmr } := by
  unfold startTid
  cases channelOf tid with
  | none => rfl
  | some c => exact s.startTimer_only c ms

theorem stopTid_only (tid : BitVec 2) (s : State) : stopTid tid s = { s with tmr := (stopTid tid s).tmr } := by
  unfold stopTid
  cases channelOf tid <;> rfl

theorem tidInRange_of_channelOf {tid : BitVec 2} (h : channelOf tid = some c) : tidInRange tid = true := by
  refine decide_eq_true fun htid => ?_
  rw [htid] at h
  cases h

theorem exec_tmrStart (hen : s.ctrl.en = true) {tid : BitVec 2} (htid : channelOf tid = some c) (ms : Half) :
    exec (.tmrStart tid ms) s =
      .next { s with tmr := (startTid tid ms s).tmr, cmdResult := 0, cmdStatus := .ok } := by
  refine (commandEnabled_of_pass s _ _ hen (by simp [tidInRange_of_channelOf htid])).trans ?_
  rw [startTid_only]
  rfl

/-! ### One channel in a TICK (R222) -/

theorem countdown_of_stopped {k : Countdown} (h : k.run = false) (e : Half) : countdown k e = (k, false) := by
  rw [countdown_eq, if_pos h]

/-- R222: a channel expires in a TICK of `e` when it runs, this is not its first call, and the TICK brings it to 0. -/
def Countdown.expires (k : Countdown) (e : Half) : Bool := k.run && !k.first && decide (k.rem.toNat ≤ e.toNat)

theorem countdown_snd (k : Countdown) (e : Half) : (countdown k e).2 = k.expires e := by
  cases h : k.run with
  | false => simp [countdown_of_stopped, Countdown.expires, h]
  | true => simp [countdown_eq, Countdown.expires, h]

/-- R222: a running channel loses the elapsed value, not below 0, and stops when it expires. -/
theorem countdown_fst_of_running {k : Countdown} (h : k.run = true) (e : Half) :
    (countdown k e).1 = ⟨BitVec.ofNat 16 (k.rem.toNat - e.toNat), !k.expires e, false⟩ := by
  have hrem : satSub k.rem e = BitVec.ofNat 16 (k.rem.toNat - e.toNat) := by
    rw [← satSub_toNat, BitVec.ofNat_toNat, BitVec.setWidth_eq]
  simp [countdown_eq, Countdown.expires, h, hrem]

/-! ### The expiries (R204, R224) -/

/-- The bit of an event that is raised only if `b`. -/
def Event.maskIf (ev : Event) (b : Bool) : BitVec 14 := if b then ev.mask else 0

theorem Event.getLsbD_mask (ev ev' : Event) : ev.mask.getLsbD ev'.bit = decide (ev' = ev) := by
  have hbit : ev.bit = ev'.bit ↔ ev' = ev := by cases ev <;> cases ev' <;> decide
  rw [show ev.mask = BitVec.twoPow 14 ev.bit from rfl, BitVec.getLsbD_twoPow]
  simp [hbit]

theorem Event.getLsbD_maskIf (ev ev' : Event) (b : Bool) :
    (ev.maskIf b).getLsbD ev'.bit = (decide (ev' = ev) && b) := by
  cases b with
  | false => simp [maskIf]
  | true => exact (getLsbD_mask ev ev').trans (Bool.and_true _).symm

/-- R204: the expiry of the inter-byte timer writes three fields, and reads the receiver alone. -/
theorem onIbtExpiry_eq (s : State) (m : Timers) (p : BitVec 14) :
    onIbtExpiry { s with tmr := m, irqPend := s.irqPend ||| p } =
      { s with
        tmr := m, irqPend := (onIbtExpiry s).irqPend ||| p
        rx := (onIbtExpiry s).rx, rxErrCause := (onIbtExpiry s).rxErrCause } := by
  have hor (q : BitVec 14) : s.irqPend ||| p ||| q = s.irqPend ||| q ||| p := by
    rw [BitVec.or_assoc, BitVec.or_comm p q, BitVec.or_assoc]
  obtain ⟨hraw, hskip, hframe, hidle⟩ := interByteExpiry s
  obtain ⟨hraw', hskip', hframe', hidle'⟩ := interByteExpiry { s with tmr := m, irqPend := s.irqPend ||| p }
  cases hs : s.rx.state with
  | raw =>
    rw [hraw hs, hraw' hs]
    by_cases hcount : s.rx.count = 0
    · simp only [if_pos hcount]
    · simp only [if_neg hcount, hor]
  | skip => rw [hskip hs, hskip' hs]
  | pcb | len | inf | edc => rw [hframe (by simp [hs]), hframe' (by simp [hs]), hor]
  | addr | done => rw [hidle (by simp [hs]), hidle' (by simp [hs])]

/-- R204, R224: an expiry of channel 0 acts on the receive path as it would before the countdowns, and raises IBT_EXP. -/
theorem expireIf_ibt (b : Bool) (s : State) (m : Timers) :
    let r := if b then onIbtExpiry s else s
    expireIf b .ibt { s with tmr := m } =
      { s with
        tmr := m, irqPend := r.irqPend ||| Event.ibtExp.maskIf b, rx := r.rx, rxErrCause := r.rxErrCause } := by
  cases b with
  | false => simp [expireIf, Event.maskIf]
  | true => exact onIbtExpiry_eq s m Event.ibtExp.mask

theorem expireIf_atr (b : Bool) (s : State) :
    expireIf b .atr s = { s with irqPend := s.irqPend ||| Event.atrExp.maskIf b } := by
  cases b with
  | false => simp [expireIf, Event.maskIf]
  | true => rfl

theorem expireIf_rsp (b : Bool) (s : State) :
    expireIf b .rsp s = { s with irqPend := s.irqPend ||| Event.rspExp.maskIf b } := by
  cases b with
  | false => simp [expireIf, Event.maskIf]
  | true => rfl

/-! ### TICK (R222, R223) -/

/-- R222, R223: everything a nonzero TICK does, from the state `p` after its presence sample. -/
theorem tick_eq (he : e ≠ 0) (s : State) :
    let p := sampleIfUart s
    let r := if p.tmr.ibt.expires e then onIbtExpiry p else p
    tick e s = { p with
      tmr := ⟨(countdown p.tmr.ibt e).1, (countdown p.tmr.atr e).1, (countdown p.tmr.rsp e).1⟩
      irqPend := r.irqPend ||| Event.ibtExp.maskIf (p.tmr.ibt.expires e) |||
        Event.atrExp.maskIf (p.tmr.atr.expires e) ||| Event.rspExp.maskIf (p.tmr.rsp.expires e)
      rx := r.rx, rxErrCause := r.rxErrCause
      cmdResult := 0#13 ++ BitVec.ofBool (p.tmr.rsp.expires e) ++ BitVec.ofBool (p.tmr.atr.expires e) ++
        BitVec.ofBool (p.tmr.ibt.expires e) } := by
  rw [tick, if_neg he]
  simp only [countdown_snd, expireIf_ibt, expireIf_atr, expireIf_rsp]
  rfl

theorem exec_tick (hen : s.ctrl.en = true) (e : Half) : exec (.tick e) s = .next (tick e s).pass :=
  commandEnabled_of_pass s [] _ hen (by simp)

theorem tick_tmr_get (he : e ≠ 0) (s : State) (c : Channel) :
    (tick e s).tmr.get c = (countdown ((sampleIfUart s).tmr.get c) e).1 := by
  rw [tick_eq he]
  cases c <;> rfl

/-! ### The presence sample in a run without a removal (R249, R250) -/

theorem abandonUartSend_only (s : State) : abandonUartSend s = { s with tx := (abandonUartSend s).tx } := by
  unfold abandonUartSend
  split <;> rfl

theorem dropFrameInProgress_only (s : State) :
    dropFrameInProgress s = { s with rx := (dropFrameInProgress s).rx } := by
  unfold dropFrameInProgress
  split
  · cases s.rx.state <;> rfl
  · rfl

/-- R250: a removal stops channel 0 at most, and leaves the detector as it is. -/
theorem removal_frame (s : State) :
    (removal s).present = s.present ∧ (removal s).debCnt = s.debCnt ∧
      ∀ c ≠ .ibt, (removal s).tmr.get c = s.tmr.get c := by
  simp only [removal]
  split
  · rw [dropFrameInProgress_only, abandonUartSend_only]
    exact ⟨rfl, rfl, fun c hc => (Timers.get_set _ _ _ _).trans (if_neg hc)⟩
  · exact ⟨rfl, rfl, fun _ _ => rfl⟩

/-- R249: STATUS.PRESENT changes to the sampled level only, the run of differing samples grows by one at most, and a
channel other than 0 is left alone. -/
theorem presenceSample_frame (s : State) :
    ((presenceSample s).present = s.present ∨ (presenceSample s).present = s.presenceLevel) ∧
      (presenceSample s).debCnt.toNat ≤ s.debCnt.toNat + 1 ∧
      ∀ c ≠ .ibt, (presenceSample s).tmr.get c = s.tmr.get c := by
  simp only [presenceSample]
  split
  · exact ⟨.inl rfl, Nat.zero_le _, fun _ _ => rfl⟩
  · split
    · split
      · exact ⟨.inr rfl, Nat.zero_le _, fun _ _ => rfl⟩
      · obtain ⟨hpresent, hcount, hget⟩ :=
          removal_frame { s with presPin := s.presenceLevel, present := s.presenceLevel, debCnt := 0 }
        exact ⟨.inr hpresent, by rw [hcount]; exact Nat.zero_le _, hget⟩
    · exact ⟨.inl rfl, Nat.mod_le _ _, fun _ _ => rfl⟩

/-- R250: no removal can stop channel `c` in the next `n` nonzero TICKs. -/
def State.KeepsChannel (s : State) (c : Channel) (n : Nat) : Prop :=
  c ≠ .ibt ∨ s.ctrl.port ≠ .uart ∨ s.pinLevel = s.presCfg.pol ∨ s.present = false ∨
    s.debCnt.toNat + n < s.presCfg.n.toNat

theorem State.KeepsChannel.presenceSample {n : Nat} (h : s.KeepsChannel c (n + 1)) (hport : s.ctrl.port = .uart) :
    (presenceSample s).tmr.get c = s.tmr.get c ∧ (presenceSample s).KeepsChannel c n := by
  obtain ⟨hpresent, hcount, hget⟩ := presenceSample_frame s
  have hlevel : s.presenceLevel = true ↔ s.pinLevel = s.presCfg.pol := beq_iff_eq
  have hpin : (Machine.presenceSample s).pinLevel = s.pinLevel ∧ (Machine.presenceSample s).presCfg = s.presCfg := by
    rw [presenceSample_only]
    exact ⟨rfl, rfl⟩
  rcases h with hc | hp | hpol | habsent | hrun
  · exact ⟨hget c hc, .inl hc⟩
  · exact absurd hport hp
  · exact ⟨by rw [presenceSample_tmr s (.inl (hlevel.2 hpol))], .inr (.inr (.inl (by rw [hpin.1, hpin.2, hpol])))⟩
  · refine ⟨by rw [presenceSample_tmr s (.inr (.inl habsent))], ?_⟩
    by_cases hpol : s.pinLevel = s.presCfg.pol
    · exact .inr (.inr (.inl (by rw [hpin.1, hpin.2, hpol])))
    · have hout : s.presenceLevel = false := Bool.eq_false_iff.2 (mt hlevel.1 hpol)
      exact .inr (.inr (.inr (.inl (hpresent.elim (·.trans habsent) (·.trans hout)))))
  · exact ⟨by rw [presenceSample_tmr s (.inr (.inr (by omega)))],
      .inr (.inr (.inr (.inr (by rw [hpin.2]; omega))))⟩

theorem State.KeepsChannel.sampleIfUart {n : Nat} (h : s.KeepsChannel c (n + 1)) :
    (sampleIfUart s).tmr.get c = s.tmr.get c ∧ (sampleIfUart s).KeepsChannel c n := by
  unfold Machine.sampleIfUart
  split
  · next hport => exact h.presenceSample hport
  · next hport => exact ⟨rfl, .inr (.inl hport)⟩

theorem sampleIfUart_ctrl (s : State) : (sampleIfUart s).ctrl = s.ctrl := by
  unfold sampleIfUart
  split
  · rw [presenceSample_only]
  · rfl

/-! ### Runs of TICK (R222, R228, R229) -/

/-- One TICK that removes no card: channel `c` counts down. -/
theorem State.KeepsChannel.tick {n : Nat} (h : s.KeepsChannel c (n + 1)) (he : e ≠ 0) :
    (tick e s).tmr.get c = (countdown (s.tmr.get c) e).1 ∧ (tick e s).KeepsChannel c n ∧
      (tick e s).ctrl = s.ctrl := by
  obtain ⟨hget, hkeeps⟩ := h.sampleIfUart
  refine ⟨by rw [tick_tmr_get he, hget], ?_⟩
  rw [tick_eq he]
  exact ⟨hkeeps, sampleIfUart_ctrl s⟩

/-- R222: one channel after the TICKs of `es`. -/
def Countdown.after (k : Countdown) (es : List Half) : Countdown := es.foldl (fun k e => (countdown k e).1) k

theorem runOk_tick (hen : s.ctrl.en = true) {es : List Half} (hes : ∀ e ∈ es, e ≠ 0)
    (hk : s.KeepsChannel c es.length) :
    ∃ t, runOk (es.map .tick) s = some t ∧ t.tmr.get c = (s.tmr.get c).after es := by
  induction es generalizing s with
  | nil => exact ⟨s, rfl, rfl⟩
  | cons e es ih =>
    obtain ⟨he, hes⟩ := List.forall_mem_cons.1 hes
    obtain ⟨hget, hkeeps, hctrl⟩ := hk.tick he
    obtain ⟨t, hrun, ht⟩ := ih (s := (tick e s).pass) ((congrArg Ctrl.en hctrl).trans hen) hes hkeeps
    refine ⟨t, (runOk_cons _ _ _ _ (exec_tick hen e) rfl).trans hrun, ?_⟩
    rw [ht]
    exact congrArg (Countdown.after · es) hget

/-- R228, R229: the channel started with `v`, after `n` nonzero TICKs that bring `sum` milliseconds. -/
structure Countdown.Counted (v n sum : Nat) (k : Countdown) : Prop where
  run : k.run = true ↔ n ≤ 1 ∨ sum < v
  rem : k.run = true → k.rem.toNat = v - sum
  first : k.first = true ↔ n = 0

/-- R222: one TICK more.  It can expire the channel only if it is not the first. -/
theorem Countdown.Counted.countdown {v n sum : Nat} {k : Countdown} (h : k.Counted v n sum) (e : Half) :
    (countdown k e).1.Counted v (n + 1) (sum + e.toNat) := by
  obtain ⟨hrun, hrem, hfirst⟩ := h
  cases hk : k.run with
  | false =>
    have hover : ¬(n ≤ 1 ∨ sum < v) := fun h => Bool.false_ne_true (hk.symm.trans (hrun.2 h))
    rw [countdown_of_stopped hk]
    refine ⟨?_, fun h => absurd (hk.symm.trans h) Bool.false_ne_true, by rw [hfirst]; omega⟩
    rw [hk]
    exact ⟨nofun, fun h => by omega⟩
  | true =>
    have hleft := hrem hk
    have hexp : k.expires e = true ↔ n ≠ 0 ∧ v ≤ sum + e.toNat := by
      have : k.expires e = true ↔ ¬k.first = true ∧ k.rem.toNat ≤ e.toNat := by simp [expires, hk]
      rw [this, hfirst, hleft]
      omega
    rw [countdown_fst_of_running hk]
    refine ⟨?_, fun _ => ?_, by simp⟩
    · rw [Bool.not_eq_true', ← Bool.not_eq_true, hexp]
      have := hrun.1 hk
      omega
    · rw [BitVec.toNat_ofNat, Nat.mod_eq_of_lt (by omega)]
      omega

theorem Countdown.Counted.after {v n sum : Nat} {k : Countdown} (h : k.Counted v n sum) (es : List Half) :
    (k.after es).Counted v (n + es.length) (sum + (es.map BitVec.toNat).sum) := by
  induction es generalizing k n sum with
  | nil => exact h
  | cons e es ih =>
    have hrest := ih (h.countdown e)
    rw [Nat.add_right_comm, Nat.add_assoc sum] at hrest
    exact hrest

end Sys2Proof.Machine


open Sys2Proof Sys2Proof.Machine

/-- Settles O44: `tick_eq` gives the whole state, and each channel and each event is read from it. -/
theorem tickCountsDown : Obligations.TickCountsDown := by
  intro s e
  refine ChecksThen.of_command (effect := tick e s) rfl (by simp) fun _ => ⟨fun he => ?_, fun he => ?_⟩
  · rw [tick, if_pos he]
    rfl
  · intro p expires r
    have htick := tick_eq he s
    refine ⟨?_, fun c hc => ?_, fun c hc => ?_, ?_, fun ev => ?_⟩
    · rw [htick]
      rfl
    · exact (tick_tmr_get he s c).trans (congrArg Prod.fst (countdown_of_stopped hc e))
    · exact (tick_tmr_get he s c).trans (countdown_fst_of_running hc e)
    · rw [htick]
      rfl
    · have hpend : (tick e s).pass.irqPend = r.irqPend ||| Event.ibtExp.maskIf (expires .ibt) |||
          Event.atrExp.maskIf (expires .atr) ||| Event.rspExp.maskIf (expires .rsp) := by
        rw [htick]
        rfl
      simp only [State.isPending, hpend, BitVec.getLsbD_or, Event.getLsbD_maskIf]

/-- Settles O43: a TID other than 3 names one channel, and the start or the stop writes that channel alone. -/
theorem timerStartStop : Obligations.TimerStartStop := by
  intro s tid ms
  refine ⟨?_, ?_, rfl, rfl, rfl⟩
  · refine ChecksThen.of_command (effect := (startTid tid ms s).setResult 0) rfl (by simp [tidInRange]) fun _ => ?_
    exact ⟨by rw [startTid_only]; rfl, startTid_get tid ms s⟩
  · refine ChecksThen.of_command (effect := (stopTid tid s).setResult 0) rfl (by simp [tidInRange]) fun _ => ?_
    exact ⟨by rw [stopTid_only]; rfl, stopTid_get tid s⟩

/-- Settles O45: the start leaves the channel on its first call at `v`, every TICK of the run counts it down, and
`Countdown.Counted` says where the countdowns bring it. -/
theorem timerExpiryTime : Obligations.TimerExpiryTime := by
  intro s tid c v es hen htid hv hes hkeeps
  let started : State := { s with tmr := (startTid tid v s).tmr, cmdResult := 0, cmdStatus := .ok }
  have hstart : exec (.tmrStart tid v) s = .next started := exec_tmrStart hen htid v
  have hfirst : started.tmr.get c = ⟨v, true, true⟩ :=
    (startTid_get tid v s c).trans (by rw [if_neg (not_not.2 htid), if_neg hv])
  obtain ⟨t, hrun, ht⟩ := runOk_tick (s := started) hen hes hkeeps
  have hcounted : (started.tmr.get c).Counted v.toNat 0 0 := by
    rw [hfirst]
    exact ⟨by simp, fun _ => rfl, by simp⟩
  obtain ⟨hruns, hrem, -⟩ := ht ▸ hcounted.after es
  simp only [Nat.zero_add] at hruns hrem
  exact ⟨t, (runOk_cons _ _ _ _ hstart rfl).trans hrun, hruns, hrem⟩
end

section
/-! PROOFS. The transmit commands and the line's side of a UART send (45_uart_tx.md R244 to R247): starting a send,
giving it up, and one byte taken or refused. -/

namespace Sys2Proof.Machine

variable {s : State}

/-- R245: on the UART port the send is the line's to take, byte by byte. -/
theorem startSend_of_uart (h : s.ctrl.port = .uart) (n : Half) : startSend n s = uartSend n s := if_pos h

/-- R245: on the USB port the bytes go out as one XfrBlock message. -/
theorem startSend_of_usb (h : s.ctrl.port = .usb) (n : Half) : startSend n s = usbSend .xfrBlock n s :=
  if_neg (by simp [h])

/-- R247: only the bulk-out message can go. -/
theorem withdrawMessage_eq (s : State) :
    withdrawMessage s = { s with usbOut := if s.tx.portLatch = .usb then none else s.usbOut } := by
  unfold withdrawMessage
  split <;> rfl

/-- R246: the count of expected echoes, in numbers. -/
theorem countEcho_lbsCount (s : State) : (countEcho s).lbsCount =
    BitVec.ofNat 16 (if s.ctrl.lbsEn then min (s.lbsCount.toNat + 1) 0xFFFF else s.lbsCount.toNat) := by
  by_cases hen : s.ctrl.lbsEn = true
  · by_cases hfull : s.lbsCount = 0xFFFF
    · simp [countEcho, hen, hfull]
    · have hlt : s.lbsCount.toNat + 1 ≤ 0xFFFF := by bv_omega
      rw [countEcho, if_pos ⟨hen, hfull⟩, if_pos hen, Nat.min_eq_left hlt, ← half_toNat_succ hlt, BitVec.ofNat_toNat,
        BitVec.setWidth_eq]
  · simp [countEcho, hen]

/-- R244: while a UART send is in progress the line takes or refuses a byte. -/
theorem agentStep_lineTake (hb : s.tx.busy = true) (hl : s.tx.portLatch = .uart) (ok : Bool) :
    agentStep (.lineTake ok) s = .next (if ok then lineTaken s else lineRefused s) := by
  rcases lineTake_cases ok s with ⟨-, -, e⟩ | ⟨hidle, -⟩
  · exact e
  · exact absurd ⟨hb, hl⟩ hidle

end Sys2Proof.Machine

open Sys2Proof Sys2Proof.Machine

/-- Settles O46: past the checks the port is UART or USB, and `startSend` is that port's send. -/
theorem txSendStarts : Obligations.TxSendStarts := by
  intro s n
  refine ChecksThen.of_command (effect := (startSend n s).setResult 0) rfl (by simp) fun _ =>
    ⟨fun hp => ?_, fun hp => ?_⟩
  · rw [startSend_of_uart hp]
    rfl
  · rw [startSend_of_usb hp, usbSend_eq]
    rfl

/-- Settles O47: the effect withdraws a USB send's message and ends the send. -/
theorem txStopCancels : Obligations.TxStopCancels := by
  intro s
  refine ChecksThen.of_command
    (effect := State.setResult { withdrawMessage s with tx := { s.tx with busy := false, remain := 0 } } 0) rfl
    (by simp) fun _ => ?_
  rw [withdrawMessage_eq]
  rfl

/-- Settles O48: `lineTaken_eq` with the echo count in numbers, at the last byte and before it. -/
theorem lineTakesByte : Obligations.LineTakesByte := by
  intro s hb hl ch
  refine ⟨(agentStep_lineTake hb hl true).trans (congrArg _ ?_), agentStep_lineTake hb hl false⟩
  rw [if_pos rfl, lineTaken_eq, countEcho_lbsCount]
  dsimp only
  by_cases hlast : s.tx.remain = 1
  · rw [if_pos (sub_eq_zero.2 hlast), if_pos hlast, decide_eq_false (not_not.2 hlast), hl]
    rfl
  · rw [if_neg (mt sub_eq_zero.1 hlast), if_neg hlast, decide_eq_true hlast, hl, hb]
    rfl
end

section
/-! PROOFS. Characters on the line (45_uart_tx.md R241) and runs of LINE_TAKE and LINE_RX (R244, R246). -/

namespace Sys2Proof.Machine

variable {s t u : State}

/-! ### Characters (R8, R241) -/

theorem popcount_eq_countP (b : Byte) : popcount b = (List.range 8).countP b.getLsbD :=
  List.countP_eq_length_filter.symm

theorem bitrev8_getLsbD (b : Byte) {i : Nat} (h : i < 8) : (bitrev8 b).getLsbD i = b.getLsbD (7 - i) := by
  simp only [bitrev8, BitVec.getLsbD_append]
  interval_cases i <;> simp

theorem bitrev8_bitrev8 (b : Byte) : bitrev8 (bitrev8 b) = b := by
  refine BitVec.eq_of_getLsbD_eq fun i hi => ?_
  rw [bitrev8_getLsbD _ hi, bitrev8_getLsbD _ (by omega), Nat.sub_sub_self (by omega)]

theorem popcount_bitrev8 (b : Byte) : popcount (bitrev8 b) = popcount b := by
  have hreverse : (List.range 8).map (7 - ·) = (List.range 8).reverse := by decide
  calc popcount (bitrev8 b)
      = (List.range 8).countP (b.getLsbD ∘ (7 - ·)) := by
        rw [popcount_eq_countP]
        exact List.countP_congr fun i hi => by rw [bitrev8_getLsbD b (List.mem_range.1 hi)]; rfl
    _ = (List.range 8).reverse.countP b.getLsbD := by rw [← List.countP_map, hreverse]
    _ = popcount b := by rw [List.countP_reverse, popcount_eq_countP]

theorem popcount_not (b : Byte) : popcount b + popcount (~~~b) = 8 := by
  have hnot : popcount (~~~b) = (List.range 8).countP fun i => !b.getLsbD i := by
    rw [popcount_eq_countP]
    exact List.countP_congr fun i hi => by simp [List.mem_range.1 hi]
  have hall := List.length_eq_countP_add_countP b.getLsbD (l := List.range 8)
  rw [hnot, popcount_eq_countP]
  simpa using hall.symm

/-- Inverting a byte leaves its parity, for it has an even number of bits. -/
theorem parityBit_not (b : Byte) : parityBit (~~~b) = parityBit b := by
  have := popcount_not b
  exact decide_eq_decide.2 (by omega)

theorem parityBit_bitrev8 (b : Byte) : parityBit (bitrev8 b) = parityBit b := by
  rw [parityBit, popcount_bitrev8, parityBit]

/-- R241: a character reads back as its byte, with a parity error exactly when its parity level was inverted. -/
theorem lineDecode_lineEncode (b : Byte) (flip : Bool) (conv : Convention) :
    lineDecode (lineEncode b conv).1 ((lineEncode b conv).2 != flip) conv = (b, flip) := by
  cases conv with
  | direct => simp [lineDecode, lineEncode]
  | inverse => simp [lineDecode, lineEncode, bitrev8_bitrev8]

/-! ### Runs of the environment's steps -/

theorem runSteps_cons {a : AgentStep} {rest : List AgentStep} {outs : List (Option Output)}
    (h : agentStep a { s with output := none } = .next t) (hrest : runSteps rest t = some (outs, u)) :
    runSteps (a :: rest) s = some (t.output :: outs, u) := by
  rw [runSteps, h]
  simp [hrest]

/-- R244: the character the line takes for byte `j` of the send. -/
def State.lineOutput (s : State) (j : Nat) : Option Output :=
  some (.lineChar (lineEncode (s.at j) s.ctrl.conv).1 (lineEncode (s.at j) s.ctrl.conv).2)

/-- R244: the line takes the rest of a UART send, `k + 1` bytes from the cursor on. -/
theorem runSteps_lineTake {k : Nat} (hb : s.tx.busy = true) (hl : s.tx.portLatch = .uart)
    (hremain : s.tx.remain.toNat = k + 1) (hcursor : s.tx.cursor.toNat + k < 0x10000) :
    ∃ u, runSteps (List.replicate (k + 1) (.lineTake true)) s =
        some ((List.range' s.tx.cursor.toNat (k + 1)).map s.lineOutput, u) ∧
      u.tx.busy = false ∧ u.tx.remain = 0 ∧ u.fifo = s.fifo ∧ u.irqPend = s.irqPend ||| 0x0010 := by
  induction k generalizing s with
  | zero =>
    obtain ⟨htake, -⟩ := lineTakesByte { s with output := none } hb hl
    have hlast : s.tx.remain = 1 := BitVec.eq_of_toNat_eq hremain
    refine ⟨_, runSteps_cons htake rfl, ?_⟩
    simp [hlast]
  | succ k ih =>
    obtain ⟨htake, -⟩ := lineTakesByte { s with output := none } hb hl
    have hmore : s.tx.remain ≠ 1 := fun h => by simp [h] at hremain
    have hpos : s.tx.remain ≠ 0 := fun h => by simp [h] at hremain
    have hpred : (s.tx.remain - 1).toNat = k + 1 := by rw [toNat_pred hpos, hremain]; rfl
    have hsucc : (s.tx.cursor + 1).toNat = s.tx.cursor.toNat + 1 := half_toNat_succ (by omega)
    simp only [hmore, ne_eq, not_false_eq_true, decide_true, if_false] at htake
    obtain ⟨u, hrun, hu⟩ := ih (s := { s with
      tx := ⟨true, .uart, s.tx.remain - 1, s.tx.cursor + 1⟩, lbsCount := _, output := _ }) rfl rfl hpred
      (by simp only [hsucc]; omega)
    refine ⟨u, (runSteps_cons htake hrun).trans ?_, hu⟩
    simp only [hsucc]
    rfl

/-- R246: a character that comes while an echo is expected changes the count alone. -/
theorem agentStep_lineRx_echo (hen : s.ctrl.en = true) (hp : s.ctrl.port = .uart) (hecho : s.ctrl.lbsEn = true)
    (hcount : s.lbsCount ≠ 0) (d8 : Byte) (p : Bool) :
    agentStep (.lineRx d8 p) s = .next { s with lbsCount := s.lbsCount - 1 } := by
  rw [agentStep, lineRx, deliver_uart hen, if_neg (not_not.2 hp), if_pos ⟨hecho, hcount⟩]

/-- R190: a character that comes while no echo is expected reaches the receive mode. -/
theorem agentStep_lineRx_received (hen : s.ctrl.en = true) (hp : s.ctrl.port = .uart) (hcount : s.lbsCount = 0)
    (d8 : Byte) (p : Bool) : agentStep (.lineRx d8 p) s =
      .next (receiveByte (lineDecode d8 p s.ctrl.conv).1 (lineDecode d8 p s.ctrl.conv).2 s) := by
  rw [agentStep, lineRx, deliver_uart hen, if_neg (not_not.2 hp), if_neg fun h => h.2 hcount]

/-- R246, R251: as many characters as echoes are expected. -/
theorem runSteps_lineRx_echoes (hen : s.ctrl.en = true) (hp : s.ctrl.port = .uart) (hecho : s.ctrl.lbsEn = true)
    {cs : List (Byte × Bool)} (hcount : s.lbsCount.toNat = cs.length) :
    ∃ outs, runSteps (cs.map fun c => .lineRx c.1 c.2) s =
      some (outs, { s with lbsCount := 0, output := if cs = [] then s.output else none }) := by
  induction cs generalizing s with
  | nil =>
    have hzero : s.lbsCount = 0 := BitVec.eq_of_toNat_eq hcount
    exact ⟨[], by rw [← hzero]; rfl⟩
  | cons c rest ih =>
    have hpos : s.lbsCount ≠ 0 := fun h => by simp [h] at hcount
    have hpred : (s.lbsCount - 1).toNat = rest.length := by rw [toNat_pred hpos, hcount]; rfl
    have hstep := agentStep_lineRx_echo (s := { s with output := none }) hen hp hecho hpos c.1 c.2
    obtain ⟨outs, hrun⟩ := ih (s := { s with lbsCount := s.lbsCount - 1, output := none }) hen hp hecho hpred
    exact ⟨_, (runSteps_cons hstep hrun).trans (by rw [ite_self, if_neg (List.cons_ne_nil c rest)])⟩

end Sys2Proof.Machine

open Sys2Proof Sys2Proof.Machine

/-- Settles O49: TX_SEND puts the cursor at the oldest byte with `n` bytes to take, and the line takes them all. -/
theorem uartSendDelivers : Obligations.UartSendDelivers := by
  intro s n _ hen hp hb hn hle
  have hexec : exec (.txSend n) s = .next ((uartSend n s).setResult 0).pass := by
    rw [← startSend_of_uart hp]
    exact commandEnabled_of_pass s _ _ hen (by simpa [hp, hb] using ⟨hn, hle⟩)
  have hpos := toNat_pos_of_ne_zero hn
  obtain ⟨u, hrun, hu⟩ := runSteps_lineTake (k := n.toNat - 1) (s := ((uartSend n s).setResult 0).pass) rfl rfl
    (Nat.sub_add_cancel hpos).symm (by simp [uartSend]; omega)
  rw [Nat.sub_add_cancel hpos] at hrun
  refine ⟨_, u, hexec, hrun.trans ?_, hu⟩
  rw [State.oldest, List.map_map, List.range_eq_range']
  rfl

/-- Settles O50: decoding undoes encoding; inverting and reversing a byte keeps its parity, which the inverse convention
inverts. -/
theorem lineRxDelivers : Obligations.LineRxDelivers := by
  intro s b flip
  refine ⟨?_, ?_, by decide⟩
  · dsimp only
    rw [agentStep, lineRx, lineDecode_lineEncode]
  · simp [lineDecode, lineEncode, parityBit_not, parityBit_bitrev8]

/-- Settles O51: the expected echoes bring the count to 0, where a character reaches the receive mode. -/
theorem echoesDiscarded : Obligations.EchoesDiscarded := by
  intro s cs d8 p hen hp hecho hcount
  obtain ⟨outs, hrun⟩ := runSteps_lineRx_echoes hen hp hecho hcount
  exact ⟨_, outs, hrun, fun hcs => by rw [if_neg hcs], rfl,
    agentStep_lineRx_received (s := { s with lbsCount := 0, output := _ }) hen hp rfl d8 p⟩
end

section
/-! PROOFS. The presence detector (45_uart_tx.md R249, R250): one sample, and the run of differing samples a TICK at a
time. -/

namespace Sys2Proof.Machine

variable {s t : State}

/-! ### A removal on the UART port (R250) -/

theorem abandonUartSend_tx (s : State) : (abandonUartSend s).tx =
    if s.tx.busy = true ∧ s.tx.portLatch = .uart then { s.tx with busy := false, remain := 0 } else s.tx := by
  unfold abandonUartSend
  split <;> rfl

theorem dropFrameInProgress_rx (s : State) : (dropFrameInProgress s).rx =
    if (decide (s.ctrl.rxMode = .t1) && decide (s.rx.state ∈ [.skip, .pcb, .len, .inf, .edc])) = true then
      { s.rx with state := .addr, count := 0 } else s.rx := by
  unfold dropFrameInProgress
  split
  · next hm => cases hs : s.rx.state <;> simp [hm]
  · next hm => simp [hm]

/-- R250: everything a removal does. -/
theorem removal_eq (hp : s.ctrl.port = .uart) : removal s = { s with
    irqPend := s.irqPend ||| 0x0400
    pinCtrl := ⟨false, false, false⟩
    tx := (abandonUartSend s).tx
    lbsCount := 0
    rx := (dropFrameInProgress s).rx
    tmr := { s.tmr with ibt := ⟨0, false, false⟩ } } := by
  have hport : (s.raise .cardOut).ctrl.port = .uart := hp
  rw [removal, if_pos hport, dropFrameInProgress_only, abandonUartSend_only, dropFrameInProgress_rx,
    dropFrameInProgress_rx, abandonUartSend_tx, abandonUartSend_tx]
  rfl

/-! ### One sample (R249) -/

theorem presenceSample_of_match (h : s.presenceLevel = s.present) :
    presenceSample s = { s with presPin := s.presenceLevel, debCnt := 0 } := if_pos h

/-- A differing sample short of N. -/
theorem presenceSample_of_short (h : s.presenceLevel ≠ s.present) (hn : s.debCnt + 1 < s.presCfg.n) :
    presenceSample s = { s with presPin := s.presenceLevel, debCnt := s.debCnt + 1 } :=
  (if_neg h).trans (if_neg (BitVec.not_le.2 hn))

/-- The N-th differing sample. -/
theorem presenceSample_of_full (h : s.presenceLevel ≠ s.present) (hn : s.presCfg.n ≤ s.debCnt + 1) :
    let t : State := { s with presPin := s.presenceLevel, present := s.presenceLevel, debCnt := 0 }
    presenceSample s = if s.presenceLevel then t.raise .cardIn else removal t :=
  (if_neg h).trans (if_pos hn)

/-! ### Runs of TICK that see the other level (R222, R249) -/

/-- R249: with STATUS.PRESENT at `p`, the UART port samples the other level, `k` times so far and fewer than N = `n`. -/
structure State.Debouncing (s : State) (p : Bool) (n k : Nat) : Prop where
  enabled : s.ctrl.en = true
  port : s.ctrl.port = .uart
  present : s.present = p
  level : s.presenceLevel = !p
  limit : s.presCfg.n.toNat = n
  count : s.debCnt.toNat = k
  short : k < n

theorem State.Debouncing.differs {p : Bool} {n k : Nat} (h : s.Debouncing p n k) : s.presenceLevel ≠ s.present :=
  Bool.eq_not.1 (h.level.trans (congrArg _ h.present.symm))

/-- The sample a TICK takes first is what it leaves of the detector. -/
theorem tick_of_sample {e : Half} (he : e ≠ 0) (hsample : sampleIfUart s = t) :
    (tick e s).present = t.present ∧ (tick e s).debCnt = t.debCnt ∧ (tick e s).presCfg = t.presCfg ∧
      (tick e s).pinLevel = t.pinLevel ∧ (tick e s).ctrl = t.ctrl := by
  rw [tick_eq he, hsample]
  exact ⟨rfl, rfl, rfl, rfl, rfl⟩

/-- R223: the expiries of a TICK come after its sample and keep the sample's events. -/
theorem KeepsPending.tick_of_sample {e : Half} (he : e ≠ 0) (hsample : sampleIfUart s = t) :
    KeepsPending t (Machine.tick e s) := by
  rw [Machine.tick, if_neg he, hsample]
  have hcount (m : Timers) : KeepsPending t { t with tmr := m } := .of_eq rfl
  exact .congr ((((hcount _).expireIf _ .ibt).expireIf _ .atr).expireIf _ .rsp) rfl

theorem isPending_raise (s : State) (ev : Event) : (s.raise ev).isPending ev = true := by
  simp [State.isPending, Event.getLsbD_mask]

/-- A TICK short of the N-th lengthens the run. -/
theorem State.Debouncing.tick {p : Bool} {n k : Nat} (h : s.Debouncing p n k) (hk : k + 1 < n) {e : Half} (he : e ≠ 0) :
    (tick e s).pass.Debouncing p n (k + 1) := by
  have hlimit := h.limit
  have hcount := h.count
  have hsample : sampleIfUart s = { s with presPin := s.presenceLevel, debCnt := s.debCnt + 1 } :=
    (if_pos h.port).trans (presenceSample_of_short h.differs (by bv_omega))
  obtain ⟨hpresent, hdeb, hcfg, hpin, hctrl⟩ := tick_of_sample he hsample
  have hlevel : (Machine.tick e s).presenceLevel = s.presenceLevel := by rw [State.presenceLevel, hcfg, hpin]; rfl
  have hsucc : (s.debCnt + 1).toNat = k + 1 := by bv_omega
  exact ⟨(congrArg Ctrl.en hctrl).trans h.enabled, (congrArg Ctrl.port hctrl).trans h.port, hpresent.trans h.present,
    hlevel.trans h.level, (congrArg (·.n.toNat) hcfg).trans hlimit, (congrArg BitVec.toNat hdeb).trans hsucc, hk⟩

/-- The N-th TICK changes STATUS.PRESENT, with its event. -/
theorem State.Debouncing.tick_last {p : Bool} {k : Nat} (h : s.Debouncing p (k + 1) k) {e : Half} (he : e ≠ 0) :
    (Machine.tick e s).present = (!p) ∧ (Machine.tick e s).debCnt = 0 ∧
      (Machine.tick e s).isPending (if p then .cardOut else .cardIn) = true := by
  let u : State := { s with presPin := s.presenceLevel, present := s.presenceLevel, debCnt := 0 }
  have hlimit := h.limit
  have hcount := h.count
  have hsample : sampleIfUart s = if s.presenceLevel then u.raise .cardIn else removal u :=
    (if_pos h.port).trans (presenceSample_of_full h.differs (by bv_omega))
  rw [h.level] at hsample
  cases p with
  | false =>
    obtain ⟨hpresent, hdeb, -⟩ := tick_of_sample he hsample
    exact ⟨hpresent.trans h.level, hdeb, KeepsPending.tick_of_sample he hsample _ (isPending_raise u .cardIn)⟩
  | true =>
    have hremoved := hsample.trans (removal_eq (s := u) h.port)
    obtain ⟨hpresent, hdeb, -⟩ := tick_of_sample he hremoved
    exact ⟨hpresent.trans h.level, hdeb, KeepsPending.tick_of_sample he hremoved _ (isPending_raise u .cardOut)⟩

/-- A run of TICKs that ends short of the N-th. -/
theorem State.Debouncing.runOk_tick {p : Bool} {n k : Nat} (h : s.Debouncing p n k) {es : List Half}
    (hes : ∀ e ∈ es, e ≠ 0) (hlen : k + es.length < n) :
    ∃ t, runOk (es.map .tick) s = some t ∧ t.Debouncing p n (k + es.length) := by
  induction es generalizing s k with
  | nil => exact ⟨s, rfl, h⟩
  | cons e rest ih =>
    obtain ⟨he, hrest⟩ := List.forall_mem_cons.1 hes
    rw [List.length_cons, Nat.add_comm rest.length, ← Nat.add_assoc] at hlen ⊢
    obtain ⟨t, hrun, ht⟩ := ih (h.tick (by omega) he) hrest hlen
    exact ⟨t, (runOk_cons _ _ _ _ (exec_tick h.enabled e) rfl).trans hrun, ht⟩

end Sys2Proof.Machine

open Sys2Proof Sys2Proof.Machine

/-- Settles O52: a matching sample, a differing one short of N, and the N-th, which inserts or removes the card. -/
theorem presenceSampling : Obligations.PresenceSampling := by
  intro s level
  refine ⟨presenceSample_of_match, presenceSample_of_short, fun hdiff hn hin => ?_, fun hdiff hn hout hp => ?_⟩
  · have hlevel : s.presenceLevel = true := hin
    rw [presenceSample_of_full hdiff hn, hlevel]
    rfl
  · have hlevel : s.presenceLevel = false := hout
    rw [presenceSample_of_full hdiff hn, hlevel]
    refine (removal_eq (s := { s with presPin := false, present := false, debCnt := 0 }) hp).trans ?_
    rw [abandonUartSend_tx, dropFrameInProgress_rx]

/-- Settles O53: TICKs short of the N-th keep `State.Debouncing`, and with N of them the last one changes
STATUS.PRESENT. -/
theorem presenceDebounce : Obligations.PresenceDebounce := by
  intro s es hen hp hn hzero hdiff hes hlen
  have h : s.Debouncing s.present s.presCfg.n.toNat 0 :=
    ⟨hen, hp, rfl, Bool.eq_not.2 hdiff, rfl, congrArg BitVec.toNat hzero, toNat_pos_of_ne_zero hn⟩
  rcases hlen.lt_or_eq with hshort | hfull
  case inl =>
    obtain ⟨t, hrun, ht⟩ := h.runOk_tick hes (by omega)
    exact ⟨t, hrun, fun _ => ⟨ht.present, ht.count.trans (Nat.zero_add _)⟩, fun hfull => absurd hfull hshort.ne⟩
  case inr =>
    rcases List.eq_nil_or_concat es with rfl | ⟨init, e, rfl⟩
    · exact absurd (BitVec.eq_of_toNat_eq hfull.symm) hn
    · rw [List.concat_eq_append] at *
      obtain ⟨hinit, he⟩ := List.forall_mem_append.1 hes
      rw [List.length_append] at hfull
      obtain ⟨t, hrun, ht⟩ := h.runOk_tick hinit (by rw [← hfull]; simp)
      refine ⟨(tick e t).pass, ?_, fun hlt => absurd hfull (by simpa using hlt.ne), fun _ => ?_⟩
      · rw [List.map_append, runOk_append, hrun]
        exact runOk_cons _ _ _ _ (exec_tick ht.enabled e) rfl
      · rw [← hfull, Nat.zero_add] at ht
        exact ht.tick_last (he e (by simp))
end

section
/-! PROOFS. The messages of the USB port (46_ccid.md R261 to R271): the CCID commands, the pending message taken, and
what becomes of a bulk-in and of an interrupt-in message. -/

namespace Sys2Proof.Machine

variable {s t : State} {m : List Byte}

/-! ### Bulk-out messages (R261, R265) -/

/-- R261, R265: the effect of a command that sends a message, its header written out. -/
theorem usbSend_pass_eq (kind : BulkOutKind) (n : Half) (s : State) : ((usbSend kind n s).setResult 0).pass = { s with
    usbOut := some ([kind.msgType, n.extractLsb' 0 8, n.extractLsb' 8 8, 0, 0, s.usbCfg.slot, s.usbSeq.next,
      kind.byte7, 0, 0] ++ s.oldest n.toNat)
    tx := ⟨true, .usb, n, s.tx.cursor⟩
    usbSeq := ⟨s.usbSeq.next + 1, s.usbSeq.next, true⟩
    cmdResult := 0
    cmdStatus := .ok } := by
  rw [usbSend_eq]
  rfl

/-- R261: bPowerSelect. -/
theorem powerOn_byte7 (psel : BitVec 2) : (BulkOutKind.powerOn psel).byte7 = 0#6 ++ psel :=
  BitVec.setWidth_eq_append (by decide)

/-- R261: bProtocolNum. -/
theorem setParams_byte7 (proto : Bool) : (BulkOutKind.setParams proto).byte7 = 0#7 ++ BitVec.ofBool proto :=
  BitVec.setWidth_eq_append (x := BitVec.ofBool proto) (by decide)

/-- R263: the port takes the pending message. -/
theorem agentStep_usbAccept (hm : s.usbOut = some m) (ok : Bool) : agentStep (.usbAccept ok) s = .next { s with
    usbOut := none, tx := { s.tx with busy := false, remain := 0 }
    irqPend := s.irqPend ||| (if ok then 0x0010 else 0x0020), output := some (.bulkOut m) } := by
  rw [agentStep, usbAccept, hm]
  cases ok <;> rfl

/-! ### Bulk-in messages (R50, R266) -/

/-- R266: dwLength as a number. -/
theorem dwLength_toNat (m : List Byte) : (dwLength m).toNat =
    (m.getD 1 0).toNat + 2 ^ 8 * (m.getD 2 0).toNat + 2 ^ 16 * (m.getD 3 0).toNat + 2 ^ 24 * (m.getD 4 0).toNat := by
  have append (k : Nat) (hi : BitVec k) (lo : Byte) : (hi ++ lo).toNat = hi.toNat * 2 ^ 8 + lo.toNat := by
    rw [BitVec.toNat_append, ← Nat.shiftLeft_add_eq_or_of_lt lo.isLt, Nat.shiftLeft_eq]
  simp only [dwLength, msgByte, append]
  omega

/-- R50: the captured header, byte by byte. -/
theorem headerOf_byte (m : List Byte) {k : Nat} (hk : k < 10) :
    (0#16 ++ (headerOf m).rsp2 ++ (headerOf m).rsp1 ++ (headerOf m).rsp0).extractLsb' (8 * k) 8 = m.getD k 0 := by
  simp only [headerOf, msgByte]
  interval_cases k <;>
    simp [-Nat.reduceAdd, BitVec.extractLsb'_append_eq_of_le, BitVec.extractLsb'_append_eq_of_add_le]

/-- R266: LENGTH and SLOT passed, SEQ is next. -/
theorem bulkInError_of_slot (hlen : 10 + (dwLength m).toNat = m.length) (hslot : msgByte m 5 = s.usbCfg.slot) :
    bulkInError m s = if s.usbSeq.lastValid = false ∨ msgByte m 6 ≠ s.usbSeq.last then some .seq
      else if msgByte m 0 ≠ 0x80 ∧ msgByte m 0 ≠ 0x81 ∧ msgByte m 0 ≠ 0x82 then some .type else none := by
  rw [bulkInError, if_neg (not_not.2 hlen), if_neg (not_not.2 hslot)]

/-- R266: LENGTH, SLOT and SEQ passed, TYPE is next. -/
theorem bulkInError_of_seq (hlen : 10 + (dwLength m).toNat = m.length) (hslot : msgByte m 5 = s.usbCfg.slot)
    (hseq : s.usbSeq.lastValid = true ∧ msgByte m 6 = s.usbSeq.last) :
    bulkInError m s =
      if msgByte m 0 ≠ 0x80 ∧ msgByte m 0 ≠ 0x81 ∧ msgByte m 0 ≠ 0x82 then some .type else none := by
  rw [bulkInError_of_slot hlen hslot, if_neg (by simpa using hseq)]

section
variable (hen : s.ctrl.en = true) (hp : s.ctrl.port = .usb)
include hen hp

/-- R266: a message shorter than a header. -/
theorem bulkIn_of_short (hlen : m.length < 10) : bulkIn m s = usbError .short s := by
  rw [bulkIn, if_neg (by simp [hen, hp]), if_pos hlen]

/-- R266: a message that fails a check of its header. -/
theorem bulkIn_of_error (hlen : 10 ≤ m.length) {c : UsbErrCause} (h : bulkInError m s = some c) :
    bulkIn m s = usbError c { s with ccidRsp := headerOf m } := by
  have h' : bulkInError m { s with ccidRsp := headerOf m } = some c := h
  rw [bulkIn, if_neg (by simp [hen, hp]), if_neg (Nat.not_lt.2 hlen)]
  dsimp only
  rw [h']

/-- R266: an accepted message. -/
theorem bulkIn_of_accepted (hlen : 10 ≤ m.length) (h : bulkInError m s = none) : bulkIn m s =
    (if msgByte m 0 = 0x80 ∨ msgByte m 0 = 0x82 then deliverAll (m.drop 10) { s with ccidRsp := headerOf m }
      else { s with ccidRsp := headerOf m }).raise .usbResp := by
  have h' : bulkInError m { s with ccidRsp := headerOf m } = none := h
  rw [bulkIn, if_neg (by simp [hen, hp]), if_neg (Nat.not_lt.2 hlen)]
  dsimp only
  rw [h']

end

/-! What a received byte leaves alone, field by field. -/

theorem OnlyReceivePath.ctrl (h : OnlyReceivePath s t) : t.ctrl = s.ctrl := by rw [h.1]

theorem OnlyReceivePath.usbCfg (h : OnlyReceivePath s t) : t.usbCfg = s.usbCfg := by rw [h.1]

theorem OnlyReceivePath.usbSeq (h : OnlyReceivePath s t) : t.usbSeq = s.usbSeq := by rw [h.1]

theorem OnlyReceivePath.ccidRsp (h : OnlyReceivePath s t) : t.ccidRsp = s.ccidRsp := by rw [h.1]

/-- R190, R266: a payload writes the receive path alone. -/
theorem deliverAll_only (bs : List Byte) (s : State) : OnlyReceivePath s (deliverAll bs s) := by
  induction bs generalizing s with
  | nil => exact .refl s
  | cons b rest ih =>
    rw [deliverAll_cons]
    rcases deliver_cases b false .usb s with h | ⟨hsrc, -⟩ | ⟨-, h⟩
    · rw [h]
      exact ih s
    · cases hsrc
    · rw [h]
      exact (receiveByte_only b false s).trans (ih _)

/-- R266: the header of a message of 10 bytes or more is captured, whatever becomes of the message. -/
theorem bulkIn_ccidRsp (hen : s.ctrl.en = true) (hp : s.ctrl.port = .usb) (hlen : 10 ≤ m.length) :
    (bulkIn m s).ccidRsp = headerOf m := by
  cases h : bulkInError m s with
  | some c => rw [bulkIn_of_error hen hp hlen h]; rfl
  | none =>
    rw [bulkIn_of_accepted hen hp hlen h, State.raise_ccidRsp]
    split
    · exact (deliverAll_only _ _).ccidRsp
    · rfl

/-! ### Interrupt-in messages (R267) -/

/-- R267: a message that is no NotifySlotChange or does not reach the slot. -/
theorem usbInt_of_other (h : ¬(2 + s.usbCfg.slot.toNat / 4 ≤ m.length ∧ msgByte m 0 = 0x50)) : usbInt m s = s :=
  (congrArg (ite _ s) (if_neg h)).trans (ite_self s)

/-- R267: a NotifySlotChange that reaches the slot. -/
theorem usbInt_of_notify (hen : s.ctrl.en = true) (hp : s.ctrl.port = .usb)
    (h : 2 + s.usbCfg.slot.toNat / 4 ≤ m.length ∧ msgByte m 0 = 0x50) :
    usbInt m s =
      if slotPresent m s.usbCfg.slot ≠ s.present then { s with
        present := slotPresent m s.usbCfg.slot
        irqPend := s.irqPend ||| (if slotPresent m s.usbCfg.slot then 0x0200 else 0x0400) }
      else s := by
  rw [usbInt, if_neg (by simp [hen, hp]), if_pos h]
  cases slotPresent m s.usbCfg.slot <;> rfl

end Sys2Proof.Machine

open Sys2Proof Sys2Proof.Machine

/-- Settles O54: each command's effect is `usbSend` with its kind. -/
theorem ccidCommandsSend : Obligations.CcidCommandsSend := by
  intro s psel proto n sent checks
  refine ⟨?_, ?_, ?_, ?_⟩
  · refine ChecksThen.of_command (effect := (usbSend (.powerOn psel) 0 s).setResult 0) rfl (by simp [checks])
      fun _ => ?_
    rw [usbSend_pass_eq, powerOn_byte7]
    rfl
  · exact ChecksThen.of_command (effect := (usbSend .powerOff 0 s).setResult 0) rfl (by simp [checks]) fun _ =>
      usbSend_pass_eq .powerOff 0 s
  · exact ChecksThen.of_command (effect := (usbSend .getParams 0 s).setResult 0) rfl (by simp [checks]) fun _ =>
      usbSend_pass_eq .getParams 0 s
  · refine ChecksThen.of_command (effect := (usbSend (.setParams proto) n s).setResult 0) rfl (by simp [checks])
      fun _ => ?_
    rw [usbSend_pass_eq, setParams_byte7]
    rfl

/-- Settles O55: one equation for both outcomes, which differ in the event alone. -/
theorem usbAcceptTakesMessage : Obligations.UsbAcceptTakesMessage := by
  intro s m hm
  exact ⟨agentStep_usbAccept hm true, agentStep_usbAccept hm false⟩

/-- Settles O57: a message that notifies is judged by the slot's bit. -/
theorem usbPresence : Obligations.UsbPresence := by
  intro s m
  refine ⟨fun hoff => congrArg _ (if_pos hoff), fun hen hp => ⟨fun hnotify hdiff => ?_, fun hsame => ?_⟩⟩
  · exact congrArg Host.Outcome.next ((usbInt_of_notify hen hp hnotify).trans (if_pos hdiff))
  · by_cases hnotify : 2 + s.usbCfg.slot.toNat / 4 ≤ m.length ∧ msgByte m 0 = 0x50
    · have hbit := hsame.resolve_left (not_not.2 hnotify)
      exact congrArg Host.Outcome.next ((usbInt_of_notify hen hp hnotify).trans (if_neg (not_not.2 hbit)))
    · exact congrArg Host.Outcome.next (usbInt_of_other hnotify)

/-- Settles O56: `bulkInError` is the first failing check, and the cases are those of its order. -/
theorem bulkInChecks : Obligations.BulkInChecks := by
  intro s m
  refine ⟨fun hoff => congrArg _ (if_pos hoff), fun hen hp => ?_⟩
  intro byte rsp len slot seq error
  refine ⟨bulkIn m s, rfl, fun hshort => ?_, fun hlong => ?_⟩
  · rw [bulkIn_of_short hen hp hshort]
    exact ⟨rfl, rfl⟩
  · have herror {c : UsbErrCause} (h : bulkInError m s = some c) : error c (bulkIn m s) := by
      rw [bulkIn_of_error hen hp hlong h]
      rfl
    have hrsp := bulkIn_ccidRsp hen hp hlong
    rw [show len = (dwLength m).toNat from (dwLength_toNat m).symm]
    refine ⟨fun k hk => ?_, fun hlen => herror (if_pos hlen), fun hlen hslot => herror ?_,
      fun hlen hslot hseq => herror ?_, fun hlen hslot hseq h80 h81 h82 => herror ?_,
      fun hlen hslot hseq htype => ?_, fun hlen hslot hseq htype => ?_⟩
    · refine Eq.trans ?_ (headerOf_byte m hk)
      rw [← hrsp]
      rfl
    · rw [bulkInError, if_neg (not_not.2 hlen)]
      exact if_pos hslot
    · rw [bulkInError_of_slot hlen hslot]
      exact if_pos ((not_and_or.1 hseq).imp_left Bool.eq_false_iff.2)
    · rw [bulkInError_of_seq hlen hslot hseq]
      exact if_pos ⟨h80, h81, h82⟩
    · have hpass := (bulkInError_of_seq hlen hslot hseq).trans (if_neg fun h => h.2.1 htype)
      have hnone : ¬(msgByte m 0 = 0x80 ∨ msgByte m 0 = 0x82) := by
        rw [show msgByte m 0 = 0x81 from htype]
        decide
      rw [hrsp, bulkIn_of_accepted hen hp hlong hpass, if_neg hnone]
      rfl
    · have hpass := (bulkInError_of_seq hlen hslot hseq).trans (if_neg fun h => htype.elim h.1 h.2.2)
      have hpayload : msgByte m 0 = 0x80 ∨ msgByte m 0 = 0x82 := htype
      rw [hrsp, bulkIn_of_accepted hen hp hlong hpass, if_pos hpayload]
      rfl
end

section
/-! PROOFS. The receive path does not depend on the port (46_ccid.md R273): it neither reads nor writes what a transport
keeps beside it, so the bytes alone tell where it ends. -/

namespace Sys2Proof.Machine

/-! ### What a transport keeps beside the receive path -/

/-- What differs between two states by the transport their bytes come by: the selected port, the echoes expected, the
last bulk-in header, the last output, and events raised besides. -/
structure Transport where
  port : Port
  echoes : Half
  header : CcidRsp
  output : Option Output
  events : BitVec 14

/-- The state with the transport's part set, and its events raised. -/
def State.via (s : State) (x : Transport) : State :=
  { s with
    ctrl := { s.ctrl with port := x.port }
    lbsCount := x.echoes, ccidRsp := x.header, output := x.output
    irqPend := s.irqPend ||| x.events }

/-! Every operation of the receive path commutes with a change of the transport's part. -/

section
variable (b : Byte) (perr : Bool) (s : State) (x : Transport)

theorem State.raise_via (e : Event) : (s.via x).raise e = (s.raise e).via x := by
  simp only [State.via, State.raise, BitVec.or_assoc, BitVec.or_comm x.events]

theorem State.restartIbt_via : (s.via x).restartIbt = s.restartIbt.via x := by
  unfold State.restartIbt State.startTimer
  rw [apply_ite (State.via · x)]
  rfl

theorem rawCapture_via : rawCapture b perr (s.via x) = (rawCapture b perr s).via x := by
  by_cases hroom : s.rx.count.toNat < Config.rxbufSize
  · rw [rawCapture_eq_of_room hroom, rawCapture_eq_of_room (s := s.via x) hroom, ← State.restartIbt_via]
    rfl
  · have hfull := Nat.not_lt.1 hroom
    rw [rawCapture_eq_of_full hfull, rawCapture_eq_of_full (s := s.via x) hfull, State.raise_via, State.restartIbt_via]

theorem parseAddr_via : parseAddr b perr (s.via x) = (parseAddr b perr s).via x := by
  by_cases hnad : b = s.nad.rx
  · rw [parseAddr_eq_of_match hnad, parseAddr_eq_of_match (s := s.via x) hnad, ← State.restartIbt_via]
    rfl
  · rw [parseAddr_eq_of_mismatch hnad, parseAddr_eq_of_mismatch (s := s.via x) hnad, ← State.restartIbt_via]
    rfl

theorem parsePcb_via : parsePcb b perr (s.via x) = (parsePcb b perr s).via x := by
  rw [parsePcb_eq, parsePcb_eq, ← State.restartIbt_via]
  rfl

theorem abortFrame_via (c : RxErrCause) : abortFrame c (s.via x) = (abortFrame c s).via x := by
  have hraise := State.raise_via { s with rxErrCause := c } x .rxErr
  rw [abortFrame, abortFrame, ← State.restartIbt_via]
  exact congrArg (fun t => ((t.setRxCount 0).setRxState .skip).restartIbt) hraise

theorem parseLen_via : parseLen b perr (s.via x) = (parseLen b perr s).via x := by
  have hifsd : (s.via x).ifs.ifsd = s.ifs.ifsd := rfl
  by_cases hmax : b = 0xFF
  · rw [parseLen, parseLen, if_pos hmax, if_pos hmax, ← abortFrame_via]
    rfl
  · by_cases hifs : b > s.ifs.ifsd
    · rw [parseLen, parseLen, hifsd, if_neg hmax, if_neg hmax, if_pos hifs, if_pos hifs, ← abortFrame_via]
      rfl
    · have hifs' := BitVec.not_lt.1 hifs
      rw [parseLen_eq_of_accepted hmax hifs', parseLen_eq_of_accepted (s := s.via x) hmax hifs',
        ← State.restartIbt_via]
      rfl

theorem parseInf_via : parseInf b perr (s.via x) = (parseInf b perr s).via x := by
  rw [parseInf_eq, parseInf_eq, ← State.restartIbt_via]
  rfl

theorem completeFrame_via : completeFrame (s.via x) = (completeFrame s).via x :=
  State.raise_via ((({ s with rxInfo := frameInfo s } : State).setRxState .done).stopTimer .ibt) x .rxDone

theorem parseEdc_via : parseEdc b perr (s.via x) = (parseEdc b perr s).via x := by
  by_cases hlast : (s.rx.count + 1).toNat = 3 + s.rx.len.toNat + edcLen s.rx.latch
  · rw [parseEdc_eq_of_last hlast, parseEdc_eq_of_last (s := s.via x) hlast, ← completeFrame_via]
    rfl
  · rw [parseEdc_eq_of_more hlast, parseEdc_eq_of_more (s := s.via x) hlast, ← State.restartIbt_via]
    rfl

theorem parse_via : parse b perr (s.via x) = (parse b perr s).via x := by
  have hstate : (s.via x).rx.state = s.rx.state := rfl
  rw [parse, parse, hstate]
  cases s.rx.state with
  | addr => exact parseAddr_via b perr s x
  | skip => exact State.restartIbt_via s x
  | pcb => exact parsePcb_via b perr s x
  | len => exact parseLen_via b perr s x
  | inf => exact parseInf_via b perr s x
  | edc => exact parseEdc_via b perr s x
  | done => exact State.raise_via s x .rxOvf
  | raw => rfl

/-- R273: a received byte does to the receive path what it does by any other transport. -/
theorem receiveByte_via : receiveByte b perr (s.via x) = (receiveByte b perr s).via x := by
  have hmode : (s.via x).ctrl.rxMode = s.ctrl.rxMode := rfl
  rw [receiveByte, receiveByte, hmode]
  cases s.ctrl.rxMode with
  | raw => exact rawCapture_via b perr s x
  | t1 => exact parse_via b perr s x

end

/-! ### Bytes by either transport -/

variable {s : State} {x : Transport}

/-- The receive mode takes every byte of a list, in order, without a parity error. -/
def receiveAll (bs : List Byte) (s : State) : State := bs.foldl (fun s b => receiveByte b false s) s

theorem receiveAll_via (bs : List Byte) (s : State) (x : Transport) :
    receiveAll bs (s.via x) = (receiveAll bs s).via x :=
  List.foldl_hom (State.via · x) fun s b => receiveByte_via b false s x

theorem receiveAll_only (bs : List Byte) (s : State) : OnlyReceivePath s (receiveAll bs s) := by
  induction bs generalizing s with
  | nil => exact .refl s
  | cons b rest ih => exact (receiveByte_only b false s).trans (ih _)

/-- R190, R266: a payload that comes by the selected port. -/
theorem deliverAll_eq_receiveAll (hen : s.ctrl.en = true) (hp : s.ctrl.port = .usb) (bs : List Byte) :
    deliverAll bs s = receiveAll bs s := by
  induction bs generalizing s with
  | nil => rfl
  | cons b rest ih =>
    have hctrl := (receiveByte_only b false s).ctrl
    rw [deliverAll_cons, deliver_usb hen, if_neg (not_not.2 hp)]
    exact ih (by rw [hctrl, hen]) (by rw [hctrl, hp])

theorem deliverAll_via (hen : s.ctrl.en = true) (hport : x.port = .usb) (bs : List Byte) :
    deliverAll bs (s.via x) = (receiveAll bs s).via x :=
  (deliverAll_eq_receiveAll (s := s.via x) hen hport bs).trans (receiveAll_via bs s x)

/-- The only event of the transport's own is USB_RESP. -/
def Transport.OnlyUsbResp (x : Transport) : Prop := ∀ e : Event, e ≠ .usbResp → x.events.getLsbD e.bit = false

theorem Transport.OnlyUsbResp.isPending_via (hx : x.OnlyUsbResp) (s : State) {e : Event} (he : e ≠ .usbResp) :
    (s.via x).isPending e = s.isPending e := by
  simp only [State.isPending, State.via, BitVec.getLsbD_or, hx e he, Bool.or_false]

/-- The transport's part after an accepted message with header `h` (R266). -/
def Transport.afterResponse (x : Transport) (h : CcidRsp) : Transport :=
  { x with header := h, output := none, events := x.events ||| Event.usbResp.mask }

theorem Transport.OnlyUsbResp.afterResponse (hx : x.OnlyUsbResp) (h : CcidRsp) : (x.afterResponse h).OnlyUsbResp :=
  fun e he => by
    rw [Transport.afterResponse, BitVec.getLsbD_or, hx e he, Event.getLsbD_mask, decide_eq_false he, Bool.or_false]

/-- The transport's part of a state is its own. -/
theorem State.via_own (s : State) : s.via ⟨s.ctrl.port, s.lbsCount, s.ccidRsp, s.output, 0⟩ = s := by
  simp [State.via]

/-- R243, R246: characters with right parity while no echo is expected. -/
theorem runSteps_lineRx (hen : s.ctrl.en = true) (hport : x.port = .uart) (hecho : x.echoes = 0) (bs : List Byte) :
    ∃ outs o, runSteps (bs.map fun b => .lineRx (lineEncode b s.ctrl.conv).1 (lineEncode b s.ctrl.conv).2) (s.via x) =
      some (outs, (receiveAll bs s).via { x with output := o }) := by
  induction bs generalizing s x with
  | nil => exact ⟨[], x.output, rfl⟩
  | cons b rest ih =>
    have hctrl := (receiveByte_only b false s).ctrl
    have hbyte := lineDecode_lineEncode b false s.ctrl.conv
    rw [Bool.bne_false] at hbyte
    have hstep := agentStep_lineRx_received (s := s.via { x with output := none }) hen hport hecho
      (lineEncode b s.ctrl.conv).1 (lineEncode b s.ctrl.conv).2
    rw [show (s.via { x with output := none }).ctrl.conv = s.ctrl.conv from rfl, hbyte, receiveByte_via] at hstep
    obtain ⟨outs, o, hrun⟩ := ih (s := receiveByte b false s) (x := { x with output := none }) (by rw [hctrl, hen])
      hport hecho
    rw [hctrl] at hrun
    exact ⟨_, o, runSteps_cons hstep hrun⟩

/-- R260, R266: the 0x80 message with payload `p`. -/
def dataBlock (slot seq b7 b8 b9 : Byte) (p : List Byte) : List Byte :=
  [0x80] ++ byteLanes (BitVec.ofNat 32 p.length) ++ [slot, seq, b7, b8, b9] ++ p

theorem dwLength_dataBlock (slot seq b7 b8 b9 : Byte) (p : List Byte) :
    dwLength (dataBlock slot seq b7 b8 b9 p) = BitVec.ofNat 32 p.length :=
  Option.some.inj (wordOfLanes_byteLanes (BitVec.ofNat 32 p.length))

theorem dataBlock_length (slot seq b7 b8 b9 : Byte) (p : List Byte) :
    (dataBlock slot seq b7 b8 b9 p).length = 10 + p.length := by
  simp [dataBlock, byteLanes]
  omega

/-- R266: an accepted 0x80 message hands its payload to the receive mode. -/
theorem agentStep_usbIn_dataBlock (hen : s.ctrl.en = true) (hport : x.port = .usb)
    (hvalid : s.usbSeq.lastValid = true) (b7 b8 b9 : Byte) {p : List Byte} (hp : p.length < 2 ^ 32) :
    let m := dataBlock s.usbCfg.slot s.usbSeq.last b7 b8 b9 p
    agentStep (.usbIn m) { s.via x with output := none } =
      .next ((receiveAll p s).via (x.afterResponse (headerOf m))) := by
  intro m
  have hlen : m.length = 10 + p.length := dataBlock_length _ _ b7 b8 b9 p
  have hdw : 10 + (dwLength m).toNat = m.length := by
    rw [dwLength_dataBlock, hlen, BitVec.toNat_ofNat, Nat.mod_eq_of_lt hp]
  have hpass : bulkInError m { s.via x with output := none } = none :=
    (bulkInError_of_seq hdw rfl ⟨hvalid, rfl⟩).trans (if_neg fun h => h.1 rfl)
  have htype : msgByte m 0 = 0x80 ∨ msgByte m 0 = 0x82 := .inl rfl
  have hpayload := deliverAll_via (x := { x with header := headerOf m, output := none }) hen hport p
  rw [agentStep, bulkIn_of_accepted (s := { s.via x with output := none }) hen hport (by omega) hpass, if_pos htype]
  refine congrArg Host.Outcome.next ((congrArg (State.raise · .usbResp) hpayload).trans ?_)
  simp only [State.via, State.raise, Transport.afterResponse, BitVec.or_assoc]

/-- R273: accepted 0x80 messages, one after another. -/
theorem runSteps_usbIn (hen : s.ctrl.en = true) (hport : x.port = .usb) (hx : x.OnlyUsbResp)
    (hvalid : s.usbSeq.lastValid = true) (b7 b8 b9 : Byte) {parts : List (List Byte)}
    (hparts : ∀ p ∈ parts, p.length < 2 ^ 32) :
    ∃ outs y, runSteps (parts.map fun p => .usbIn (dataBlock s.usbCfg.slot s.usbSeq.last b7 b8 b9 p)) (s.via x) =
      some (outs, (receiveAll parts.flatten s).via y) ∧ y.OnlyUsbResp := by
  induction parts generalizing s x with
  | nil => exact ⟨[], x, rfl, hx⟩
  | cons p rest ih =>
    obtain ⟨hp, hrest⟩ := List.forall_mem_cons.1 hparts
    have honly := receiveAll_only p s
    obtain ⟨outs, y, hrun, hy⟩ := ih (s := receiveAll p s) (x := x.afterResponse _) (by rw [honly.ctrl, hen]) hport
      (hx.afterResponse (headerOf (dataBlock s.usbCfg.slot s.usbSeq.last b7 b8 b9 p)))
      (by rw [honly.usbSeq, hvalid]) hrest
    rw [honly.usbCfg, honly.usbSeq] at hrun
    have hsplit : receiveAll (p :: rest).flatten s = receiveAll rest.flatten (receiveAll p s) := List.foldl_append
    rw [hsplit]
    exact ⟨_, y, runSteps_cons (agentStep_usbIn_dataBlock hen hport hvalid b7 b8 b9 hp) hrun, hy⟩

end Sys2Proof.Machine

open Sys2Proof Sys2Proof.Machine

/-- Settles O58: both runs end in the state that receiving the bytes leaves, by either transport. -/
theorem transportAgnostic : Obligations.TransportAgnostic := by
  intro s parts b7 b8 b9 hen hp hvalid hparts message uart
  have hquiet (port : Port) (echoes : Half) : Transport.OnlyUsbResp ⟨port, echoes, s.ccidRsp, s.output, 0⟩ :=
    fun e _ => BitVec.getLsbD_zero
  obtain ⟨o1, y, hmessages, hy⟩ := runSteps_usbIn hen rfl (hquiet .usb s.lbsCount) hvalid b7 b8 b9 hparts
  obtain ⟨o2, o, hline⟩ := runSteps_lineRx (x := ⟨.uart, 0, s.ccidRsp, s.output, 0⟩) hen rfl rfl parts.flatten
  have husb : s.via ⟨.usb, s.lbsCount, s.ccidRsp, s.output, 0⟩ = s := by rw [← hp, s.via_own]
  have huart : s.via ⟨.uart, 0, s.ccidRsp, s.output, 0⟩ = uart := uart.via_own
  rw [husb] at hmessages
  rw [huart] at hline
  exact ⟨o1, o2, _, _, hmessages, hline, rfl, rfl, rfl, rfl, rfl, fun e he =>
    (hy.isPending_via _ he).trans (Transport.OnlyUsbResp.isPending_via (hquiet .uart 0) _ he).symm⟩
end

section
/-! PROOFS. The system commands (47_system.md R290 to R292). -/

namespace Sys2Proof.Machine

/-- R101, R304: a command without checks of its own, which runs while CTRL.EN = 0 too, always ends in its effect. -/
theorem command_unchecked (s effect : State) : command s [] effect = .next effect.pass := rfl

/-- R291: soft_reset() itself leaves CMD_STATUS = OK. -/
theorem softReset_pass (s : State) : (softReset s).pass = softReset s := by rw [softReset_eq]; rfl

theorem exec_softReset (s : State) : exec .softReset s = .next (softReset s) :=
  (command_unchecked s (softReset s)).trans (congrArg Host.Outcome.next (softReset_pass s))

/-- R24 (1), log 13: a write that clears EN is a soft reset after the fields took effect. -/
theorem writeCtrl_of_disables {s : State} {v : Word} (h : s.disables v) :
    writeCtrl v s = softReset { s with ctrl := (writeCtrl v s).ctrl } := by
  rw [writeCtrl_ctrl, writeCtrl_eq]
  exact if_pos h

end Sys2Proof.Machine

open Sys2Proof Sys2Proof.Machine

/-- Settles O59: the command and the write that clears EN both end in `softReset`, whose fields `softReset_eq` lists. -/
theorem softResetClears : Obligations.SoftResetClears := by
  intro s cleared
  have hclears (u : State) : softReset u = cleared u := softReset_eq u
  refine ⟨?command, fun v hen hv => ⟨writeCtrl v s, busWrite_reg s .ctrl v, ?disable⟩⟩
  case command => rw [exec_softReset, hclears]
  case disable => exact (writeCtrl_of_disables ⟨hen, hv⟩).trans (hclears _)

/-- Settles O60: neither command has a check, so each ends in its effect with the outcome OK. -/
theorem nopAndCfgDefaults : Obligations.NopAndCfgDefaults := fun s =>
  ⟨command_unchecked s (s.setResult 0), command_unchecked s ((cfgDefaults s).setResult 0)⟩

end

section
/-! PROOFS. Steps and commands as a whole (60_exceptions.md R301 to R308, 70_reset_and_hazards.md R330, R331): every
command and every register write completes, what a bus access answers, the interrupt output, a disabled block, and the
hardware reset. -/

namespace Sys2Proof.Machine

variable {s : State}

/-! ### Every command completes (R303, R304) -/

/-- R303: every command is a list of checks, none of which fails with OK, and an effect. -/
theorem exec_eq_command (i : Instr) (s : State) :
    ∃ checks effect, (∀ p ∈ checks, p.2 ≠ .ok) ∧ exec i s = command s checks effect := by
  cases i with
  | nop | softReset | cfgDefaults => exact ⟨[], _, by simp, rfl⟩
  | fifoPush | fifoPop | fifoPeek | fifoRemove | fifoFlush | edcInit | edcFeed | edcEmit | encI | encR | encS | encData
  | encAbort | rxRestart | rxRelease | rxPush | tmrStart | tmrStop | tick | txSend | txStop | ccidPowerOn | ccidPowerOff
  | ccidGetParams | ccidSetParams => exact ⟨(!s.ctrl.en, .eDisabled) :: _, _, by simp, rfl⟩

/-- R304: a command ends with CMD_STATUS = OK, or fails with an error code. -/
theorem exec_cases (i : Instr) (s : State) :
    (∃ t, exec i s = .next t ∧ t.cmdStatus = .ok) ∨ ∃ c, c ≠ .ok ∧ exec i s = .next (s.failedWith c) := by
  obtain ⟨checks, effect, hcodes, e⟩ := exec_eq_command i s
  rw [e]
  rcases command_cases s checks effect with ⟨-, h⟩ | ⟨c, hmem, -, h⟩
  · exact .inl ⟨effect.pass, h, rfl⟩
  · exact .inr ⟨c, hcodes _ hmem, h⟩

/-! ### Every register write completes (R22, R86, R101) -/

theorem writeCmd_next (v : Word) (s : State) : ∃ t, writeCmd v s = .next t := by
  unfold writeCmd
  split
  · next i _ =>
    rcases exec_cases i s with ⟨t, h, -⟩ | ⟨c, -, h⟩
    · exact ⟨t, h⟩
    · exact ⟨_, h⟩
  · exact ⟨_, rfl⟩
  · split <;> exact ⟨_, rfl⟩

theorem Reg.write_next (r : Reg) (v : Word) (s : State) : ∃ t, r.write v s = .next t := by
  cases r with
  | cmd => exact writeCmd_next v s
  | id | ctrl | nad | ifs | tmoIbt | status | irqPend | irqEn | cmdResult | cmdStatus | edcAcc | fifoLevel | fifoCommit
  | encStatus | txStatus | rxInfo | rxErrCause | rxCount | tmrRem0 | tmrRem1 | tmrRem2 | presCfg | pinCtrl | uartCfg
  | lbsCount | usbCfg | usbSeq | ccidRsp0 | ccidRsp1 | ccidRsp2 | usbErrCause => exact ⟨_, rfl⟩

/-! ### What a bus access answers (R80, R85) -/

/-- R81: the registers fill the offsets below 0x080, one every four bytes. -/
theorem Reg.ofOffset_isSome {off : Nat} (hlt : off < 0x080) (halign : off % 4 = 0) : (Reg.ofOffset off).isSome := by
  have hmem : off ∈ Reg.all.map Reg.offset := by
    rw [show Reg.all.map Reg.offset = (List.range 32).map (4 * ·) by decide]
    exact List.mem_map.2 ⟨off / 4, List.mem_range.2 (by omega), by omega⟩
  simpa [Reg.ofOffset] using hmem

/-- R82, R84: an access without a target is neither an aligned 32-bit access of a register nor an aligned access of 1, 2
or 4 bytes of the RXBUF window. -/
theorem not_mapped_of_accessTarget {off size : Nat} (h : accessTarget off size = none) :
    ¬(off < 0x080 ∧ off % 4 = 0 ∧ size = 4) ∧
    ¬(0x200 ≤ off ∧ off < 0x400 ∧ (size = 1 ∨ size = 2 ∨ size = 4) ∧ off % size = 0) := by
  constructor
  · rintro ⟨hlt, halign, rfl⟩
    obtain ⟨r, hr⟩ := Option.isSome_iff_exists.1 (Reg.ofOffset_isSome hlt halign)
    simp [accessTarget, hlt, halign, hr] at h
  · rintro ⟨hge, hlt, hsize, halign⟩
    rw [accessTarget, if_neg (by omega), if_pos ⟨hge, hlt⟩, if_pos ⟨hsize, halign⟩] at h
    cases h

/-- R80, R85: a read or a write of the bus completes, but it is refused outside T1C's window, and inside it is the bus
error where nothing is mapped. -/
theorem busAccess_cases {a : AgentStep} {addr size : Nat} (ha : a = .busRead addr size ∨ ∃ v, a = .busWrite addr size v)
    (s : State) :
    (∃ t, agentStep a s = .next t) ∨
    ((addr < s.params.base ∨ s.params.base + 4096 ≤ addr) ∧ agentStep a s = .refused .outsideWindow ∨
      ∃ off, off < 4096 ∧ addr = s.params.base + off ∧
        ¬(off < 0x080 ∧ off % 4 = 0 ∧ size = 4) ∧
        ¬(0x200 ≤ off ∧ off < 0x400 ∧ (size = 1 ∨ size = 2 ∨ size = 4) ∧ off % size = 0) ∧
        agentStep a s = .fault .busError) := by
  rcases s.offsetOf_cases addr with ⟨hoff, hout⟩ | ⟨off, hlt, rfl, -⟩
  · refine .inr (.inl ⟨hout, ?_⟩)
    rcases ha with rfl | ⟨v, rfl⟩
    · rw [agentStep, busRead, hoff]
    · rw [agentStep, busWrite, hoff]
  · cases htarget : accessTarget off size with
    | none =>
      obtain ⟨hreg, hwindow⟩ := not_mapped_of_accessTarget htarget
      refine .inr (.inr ⟨off, hlt, rfl, hreg, hwindow, ?_⟩)
      rcases ha with rfl | ⟨v, rfl⟩
      · exact (bus_fault hlt htarget 0).1
      · exact (bus_fault hlt htarget v).2
    | some target =>
      left
      cases target with
      | reg r =>
        obtain ⟨rfl, rfl⟩ := accessTarget_eq_reg htarget
        rcases ha with rfl | ⟨v, rfl⟩
        · exact ⟨_, busRead_reg s r⟩
        · exact (r.write_next v s).imp fun _ ht => (busWrite_reg s r v).trans ht
      | rxbuf k =>
        obtain ⟨hread, hwrite⟩ := bus_rxbuf hlt htarget
        rcases ha with rfl | ⟨v, rfl⟩
        · exact ⟨_, hread⟩
        · exact ⟨s, hwrite v⟩

/-- R263: without a pending message there is no USB_ACCEPT. -/
theorem agentStep_usbAccept_none (h : s.usbOut = none) (ok : Bool) :
    agentStep (.usbAccept ok) s = .refused .usbAcceptNotEnabled := by
  rw [agentStep, usbAccept, h]

/-- R244: without a UART send in progress there is no LINE_TAKE. -/
theorem agentStep_lineTake_refused (h : ¬(s.tx.busy = true ∧ s.tx.portLatch = .uart)) (ok : Bool) :
    agentStep (.lineTake ok) s = .refused .lineTakeNotEnabled :=
  ((lineTake_cases ok s).resolve_left fun ⟨hb, hl, _⟩ => h ⟨hb, hl⟩).2

/-! ### The interrupt output (R39, R302) -/

/-- R39: every bit of IRQ_PEND belongs to an event. -/
theorem Event.exists_bit {k : Nat} (h : k < 14) : ∃ e : Event, e.bit = k := by
  have htable : [Event.rxDone, .rxErr, .rxOvf, .rawIdle, .txDone, .txFail, .ibtExp, .atrExp, .rspExp, .cardIn, .cardOut,
    .cmdErr, .usbResp, .usbErr].map Event.bit = List.range 14 := rfl
  obtain ⟨e, -, he⟩ := List.mem_map.1 (htable ▸ List.mem_range.2 h)
  exact ⟨e, he⟩

/-- Two event words overlap exactly in an event both contain. -/
theorem and_ne_zero_iff_event (x y : BitVec 14) :
    x &&& y ≠ 0 ↔ ∃ e : Event, x.getLsbD e.bit = true ∧ y.getLsbD e.bit = true := by
  constructor
  · contrapose!
    intro h
    refine BitVec.eq_of_getLsbD_eq fun k hk => ?_
    obtain ⟨e, rfl⟩ := Event.exists_bit hk
    simpa using h e
  · rintro ⟨e, hx, hy⟩ h0
    have hbit : (x &&& y).getLsbD e.bit = true := by rw [BitVec.getLsbD_and, hx, hy]; rfl
    simp [h0] at hbit

/-! ### A disabled block (R190, R266, R267) -/

theorem deliver_of_disabled (hen : s.ctrl.en = false) (b : Byte) (perr : Bool) (src : Source) :
    deliver b perr src s = s := if_pos hen

theorem bulkIn_of_disabled (hen : s.ctrl.en = false) (m : List Byte) : bulkIn m s = s := if_pos (.inl hen)

theorem usbInt_of_disabled (hen : s.ctrl.en = false) (m : List Byte) : usbInt m s = s := if_pos (.inl hen)

/-! ### The hardware reset (R331) -/

theorem hardwareReset_used (s : State) : (hardwareReset s).used = 0 := State.used_of_head_eq_tail rfl

/-- R130, R331: the FIFO is empty, with all its bytes but one free. -/
theorem hardwareReset_fifoLevel (hp : s.params.legal = true) :
    (Reg.fifoLevel.read (hardwareReset s)).toNat = (s.params.txFifoDepth - 1) * 65536 := by
  have hdepth : s.params.txFifoDepth ≤ 65536 := by
    simp only [Config.Params.legal, Bool.and_eq_true, decide_eq_true_eq] at hp
    omega
  have hfree : (hardwareReset s).free = s.params.txFifoDepth - 1 := by
    rw [State.free, hardwareReset_used]
    rfl
  rw [Reg.read, hfree, hardwareReset_used, BitVec.toNat_append, BitVec.toNat_ofNat, BitVec.toNat_ofNat, Nat.zero_mod,
    Nat.or_zero, Nat.shiftLeft_eq, Nat.mod_eq_of_lt (by omega)]

/-- R331: every register whose reset value no parameter sets reads as it does at the reference parameters. -/
theorem hardwareReset_read (s : State) {r : Reg} (h : r ∉ [Reg.ifs, .tmoIbt, .fifoLevel, .presCfg, .uartCfg]) :
    r.read (hardwareReset s) = r.read State.reset := by
  cases r with
  | ifs | tmoIbt | fifoLevel | presCfg | uartCfg => simp at h
  | fifoCommit =>
    have hcommitted : (hardwareReset s).committed = State.reset.committed := hardwareReset_used s
    rw [Reg.read, hcommitted]
    rfl
  | id | ctrl | nad | status | irqPend | irqEn | cmd | cmdResult | cmdStatus | edcAcc | encStatus | txStatus | rxInfo
  | rxErrCause | rxCount | tmrRem0 | tmrRem1 | tmrRem2 | pinCtrl | lbsCount | usbCfg | usbSeq | ccidRsp0 | ccidRsp1
  | ccidRsp2 | usbErrCause => rfl

end Sys2Proof.Machine

open Sys2Proof Sys2Proof.Machine

/-- Settles O6: a command is its checks and its effect, and no operation but SOFT_RESET clears a pending event. -/
theorem everyCommandCompletes : Obligations.EveryCommandCompletes := by
  intro i s
  rcases exec_cases i s with ⟨t, h, hok⟩ | ⟨c, hc, h⟩
  · exact ⟨t, h, .inl hok, fun hi => exec_answersIn_pending s hi t h⟩
  · exact ⟨_, h, .inr ⟨c, hc, rfl⟩, fun _ => KeepsPending.failedWith s c⟩

/-- Settles O7: a bus access by its target, LINE_TAKE and USB_ACCEPT by what enables them; every other step is total. -/
theorem onlyBusErrorsFault : Obligations.OnlyBusErrorsFault := by
  intro a s
  cases a with
  | busRead addr size => exact (busAccess_cases (.inl rfl) s).imp_right fun h => .inl ⟨addr, size, .inl rfl, h⟩
  | busWrite addr size v =>
    exact (busAccess_cases (.inr ⟨v, rfl⟩) s).imp_right fun h => .inl ⟨addr, size, .inr ⟨v, rfl⟩, h⟩
  | lineTake ok =>
    rcases lineTake_cases ok s with ⟨-, -, e⟩ | ⟨hoff, e⟩
    · exact .inl ⟨_, e⟩
    · exact .inr (.inr (.inl ⟨ok, rfl, hoff, e⟩))
  | usbAccept ok =>
    cases hm : s.usbOut with
    | none => exact .inr (.inr (.inr ⟨ok, rfl, rfl, agentStep_usbAccept_none hm ok⟩))
    | some m => exact .inl ⟨_, agentStep_usbAccept hm ok⟩
  | lineRx | usbIn | usbInt | pin | hardwareReset => exact .inl ⟨_, rfl⟩

/-- Settles O11: the bits of IRQ_PEND are the events, and the write is the register's own. -/
theorem interruptOutput : Obligations.InterruptOutput := fun s =>
  ⟨decide_eq_true_iff.trans (and_ne_zero_iff_event s.irqPend s.irqEn), fun v =>
    ⟨_, busWrite_reg s .irqPend v, rfl, isPending_write_irqPend rfl⟩⟩

/-- Settles O12: received bytes and messages are dropped by their first check, and a well-kept disabled block has no
send in progress to take from. -/
theorem disabledDropsEnvironment : Obligations.DisabledDropsEnvironment := by
  intro s a hinv hen hreset hread hwrite
  obtain ⟨-, -, hbusy, hmsg, -⟩ := hinv.quiet hen
  cases a with
  | busRead addr size => exact absurd rfl (hread addr size)
  | busWrite addr size v => exact absurd rfl (hwrite addr size v)
  | hardwareReset => exact absurd rfl hreset
  | lineRx d8 p => exact congrArg Host.Outcome.next (deliver_of_disabled hen _ _ .uart)
  | usbIn m => exact congrArg Host.Outcome.next (bulkIn_of_disabled hen m)
  | usbInt m => exact congrArg Host.Outcome.next (usbInt_of_disabled hen m)
  | lineTake ok => exact agentStep_lineTake_refused (by simp [hbusy]) ok
  | usbAccept ok => exact agentStep_usbAccept_none hmsg ok
  | pin level => rfl

/-- Settles O8: it is the state a hardware reset leaves at the reference parameters, but for the count of resets. -/
theorem resetInv : Obligations.ResetInv := (hardwareReset_inv (s := State.reset) (by decide)).congr rfl

/-- Settles O13: the registers the parameters do not set read as in `State.reset`, and FIFO_LEVEL counts an empty FIFO;
the hidden items are those `State.resetWith` lists. -/
theorem hardwareResetState : Obligations.HardwareResetState := by
  intro s hp
  have hread {r : Reg} {w : Word}
      (h : r ∉ [Reg.ifs, .tmoIbt, .fifoLevel, .presCfg, .uartCfg] ∧ r.read State.reset = w) :
      r.read (hardwareReset s) = w := (hardwareReset_read s h.1).trans h.2
  have hpres : Reg.presCfg.read (hardwareReset s) = 1#24 ++ s.params.presNDefault :=
    congrArg (· ++ s.params.presNDefault) (show 0#23 ++ bit true = 1#24 by decide)
  have hirq : State.reset.irq = false := by decide
  refine ⟨hardwareReset s, rfl, hread (by decide), hread (by decide), hread (by decide), rfl, rfl, hread (by decide),
    hpres, rfl, hardwareReset_fifoLevel hp, fun r hr => hread ?zero, rfl, rfl, rfl, rfl, rfl, rfl, rfl, rfl, rfl, rfl,
    ?timers, rfl, hirq, rfl, rfl⟩
  case zero =>
    revert r
    decide
  case timers =>
    intro c
    cases c <;> rfl

end
